-- ==== Sys2Proof/Word.lean ====
section
/-! DEFINITION. The fixed-width words of BZ2D: a byte of the stream or of the block, a 32-bit CRC
word, a 35-bit host command word (30_encoding.md rule R101). -/

namespace Sys2Proof

/-- A byte: bits 7 (most significant) down to 0 (00_scope.md rule R11). -/
abbrev Byte := BitVec 8

/-- A 32-bit word: a CRC register or the operand of a host command (rules R26, R101). -/
abbrev Word := BitVec 32

/-- A host command word: `cmd[34:32]` is the operation code, `cmd[31:0]` the operand (rule R101). -/
abbrev CmdWord := BitVec 35

end Sys2Proof
end

