-- ==== Sys2Proof/Machine/Checksum.lean ====
section
/-! DEFINITION. The arithmetic of the checksum unit (46_checksum_unit.md rule R301) and of the
combined CRC (rule R303). The values are the defaults of the OPEN parameters CRC_INIT, CRC_STEP and
CRC_FINAL (notes/assumptions/3.md, PRESUMED: 93_implementation_defined.md G2). -/

namespace Sys2Proof

/-- CRC_INIT, rule R301. -/
def defaultCrcInit : Word := 0xFFFFFFFF#32

/-- The generator polynomial, rule R301. -/
def crcPoly : Word := 0x04C11DB7#32

/-- One shift step of CRC_STEP: `if c[31] = 1: c <- (c << 1) ^ poly else c <- c << 1`. -/
def crcShift (c : Word) : Word := if c.getLsbD 31 then (c <<< 1) ^^^ crcPoly else c <<< 1

/-- `n` shift steps. -/
def crcShifts : Nat → Word → Word
  | 0, c => c
  | n + 1, c => crcShifts n (crcShift c)

/-- CRC_STEP(c, b), rule R301: the byte enters at the top, then 8 shift steps. -/
def defaultCrcStep (c : Word) (b : Byte) : Word := crcShifts 8 (c ^^^ (b.setWidth 32 <<< 24))

/-- CRC_FINAL(c), rule R301. -/
def defaultCrcFinal (c : Word) : Word := c ^^^ 0xFFFFFFFF#32

/-- `rotl1_32(v)`, 00_scope.md rule R12: bit 31 re-enters at bit 0. -/
def rotl1 (v : Word) : Word := (v <<< 1) ||| (v >>> 31)

end Sys2Proof
end

