-- ==== Sys2Proof/Config.lean ====
section
/-! DEFINITION. The constants of BZ2D: those the source fixes (00_scope.md rule R6) and the
configuration record of the parameters it leaves without a value (rule R7). -/

namespace Sys2Proof

/-- BASE_BLOCK: block capacity per unit of block-size class (rule R6). -/
def baseBlock : Nat := 100000
/-- CLASS_MIN (rule R6). -/
def classMin : Nat := 1
/-- CLASS_MAX (rule R6). -/
def classMax : Nat := 9
/-- MAX_CAPACITY = BASE_BLOCK times CLASS_MAX: the elements of `ll8` and `tt` (rules R6, R84). -/
def maxCapacity : Nat := 900000
/-- N_GROUPS_MAX: coding tables (rule R6). -/
def nGroupsMax : Nat := 6
/-- G_SIZE: symbols per selector (rule R6). -/
def gSize : Nat := 50
/-- MAX_CODE_LEN (rule R6). -/
def maxCodeLen : Nat := 20
/-- BYTE_VALUES (rule R6). -/
def byteValues : Nat := 256
/-- MAX_ALPHA: 256 byte values and 2 special symbols (rule R6). -/
def maxAlpha : Nat := 258
/-- RAND_SIZE: entries of RAND_TABLE (rule R6). -/
def randSize : Nat := 512
/-- RUN_THRESHOLD: equal bytes that a count byte follows (rule R6). -/
def runThreshold : Nat := 4

/-- The parameters the source leaves without a value (rule R7), one field each. -/
structure Config where
  /-- STREAM_SIG: the three signature bytes of the stream header. -/
  streamSig : Byte × Byte × Byte
  /-- DIGIT_1: the class digit of class 1. -/
  digit1 : Byte
  /-- DIGIT_9: the class digit of class 9. -/
  digit9 : Byte
  /-- BLOCK_MAGIC: the 48-bit marker of a block. -/
  blockMagic : BitVec 48
  /-- END_MAGIC: the 48-bit marker of the trailer. -/
  endMagic : BitVec 48
  /-- ORIGPTR_BITS: the width of the ORIG_PTR field. -/
  origPtrBits : Nat
  /-- RAND_TABLE: 512 entries, each at least 1. -/
  randTable : List Nat
  /-- CRC_INIT. -/
  crcInit : Word
  /-- CRC_STEP. -/
  crcStep : Word → Byte → Word
  /-- CRC_FINAL. -/
  crcFinal : Word → Word
  /-- COMBINED_INIT: the combined CRC of a stream with no block. -/
  combinedInit : Word
  /-- SEL_CAP: the elements of `selector`. -/
  selCap : Nat

/-- The constraints a model may assume of any instantiation (92_eei_decisions.md, end of table 2),
and the length of the table (rule R6). -/
structure Config.Legal (c : Config) : Prop where
  randLength : c.randTable.length = randSize
  randPositive : ∀ n ∈ c.randTable, 1 ≤ n
  origPtrBits : 1 ≤ c.origPtrBits ∧ c.origPtrBits ≤ 32
  selCap : 1 ≤ c.selCap ∧ c.selCap ≤ 32767
  magics : c.blockMagic ≠ c.endMagic
  digits : c.digit9.toNat = c.digit1.toNat + 8

/-- The configuration the machine runs with: the default of each parameter (rule R7;
notes/assumptions/3.md). -/
def config : Config where
  streamSig := defaultStreamSig
  digit1 := defaultDigit1
  digit9 := defaultDigit9
  blockMagic := defaultBlockMagic
  endMagic := defaultEndMagic
  origPtrBits := defaultOrigPtrBits
  randTable := defaultRandTable
  crcInit := defaultCrcInit
  crcStep := defaultCrcStep
  crcFinal := defaultCrcFinal
  combinedInit := defaultCombinedInit
  selCap := defaultSelCap

end Sys2Proof
end

