-- ==== Sys2Proof/Syntax.lean ====
section
/-! DEFINITION. The instructions of BZ2D: one constructor for each of the 31 rows of
spec/opcode_table.json (8 host commands, 16 stream fields, 4 Huffman-coded symbols, 3 block-content
elements), and the names of the 18 fault codes of 60_exceptions.md rule R311. -/

namespace Sys2Proof

/-- The instructions: host commands (30_encoding.md rule R101), stream fields (rules R104 to R114),
symbols (rule R112), block-content elements (rules R119, R120). Operands a command ignores are kept,
so that no bit of a command word is lost. -/
inductive Instr
  /-- START, rule R151: construct, consume the stream header. `arg` is ignored. -/
  | start (arg : Word)
  /-- READ, rule R152: single-byte read. `arg` is ignored. -/
  | read (arg : Word)
  /-- READ_BULK, rule R153: `n` is the number of bytes wanted. -/
  | readBulk (n : Word)
  /-- WRITE, rule R154: `arg[7:0]` is the byte offered. -/
  | write (arg : Word)
  /-- SEEK, rule R155: `arg` is the position asked for. -/
  | seek (arg : Word)
  /-- SET_LENGTH, rule R156: `arg` is the length asked for. -/
  | setLength (arg : Word)
  /-- GET_LENGTH, rule R157: `arg` is ignored. -/
  | getLength (arg : Word)
  /-- CLOSE, rule R158: `arg` is ignored. -/
  | close (arg : Word)
  /-- STREAM_HDR, rules R105 and R180: `h3` is the class digit, the fourth byte of the header. -/
  | streamHdr (h3 : Byte)
  /-- BLOCK_MAGIC, rules R106 and R181: a block begins. -/
  | blockMagic
  /-- END_MAGIC, rules R106 and R181: the trailer begins. -/
  | endMagic
  /-- BLOCK_CRC, rules R107 and R182: the 32-bit stored block CRC. -/
  | blockCrc (c : Word)
  /-- RANDOMISED, rules R107 and R182: the 1-bit randomisation flag. -/
  | randomised (r : Bool)
  /-- ORIG_PTR, rules R107 and R185: a field of ORIGPTR_BITS bits. -/
  | origPtr (p : Nat)
  /-- INUSE16, rules R108 and R200: first bit read (the most significant) is group 0. -/
  | inUse16 (u : BitVec 16)
  /-- INUSE_ROW, rules R108 and R200: first bit read is the lowest byte value of the group. -/
  | inUseRow (v : BitVec 16)
  /-- NGROUPS, rules R109 and R202: 3 bits, 0, 1 and 7 raise GroupCountOutOfRange. -/
  | nGroups (g : BitVec 3)
  /-- NSELECTORS, rules R109 and R202: 15 bits. -/
  | nSelectors (n : BitVec 15)
  /-- SELECTOR, rules R110 and R203: `j` one-bits and a zero-bit. -/
  | selector (j : Nat)
  /-- STARTLEN, rules R113 and R204: 5 bits. -/
  | startLen (l : BitVec 5)
  /-- LEN_STOP, rules R113 and R204: bit `0`. -/
  | lenStop
  /-- LEN_INC, rules R113 and R204: bits `10`. -/
  | lenInc
  /-- LEN_DEC, rules R113 and R204: bits `11`. -/
  | lenDec
  /-- COMBINED_CRC, rules R114 and R183: the trailer's 32-bit combined CRC. -/
  | combinedCrc (c : Word)
  /-- RUNA, rules R112 and R233: run digit of weight 1. -/
  | runA
  /-- RUNB, rules R112 and R233: run digit of weight 2. -/
  | runB
  /-- MTFV(k), rules R112 and R235: move-to-front rank `k - 1`. -/
  | mtfv (k : Nat)
  /-- EOB, rules R112 and R236: end of block. -/
  | eob
  /-- LITERAL, rules R119, R266, R268: a data byte `v` of the block, after unmasking. -/
  | literal (v : Byte)
  /-- RUNCOUNT, rules R119, R269, R270: the byte after four equal bytes, after unmasking. -/
  | runCount (c : Byte)
  /-- RANDMASK, rules R120 and R267: the mask bit `r` of the next byte of a randomised block. -/
  | randMask (r : Bool)
  deriving DecidableEq, Repr

/-- The eight operation codes of a host command word (rule R101). -/
inductive HostOp
  | start | read | readBulk | write | seek | setLength | getLength | close
  deriving DecidableEq, Repr

/-- The fault codes 1 to 18 of 60_exceptions.md rule R311 (code 0, no fault, is `none` of an
`Option FaultCode`). -/
inductive FaultCode
  | invalidStreamHeader
  | corruptBlockHeader
  | invalidHuffmanCode
  | symbolOutOfRange
  | blockOverrun
  | blockCrcMismatch
  | combinedCrcMismatch
  | unexpectedEndOfInput
  | unsupportedOperation
  | emptyAlphabet
  | groupCountOutOfRange
  | selectorCountOutOfRange
  | selectorIndexOutOfRange
  | codeLengthOutOfRange
  | selectorOverrun
  | origPtrOutOfRange
  | runCountMissing
  | hostProtocolViolation
  deriving DecidableEq, Repr

/-- The memories whose element index is not bounded by a type of the model (20_memory.md rule R70);
an access beyond the element count has no defined behaviour (rule R78). -/
inductive Space
  | selector | selPos | len | table | limit | perm | yy | ll8 | tt | randTable
  deriving DecidableEq, Repr

/-- Why the machine has no next state. Both situations are shut out by the rules in every run
(20_memory.md rule R78, 93_implementation_defined.md U14). -/
inductive Stop
  /-- An element index at or beyond the memory's element count: no defined behaviour (rule R78). -/
  | index (m : Space)
  /-- `readBits(n)` with `n = 0` or `n > 32`: the function is undefined there (rule R170, U14). -/
  | bitCount (n : Nat)
  deriving DecidableEq, Repr

end Sys2Proof
end

