-- ==== Sys2Proof/Machine/BitReader.lean ====
section
/-! DEFINITION. The byte source and the bit reader (20_memory.md rule R75, 41_bit_reader.md rules R170
to R176): the bit cursor, the `next` request, `readBits`, `readByte`. -/

namespace Sys2Proof

/-- The bit cursor (10_state.md rule R21) together with the byte source it reads (rule R45). -/
structure BitCursor where
  /-- `SRC`: the content of the byte source, fixed for the run (rule R45). -/
  src : List Byte
  /-- `srcPos`: how many bytes have been delivered (rule R45). -/
  srcPos : Nat
  /-- `bsBuff`: the accumulator; only bits `bsLive - 1` down to 0 are live (rule R21). -/
  bsBuff : BitVec 32
  /-- `bsLive`: how many bits of the last delivered byte are not consumed yet (rule R21). -/
  bsLive : Nat
  deriving DecidableEq, Repr

/-- A byte-source answer (30_encoding.md rule R103). -/
inductive SrcAnswer
  | byte (b : Byte)
  | eod
  deriving DecidableEq, Repr

/-- What the 9 bits of an answer mean: bit 8 set is `eod`, whatever the low bits; bit 8 clear is the byte
in bits 7..0 (rule R103). -/
def SrcAnswer.ofCode (ans : BitVec 9) : SrcAnswer :=
  if ans.getLsbD 8 then .eod else .byte (ans.extractLsb' 0 8)

/-- The 9 bits the byte source answers with (rule R103). The low bits of an `eod` answer, which nothing
reads, are 0. -/
def SrcAnswer.code : SrcAnswer → BitVec 9
  | .byte b => b.setWidth 9
  | .eod => 0x100#9

/-- What `readBits` gives: a value and the cursor after it, the end of the source met before the last
bit (with the bits taken so far lost, rule R173), or a width for which it is not defined (U14). -/
inductive BitRead
  | ok (v : Nat) (c : BitCursor)
  | eod (c : BitCursor)
  | badWidth (n : Nat)
  deriving DecidableEq, Repr

namespace BitCursor

/-- A cursor at the first bit of `bs`. -/
def ofBytes (bs : List Byte) : BitCursor := { src := bs, srcPos := 0, bsBuff := 0, bsLive := 0 }

/-- The 9-bit answer of the byte source to a `next` request: its next byte, or `eod` (rules R75, R103). -/
def answer (c : BitCursor) : BitVec 9 := (c.src[c.srcPos]?.elim .eod .byte : SrcAnswer).code

/-- `SrcNext()`: one `next` request on the byte-source port (rule R75); the 9 bits answered are read as
rule R103 says, and only a byte delivered moves `srcPos`. -/
def next (c : BitCursor) : SrcAnswer × BitCursor :=
  match SrcAnswer.ofCode c.answer with
  | .byte b => (.byte b, { c with srcPos := c.srcPos + 1 })
  | .eod => (.eod, c)

/-- `bsBuff[7:0] <- b; bsLive <- 8` (rule R170). -/
def load (b : Byte) (c : BitCursor) : BitCursor :=
  { c with bsBuff := c.bsBuff.extractLsb' 8 24 ++ b, bsLive := 8 }

/-- `bsLive <- bsLive - 1`, giving `bsBuff[bsLive]` (rule R170). -/
def take (c : BitCursor) : BitRead :=
  .ok (c.bsBuff.getLsbD (c.bsLive - 1)).toNat { c with bsLive := c.bsLive - 1 }

/-- One pass of the loop of `readBits` (rule R170): a byte is requested only when none is live. -/
def readBit (c : BitCursor) : BitRead :=
  if c.bsLive = 0 then
    match c.next with
    | (.byte b, c') => (c'.load b).take
    | (.eod, c') => .eod c'
  else c.take

/-- `n` passes of the loop of `readBits` from the value `v` (rule R170). -/
def readFrom : Nat → Nat → BitCursor → BitRead
  | 0, v, c => .ok v c
  | n + 1, v, c =>
    match c.readBit with
    | .ok b c' => readFrom n (2 * v + b) c'
    | r => r

/-- `readBits(n)`, `n` in 1..32 (rule R170). -/
def readBits (n : Nat) (c : BitCursor) : BitRead :=
  if n = 0 ∨ 32 < n then .badWidth n else c.readFrom n 0

/-- `readByte()` is `readBits(8)` (rule R171). -/
def readByte (c : BitCursor) : BitRead := c.readBits 8

/-- `repeat n times: m <- 256 * m + readByte()` (rules R181, R183). -/
def readBytes : Nat → Nat → BitCursor → BitRead
  | 0, m, c => .ok m c
  | n + 1, m, c =>
    match c.readByte with
    | .ok b c' => readBytes n (256 * m + b) c'
    | r => r

/-- The stream bit position, `8 * srcPos - bsLive` (10_state.md rule R45). -/
def pos (c : BitCursor) : Nat := 8 * c.srcPos - c.bsLive

end BitCursor

/-- Stream bit `k` of a byte sequence: `sb[8*i + j]` is bit `7 - j` of `S[i]` (00_scope.md rule R11). -/
def streamBit (src : List Byte) (k : Nat) : Option Bool := src[k / 8]?.map fun b => b.getMsbD (k % 8)

/-- The bits of a byte in stream order, bit 7 first (rule R11). -/
def byteBits (b : Byte) : List Bool := (List.range 8).map b.getMsbD

/-- The bits the cursor has not consumed yet, in stream order: the live bits of the accumulator, then
the bytes not delivered yet. -/
def BitCursor.bits (c : BitCursor) : List Bool :=
  ((List.range c.bsLive).map fun k => c.bsBuff.getLsbD (c.bsLive - 1 - k)) ++
    (c.src.drop c.srcPos).flatMap byteBits

/-- The value of a field whose first bit is the most significant (rule R11). -/
def bitsValue (bs : List Bool) : Nat := bs.foldl (fun v b => 2 * v + b.toNat) 0

/-- The `w` bits of the value `v`, most significant first (rule R11). -/
def fieldBits (w v : Nat) : List Bool := (List.range w).map fun k => v.testBit (w - 1 - k)

/-- The bytes of an `n`-byte value, most significant first (20_memory.md rule R73). -/
def wordBytes (n v : Nat) : List Byte :=
  (List.range n).map fun k => BitVec.ofNat 8 (v >>> (8 * (n - 1 - k)))

end Sys2Proof
end

