-- ==== Sys2Proof/Machine/Mem.lean ====
section
/-! DEFINITION. The private memories of BZ2D (20_memory.md rules R70, R71): a list of (element index,
element) pairs in one canonical form, indices strictly rising and no element listed that equals what
an unlisted index reads as. What an unlisted index reads as is `Mem.blank` (notes/assumptions/2.md,
DESIGN CHOICE: rule R46 gives no element a reset value). -/

namespace Sys2Proof

/-- A memory: listed (index, element) pairs. -/
abbrev Mem (α : Type) := List (Nat × α)

namespace Mem

variable {α : Type} [Inhabited α]

/-- What an element that nothing has written reads as: the zero of its type. -/
def blank : α := default

/-- The canonical form. -/
abbrev wf [DecidableEq α] (m : Mem α) : Prop :=
  m.Pairwise (fun p q => p.1 < q.1) ∧ ∀ p ∈ m, p.2 ≠ blank

/-- `MemRead(M, i)` (00_scope.md rule R12). -/
def read : Mem α → Nat → α
  | [], _ => blank
  | (a, v) :: m, i => if i < a then blank else if i = a then v else read m i

/-- `MemWrite(M, i, v)` (00_scope.md rule R12); writing the blank element removes the entry. -/
def write [DecidableEq α] : Mem α → Nat → α → Mem α
  | [], i, v => if v = blank then [] else [(i, v)]
  | (a, w) :: m, i, v =>
    if i < a then (if v = blank then (a, w) :: m else (i, v) :: (a, w) :: m)
    else if i = a then (if v = blank then m else (i, v) :: m)
    else (a, w) :: write m i v

/-- Writes `vs` to the successive elements from index `i` on, in increasing order. -/
def writeList [DecidableEq α] : Mem α → Nat → List α → Mem α
  | m, _, [] => m
  | m, i, v :: vs => writeList (m.write i v) (i + 1) vs

/-- Writes `n` copies of `v` to the successive elements from index `i` on: the entries below `i`, the
run (nothing if `v` is the blank element), the entries from `i + n` on. -/
def writeRun [DecidableEq α] (n : Nat) (m : Mem α) (i : Nat) (v : α) : Mem α :=
  m.filter (fun p => p.1 < i) ++ (if v = blank then [] else (List.range' i n).map fun k => (k, v)) ++
    m.filter fun p => i + n ≤ p.1

/-- The memory whose elements from index `i` on are `vs`, nothing else listed. -/
def fromList [DecidableEq α] : Nat → List α → Mem α
  | _, [] => []
  | i, v :: vs => if v = blank then fromList (i + 1) vs else (i, v) :: fromList (i + 1) vs

end Mem

end Sys2Proof
end

