-- ==== Sys2Proof/Machine/Huffman.lean ====
section
/-! DEFINITION. The coding tables of a block: building them from code lengths (43_huffman_table_builder.md
rules R205, R206), decoding one canonical code with them (44_mtf_rle2_decoder.md rule R232), and the
canonical code of a symbol as an encoder sees it (30_encoding.md rule R111). -/

namespace Sys2Proof

/-- What BZ2D holds for one of its six coding tables (10_state.md rules R36, R37). -/
structure HuffTable where
  /-- `len[t][i]`: code length of symbol `i`. -/
  len : Mem Nat
  /-- `minLen[t]`. -/
  minLen : Nat
  /-- `maxLen[t]`. -/
  maxLen : Nat
  /-- `limit[t][l]`, signed: the largest code value of length `l`, -1 outside `minLen..maxLen`. -/
  limit : Mem Int
  /-- `base[t][l]`: the first code value of length `l` minus the rank of its symbol. -/
  base : Mem Nat
  /-- `perm[t][j]`: the symbol of rank `j`. -/
  perm : Mem Nat
  deriving DecidableEq, Repr, Inhabited

/-- The elements of `limit[t]` and `base[t]` (lengths 0..21, rule R37). -/
def limitSize : Nat := 22

/-- The lengths `l` of `a..b`, in increasing order. -/
def lengthsFrom (a b : Nat) : List Nat := List.range' a (b + 1 - a)

/-- The symbols in order of (length, symbol), for lengths `a..b` (rule R205). -/
def symbolsByLength (lens : List Nat) (a b : Nat) : List Nat :=
  (lengthsFrom a b).flatMap fun l => (List.range lens.length).filter fun i => lens.getD i 0 = l

/-- The least of a list of lengths (0 of none). -/
def leastOf : List Nat → Nat
  | [] => 0
  | l :: ls => ls.foldl min l

/-- The greatest of a list of lengths (0 of none). -/
def greatestOf (ls : List Nat) : Nat := ls.foldl max 0

/-- The transient registers of the loop of `BuildLimitBase` and the arrays it fills (rule R206). -/
structure LimitBase where
  limit : Mem Int
  base : Mem Nat
  vec : Nat
  cum : Nat
  deriving DecidableEq, Repr

/-- One pass of the loop of `BuildLimitBase` for the length `l` with `n` symbols (rule R206). -/
def LimitBase.pass (l n : Nat) (r : LimitBase) : LimitBase where
  base := r.base.write l (r.vec - r.cum)
  limit := r.limit.write l ((r.vec + n : Nat) - 1)
  vec := 2 * (r.vec + n)
  cum := r.cum + n

/-- `for l in 0..21: limit[t][l] <- -1; base[t][l] <- 0; vec <- 0; cum <- 0` (rule R206). -/
def LimitBase.start : LimitBase where
  limit := Mem.fromList 0 (List.replicate limitSize (-1))
  base := Mem.fromList 0 (List.replicate limitSize 0)
  vec := 0
  cum := 0

/-- The loop of `BuildLimitBase` over the lengths `a..b` (rule R206). -/
def limitBaseOf (lens : List Nat) (a b : Nat) : LimitBase :=
  (lengthsFrom a b).foldl (fun r l => r.pass l (lens.count l)) LimitBase.start

/-- `cnt[0..21]` (rule R206). -/
def codeCounts (lens : List Nat) : Mem Nat :=
  Mem.fromList 0 ((List.range limitSize).map fun l => lens.count l)

namespace HuffTable

/-- The code lengths of the symbols 0..alphaSize-1. -/
def lens (t : HuffTable) (alphaSize : Nat) : List Nat := (List.range alphaSize).map t.len.read

/-- `BuildPerm(t)` then `BuildLimitBase(t)` (rules R205, R206). DESIGN CHOICE (notes/assumptions/16.md): of a length
above 21 or an alphabet above 258 symbols, which no run builds, elements beyond the arrays are read and written; rule
R78 defines nothing there. -/
def build (alphaSize : Nat) (t : HuffTable) : HuffTable :=
  let ls := t.lens alphaSize
  let a := leastOf ls
  let b := greatestOf ls
  let r := limitBaseOf ls a b
  { t with minLen := a, maxLen := b, limit := r.limit, base := r.base
           perm := t.perm.writeList 0 (symbolsByLength ls a b) }

end HuffTable

/-- What `DecodeCode` gives (rule R232): a symbol with the final `zn` and `zvec` and the cursor after
it; a fault; or an access with no defined behaviour. -/
inductive CodeRead
  | ok (sym zn zvec : Nat) (c : BitCursor)
  | reject (f : FaultCode) (c : BitCursor)
  | stop (u : Stop)
  deriving DecidableEq, Repr

/-- The end of `DecodeCode`: `idx <- zvec - base[t][zn]`, its range check, `perm[t][idx]` (rule R232). -/
def resolveCode (t : HuffTable) (alphaSize zn zvec : Nat) (c : BitCursor) : CodeRead :=
  let idx : Int := (zvec : Int) - (t.base.read zn : Int)
  if idx < 0 ∨ (alphaSize : Int) ≤ idx then .reject .symbolOutOfRange c
  else if maxAlpha ≤ idx.toNat then .stop (.index .perm)
  else .ok (t.perm.read idx.toNat) zn zvec c

/-- The loop of `DecodeCode`: `k` more lengths are allowed, `k = 20 - zn` (rule R232). -/
def extendCode (t : HuffTable) (alphaSize : Nat) : Nat → Nat → Nat → BitCursor → CodeRead
  | 0, zn, zvec, c =>
    if t.limit.read zn < (zvec : Int) then .reject .invalidHuffmanCode c
    else resolveCode t alphaSize zn zvec c
  | k + 1, zn, zvec, c =>
    if t.limit.read zn < (zvec : Int) then
      match c.readBits 1 with
      | .ok b c' => extendCode t alphaSize k (zn + 1) (2 * zvec + b) c'
      | .eod c' => .reject .unexpectedEndOfInput c'
      | .badWidth n => .stop (.bitCount n)
    else resolveCode t alphaSize zn zvec c

/-- `DecodeCode(t)` (rule R232). -/
def decodeCode (t : HuffTable) (alphaSize : Nat) (c : BitCursor) : CodeRead :=
  if limitSize ≤ t.minLen then .stop (.index .limit)
  else
    match c.readBits t.minLen with
    | .ok v c' => extendCode t alphaSize (maxCodeLen - t.minLen) t.minLen v c'
    | .eod c' => .reject .unexpectedEndOfInput c'
    | .badWidth n => .stop (.bitCount n)

/-- Rule R111: the code values of a list of lengths in non-decreasing order, `v` being the value of
the first: each next symbol gets `(previous code value + 1) << (its length - previous length)`. -/
def codeValues : Nat → List Nat → List Nat
  | _, [] => []
  | v, [_] => [v]
  | v, l :: l' :: ls => v :: codeValues ((v + 1) <<< (l' - l)) (l' :: ls)

/-- The canonical code of symbol `sym` for the code lengths `lens` (rule R111), if it has one: the
symbols are listed by increasing length and, among equal lengths, by increasing symbol. DESIGN CHOICE
(notes/assumptions/15.md): of lengths whose Kraft sum exceeds 1 a value can overflow its length, and its low bits are
written; rule R111 gives such a symbol no code, rule R232 alone says what is decoded. -/
def canonicalCode (lens : List Nat) (sym : Nat) : Option (List Bool) :=
  let order := symbolsByLength lens (leastOf lens) (greatestOf lens)
  let values := codeValues 0 (order.map fun i => lens.getD i 0)
  (order.idxOf? sym).map fun r => fieldBits (lens.getD sym 0) (values.getD r 0)

end Sys2Proof
end

