-- ==== Sys2Proof/WellFormed.lean ====
section
/-! DEFINITION. Which instructions have an encoding: the operand fits its field (30_encoding.md rules
R101 to R113, R116). Operands whose type is exactly the width of their field need no check. -/

namespace Sys2Proof

/-- The check of each instruction's operands, context-free. -/
def Instr.wellFormed (i : Instr) (cfg : Config := config) : Bool :=
  match i with
  | .start _ | .read _ | .readBulk _ | .write _ | .seek _ | .setLength _ | .getLength _ | .close _ => true
  -- rule R105: the class digit is one of DIGIT_1..DIGIT_9
  | .streamHdr h3 => cfg.digit1 ≤ h3 && h3 ≤ cfg.digit9
  | .blockMagic | .endMagic | .blockCrc _ | .randomised _ => true
  -- rule R107: a field of ORIGPTR_BITS bits
  | .origPtr p => p < 2 ^ cfg.origPtrBits
  | .inUse16 _ | .inUseRow _ | .nGroups _ | .nSelectors _ => true
  -- rule R110: a position in a list of at most N_GROUPS_MAX tables
  | .selector j => j < nGroupsMax
  | .startLen _ | .lenStop | .lenInc | .lenDec | .combinedCrc _ => true
  | .runA | .runB => true
  -- rule R112: 2 <= k <= nInUse <= 256
  | .mtfv k => 2 ≤ k && k ≤ byteValues
  | .eob | .literal _ | .runCount _ | .randMask _ => true

end Sys2Proof
end

