-- ==== Sys2Proof/Decode.lean ====
section
/-! DEFINITION. The decoder and, after it, the encoder (30_encoding.md). A host command word carries its
operation code (rule R101). A stream element carries none: which element the next bits are is fixed by
the place in the grammar of rule R104, here a `Ctx`. A block-content byte (rule R119) is a byte of the
walk, unmasked. A bit sequence that is no legal element is rejected with the fault the spec names for
it (rule R116). -/

namespace Sys2Proof

/-- The place in the stream grammar (rule R104) that decides how the next bits are read. -/
inductive Ctx
  | streamHdr
  | marker
  | blockCrc
  | randomised
  | origPtr
  | inUse16
  | inUseRow
  | nGroups
  | nSelectors
  | selector (nGroups : Nat)
  | startLen
  | lenDelta
  | symbol (t : HuffTable) (nInUse : Nat)
  | combinedCrc
  deriving DecidableEq, Repr

/-- What the decoder answers: an instruction and the cursor after its bits; a rejection by the fault's
name; or an access with no defined behaviour. -/
inductive Decoded
  | ok (i : Instr) (c : BitCursor)
  | reject (f : FaultCode) (c : BitCursor)
  | stop (u : Stop)
  deriving DecidableEq, Repr

/-- A field read: its value goes to `k`, the end of the source is `UnexpectedEndOfInput` (rule R173). -/
def BitRead.decoded (r : BitRead) (k : Nat → BitCursor → Decoded) : Decoded :=
  match r with
  | .ok v c => k v c
  | .eod c => .reject .unexpectedEndOfInput c
  | .badWidth n => .stop (.bitCount n)

/-- Rule R105, R180: the class digit of a legal stream header. -/
def headerDigit (w : BitVec 32) (cfg : Config := config) : Option Byte :=
  let h3 := w.extractLsb' 0 8
  if w.extractLsb' 24 8 = cfg.streamSig.1 ∧ w.extractLsb' 16 8 = cfg.streamSig.2.1 ∧
      w.extractLsb' 8 8 = cfg.streamSig.2.2 ∧ cfg.digit1 ≤ h3 ∧ h3 ≤ cfg.digit9 then some h3
  else none

/-- Rule R106, R181: the marker's meaning, END_MAGIC tested first. -/
def markerInstr (m : BitVec 48) (cfg : Config := config) : Option Instr :=
  if m = cfg.endMagic then some .endMagic
  else if m = cfg.blockMagic then some .blockMagic
  else none

/-- Rules R110, R203: one-bits are counted until a zero-bit; `k` more of them are legal. -/
def readUnary : Nat → Nat → BitCursor → Decoded
  | 0, j, c =>
    (c.readBits 1).decoded fun b c' =>
      if b = 0 then .ok (.selector j) c' else .reject .selectorIndexOutOfRange c'
  | k + 1, j, c =>
    match c.readBits 1 with
    | .ok b c' => if b = 0 then .ok (.selector j) c' else readUnary k (j + 1) c'
    | .eod c' => .reject .unexpectedEndOfInput c'
    | .badWidth n => .stop (.bitCount n)

/-- Rule R112 and the tests of rule R238, in their order: the symbol a value stands for. -/
def symbolInstr (nInUse sym : Nat) : Instr :=
  if sym = 0 then .runA
  else if sym = 1 then .runB
  else if sym = nInUse + 1 then .eob
  else .mtfv sym

/-- Rules R238, R232: the symbol decoded with the table `t`. -/
def CodeRead.decoded (nInUse : Nat) : CodeRead → Decoded
  | .ok sym _ _ c => .ok (symbolInstr nInUse sym) c
  | .reject f c => .reject f c
  | .stop u => .stop u

/-- The stream decoder: the element at the cursor, in its place of the grammar. -/
def decode (ctx : Ctx) (c : BitCursor) (cfg : Config := config) : Decoded :=
  match ctx with
  | .streamHdr =>
    (c.readBytes 4 0).decoded fun v c' =>
      match headerDigit (BitVec.ofNat 32 v) cfg with
      | some h3 => .ok (.streamHdr h3) c'
      | none => .reject .invalidStreamHeader c'
  | .marker =>
    (c.readBytes 6 0).decoded fun v c' =>
      match markerInstr (BitVec.ofNat 48 v) cfg with
      | some i => .ok i c'
      | none => .reject .corruptBlockHeader c'
  | .blockCrc => (c.readBits 32).decoded fun v c' => .ok (.blockCrc (BitVec.ofNat 32 v)) c'
  | .randomised => (c.readBits 1).decoded fun v c' => .ok (.randomised (v != 0)) c'
  | .origPtr => (c.readBits cfg.origPtrBits).decoded fun v c' => .ok (.origPtr v) c'
  | .inUse16 => (c.readBits 16).decoded fun v c' => .ok (.inUse16 (BitVec.ofNat 16 v)) c'
  | .inUseRow => (c.readBits 16).decoded fun v c' => .ok (.inUseRow (BitVec.ofNat 16 v)) c'
  | .nGroups => (c.readBits 3).decoded fun v c' => .ok (.nGroups (BitVec.ofNat 3 v)) c'
  | .nSelectors => (c.readBits 15).decoded fun v c' => .ok (.nSelectors (BitVec.ofNat 15 v)) c'
  | .selector n => readUnary (n - 1) 0 c
  | .startLen => (c.readBits 5).decoded fun v c' => .ok (.startLen (BitVec.ofNat 5 v)) c'
  | .lenDelta =>
    (c.readBits 1).decoded fun b c' =>
      if b = 0 then .ok .lenStop c'
      else (c'.readBits 1).decoded fun d c'' => .ok (if d = 0 then .lenInc else .lenDec) c''
  | .symbol t nInUse => (decodeCode t (nInUse + 2) c).decoded nInUse
  | .combinedCrc => (c.readBytes 4 0).decoded fun v c' => .ok (.combinedCrc (BitVec.ofNat 32 v)) c'

/-- The operation code of a command word, `cmd[34:32]` (rule R101). -/
def cmdOp (w : CmdWord) : BitVec 3 := w.extractLsb' 32 3

/-- The operand of a command word, `cmd[31:0]` (rule R101). -/
def cmdArg (w : CmdWord) : Word := w.extractLsb' 0 32

/-- The host command decoder (rule R101): all eight operation codes are assigned. -/
def decodeCommand (w : CmdWord) : Instr :=
  match (cmdOp w).toNat with
  | 0 => .start (cmdArg w)
  | 1 => .read (cmdArg w)
  | 2 => .readBulk (cmdArg w)
  | 3 => .write (cmdArg w)
  | 4 => .seek (cmdArg w)
  | 5 => .setLength (cmdArg w)
  | 6 => .getLength (cmdArg w)
  | _ => .close (cmdArg w)

/-- A byte of the walk with the mask bit `r` exclusive-ored into bit 0 (rules R120, R266). -/
def unmask (r : Bool) (b : Byte) : Byte := b ^^^ (BitVec.ofBool r).setWidth 8

/-! ### The encoder, from the same tables of 30_encoding.md -/

/-- The code of each operation (rule R101). -/
def HostOp.code : HostOp → BitVec 3
  | .start => 0 | .read => 1 | .readBulk => 2 | .write => 3
  | .seek => 4 | .setLength => 5 | .getLength => 6 | .close => 7

/-- The command word of an operation and its operand (rule R101). -/
def commandWord (op : HostOp) (arg : Word) : CmdWord := op.code ++ arg

/-- The host command encoder (rule R101): `none` for what is no host command. -/
def encodeCommand : Instr → Option CmdWord
  | .start a => some (commandWord .start a)
  | .read a => some (commandWord .read a)
  | .readBulk n => some (commandWord .readBulk n)
  | .write a => some (commandWord .write a)
  | .seek a => some (commandWord .seek a)
  | .setLength a => some (commandWord .setLength a)
  | .getLength a => some (commandWord .getLength a)
  | .close a => some (commandWord .close a)
  | .streamHdr _ | .blockMagic | .endMagic | .blockCrc _ | .randomised _ | .origPtr _ | .inUse16 _
  | .inUseRow _ | .nGroups _ | .nSelectors _ | .selector _ | .startLen _ | .lenStop | .lenInc | .lenDec
  | .combinedCrc _ | .runA | .runB | .mtfv _ | .eob | .literal _ | .runCount _ | .randMask _ => none

/-- The bits of a stream element that is no Huffman code, in stream order (rules R105 to R114):
`none` for what is no such element. -/
def encodeField (i : Instr) (cfg : Config := config) : Option (List Bool) :=
  match i with
  | .streamHdr h3 => some (byteBits cfg.streamSig.1 ++ byteBits cfg.streamSig.2.1 ++
      byteBits cfg.streamSig.2.2 ++ byteBits h3)
  | .blockMagic => some (fieldBits 48 cfg.blockMagic.toNat)
  | .endMagic => some (fieldBits 48 cfg.endMagic.toNat)
  | .blockCrc c => some (fieldBits 32 c.toNat)
  | .randomised r => some [r]
  | .origPtr p => some (fieldBits cfg.origPtrBits p)
  | .inUse16 u => some (fieldBits 16 u.toNat)
  | .inUseRow v => some (fieldBits 16 v.toNat)
  | .nGroups g => some (fieldBits 3 g.toNat)
  | .nSelectors n => some (fieldBits 15 n.toNat)
  | .selector j => some (List.replicate j true ++ [false])
  | .startLen l => some (fieldBits 5 l.toNat)
  | .lenStop => some [false]
  | .lenInc => some [true, false]
  | .lenDec => some [true, true]
  | .combinedCrc c => some (fieldBits 32 c.toNat)
  | .start _ | .read _ | .readBulk _ | .write _ | .seek _ | .setLength _ | .getLength _ | .close _
  | .runA | .runB | .mtfv _ | .eob | .literal _ | .runCount _ | .randMask _ => none

/-- The symbol value of a symbol in a block with `nInUse` used byte values (rule R112). -/
def symbolValue (nInUse : Nat) : Instr → Option Nat
  | .runA => some 0
  | .runB => some 1
  | .mtfv k => if 2 ≤ k ∧ k ≤ nInUse then some k else none
  | .eob => some (nInUse + 1)
  | .start _ | .read _ | .readBulk _ | .write _ | .seek _ | .setLength _ | .getLength _ | .close _
  | .streamHdr _ | .blockMagic | .endMagic | .blockCrc _ | .randomised _ | .origPtr _ | .inUse16 _
  | .inUseRow _ | .nGroups _ | .nSelectors _ | .selector _ | .startLen _ | .lenStop | .lenInc | .lenDec
  | .combinedCrc _ | .literal _ | .runCount _ | .randMask _ => none

/-- The stream encoder: the element's bits in its place of the grammar, `none` where it has none
there. -/
def encode (ctx : Ctx) (i : Instr) (cfg : Config := config) : Option (List Bool) :=
  match ctx, i with
  | .streamHdr, .streamHdr _ | .marker, .blockMagic | .marker, .endMagic | .blockCrc, .blockCrc _
  | .randomised, .randomised _ | .origPtr, .origPtr _ | .inUse16, .inUse16 _ | .inUseRow, .inUseRow _
  | .nGroups, .nGroups _ | .nSelectors, .nSelectors _ | .startLen, .startLen _ | .lenDelta, .lenStop
  | .lenDelta, .lenInc | .lenDelta, .lenDec | .combinedCrc, .combinedCrc _ => encodeField i cfg
  | .selector n, .selector j => if j < n then encodeField i cfg else none
  | .symbol t nInUse, _ => (symbolValue nInUse i).bind (canonicalCode (t.lens (nInUse + 2)))
  | _, _ => none

/-- The stored byte of a block-content byte under the mask bit `r` (rules R119, R120). -/
def encodeByte (r : Bool) : Instr → Option Byte
  | .literal v => some (unmask r v)
  | .runCount c => some (unmask r c)
  | .start _ | .read _ | .readBulk _ | .write _ | .seek _ | .setLength _ | .getLength _ | .close _
  | .streamHdr _ | .blockMagic | .endMagic | .blockCrc _ | .randomised _ | .origPtr _ | .inUse16 _
  | .inUseRow _ | .nGroups _ | .nSelectors _ | .selector _ | .startLen _ | .lenStop | .lenInc | .lenDec
  | .combinedCrc _ | .runA | .runB | .mtfv _ | .eob | .randMask _ => none

/-! ### One word without a context, for the host's questions -/

/-- The instruction of a decoding, if it gives one. -/
def Decoded.instr : Decoded → Option Instr
  | .ok i _ => some i
  | .reject _ _ | .stop _ => none

/-- The place in the grammar that a bare word of `nbits` bits is read in (notes/assumptions/6.md): a
stream element's bits do not say which element they are, so the first element of that width in
the order of the table is taken; a 32-bit word that is no stream header is a BLOCK_CRC. -/
def tableCtx (nbits w : Nat) : Option Ctx :=
  if nbits = 48 then some .marker
  else if nbits = 32 then
    (if (headerDigit (BitVec.ofNat 32 w)).isSome then some .streamHdr else some .blockCrc)
  else if nbits = 24 then some .origPtr
  else if nbits = 16 then some .inUse16
  else if nbits = 8 ∧ w < 2 then some .randomised
  else none

/-- The bytes a bare word is laid out as for its place: most significant byte first, except that the
1-bit RANDOMISED field is the first bit of its byte (00_scope.md rule R11). -/
def tableBytes (nbits w : Nat) : List Byte :=
  if nbits = 8 ∧ w < 2 then [BitVec.ofNat 8 (w <<< 7)] else wordBytes (nbits / 8) w

/-- What the decoder reads from a bare word, numbered as spec/opcode_table.json numbers it. A word of
35 to 40 bits is a host command; a byte of value 2 or more is a LITERAL (notes/assumptions/6.md). -/
def decodeTableWord (nbits w : Nat) : Option Instr :=
  if 35 ≤ nbits ∧ nbits ≤ 40 then some (decodeCommand (BitVec.ofNat 35 w))
  else
    match tableCtx nbits w with
    | some ctx => (decode ctx (BitCursor.ofBytes (tableBytes nbits w))).instr
    | none => if nbits = 8 ∧ w < 256 then some (.literal (BitVec.ofNat 8 w)) else none

end Sys2Proof
end

