-- ==== Sys2Proof/Machine/State.lean ====
section
/-! DEFINITION. The state of BZ2D (10_state.md), its reset value (rules R46, R350), and the reasons a step
can end with no next state. Registers are grouped as the spec groups them; every one is plain data. -/

namespace Sys2Proof.Machine

/-- Why the machine stops. The 18 faults of 60_exceptions.md are no member of this type: `raise`
(rule R310) is a transition to a next state that latches the code. -/
inductive Fault
  /-- An access to an element at or beyond the memory's element count (rule R78: "An out-of-range access
  therefore has no defined behaviour"), raised by the meanings and fetches that log entry 9 names; the
  accesses of log entry 16 are carried out instead. Safe: no run reaches it, and the machine stops instead
  of taking a value. -/
  | indexOutOfRange (m : Space)
  /-- A repeat of a previous byte in a block in which no byte has been produced yet (`ch2` is 256, no
  byte, rule R43), raised by the `XC` step and by nothing else. Safe: no run reaches it. -/
  | noByteToRepeat
  deriving DecidableEq, Repr

/-- Why the model gives an instruction no meaning. -/
inductive Refusal
  /-- An instruction whose meaning is not written; no arm of `exec` answers with it. Safe. -/
  | notModelled (mnemonic : String)
  /-- `readBits(n)` with `n = 0` or `n > 32`, raised by the fetch of a field of that width: "the
  function is undefined there", treatment `refuse` (93_implementation_defined.md U14). Safe: no
  run reaches it. -/
  | readBitsWidth (n : Nat)
  deriving DecidableEq, Repr

/-- The seven states of the pull machine (10_state.md rule R23). -/
inductive PullState
  | startBlock | randA | randB | randC | noRandA | noRandB | noRandC
  deriving DecidableEq, Repr

/-- A host response (30_encoding.md rule R102). -/
inductive Response
  /-- `OK`: completed, returns nothing. -/
  | ok
  /-- `BYTE(b)`: one decoded byte. -/
  | byte (b : Byte)
  /-- `EOD`: the end-of-data signal. -/
  | eod
  /-- `DATA(bs)`: the result of READ_BULK. -/
  | data (bs : List Byte)
  /-- `ERR(code)`: a fault. -/
  | err (f : FaultCode)
  deriving DecidableEq, Repr

/-- The position in the pseudocode inside the command in progress (47_arithmetic_control_datapath.md
rule R282): which element of the stream is due, or that a pull step is due. `idle` is at rest: no
command is in progress. -/
inductive Phase
  | idle
  | streamHdr
  | pull
  | blockCrc
  | randomised
  | origPtr
  | inUse16
  | inUseRow
  | nGroups
  | nSelectors
  | selector
  | startLen
  | lenDelta
  | symbol
  | combinedCrc
  deriving DecidableEq, Repr

/-- A READ_BULK in progress: the bytes wanted and the list gathered so far (rule R153). -/
structure Bulk where
  wanted : Nat
  got : List Byte
  deriving DecidableEq, Repr

/-- The CRC registers (rule R26) and the accumulator of the checksum unit (rule R27). -/
structure CrcRegs where
  storedBlockCRC : Word
  computedBlockCRC : Word
  computedCombinedCRC : Word
  storedCombinedCRC : Word
  crcAcc : Word
  deriving DecidableEq, Repr

/-- The block header registers (rules R28, R29). -/
structure BlockHeader where
  blockRandomised : Bool
  origPtr : Nat
  deriving DecidableEq, Repr

/-- The alphabet, selectors and coding tables of a block (rules R31 to R37), with the transient storage
of the table builder (43_huffman_table_builder.md rule R208) and its loop counters. -/
structure TableRegs where
  /-- `used16`: bit `i`, first bit read first, is group `i` (rules R200, R208). -/
  used16 : BitVec 16
  /-- Loop counter `i` of `ReadInUse` (rule R200): the row due or read last. -/
  rowI : Nat
  /-- `inUse[256]` (rule R33). -/
  inUse : Mem Bool
  /-- `seqToUnseq[256]` (rule R34). -/
  seqToUnseq : Mem Byte
  /-- `unseqToSeq[256]` (rule R34). -/
  unseqToSeq : Mem Byte
  /-- `nInUse` (rule R31). -/
  nInUse : Nat
  /-- `nGroups` (rule R32). -/
  nGroups : Nat
  /-- `nSelectors` (rule R32). -/
  nSelectors : Nat
  /-- `selPos[6]` (rule R35): a list of six table indices. -/
  selPos : List Nat
  /-- Loop counter `i` of `ReadSelectors` (rule R203). -/
  selI : Nat
  /-- `j` of `ReadSelectors` (rule R208). -/
  selJ : Nat
  /-- `tmp` of `ReadSelectors` (rule R208). -/
  selTmp : Nat
  /-- `selector[SEL_CAP]` (rule R35). -/
  selector : Mem Nat
  /-- `curr`: the current code length (rules R204, R208). -/
  curr : Nat
  /-- Loop counter `t` of `ReadCodeLengths` (rule R204). -/
  lenT : Nat
  /-- Loop counter `i` of `ReadCodeLengths` (rule R204). -/
  lenI : Nat
  /-- `len`, `minLen`, `maxLen`, `limit`, `base`, `perm` of tables 0..5 (rules R36, R37). -/
  huff : Mem HuffTable
  /-- `cnt[22]` (rule R208). -/
  cnt : Mem Nat
  /-- `vec` (rule R208). -/
  vec : Nat
  /-- `cum` (rule R208). -/
  cum : Nat
  /-- `pp` (rule R208). -/
  pp : Nat
  deriving DecidableEq, Repr

/-- The move-to-front list and the decode cursors (rules R38, R42). -/
structure DecodeRegs where
  /-- `yy[256]`: compact symbol numbers, front first (rule R38). -/
  yy : List Byte
  symIdx : Nat
  zn : Nat
  zvec : Nat
  runS : Nat
  runN : Nat
  deriving DecidableEq, Repr

/-- The block buffer and its tables (rules R30, R39, R40, R41). -/
structure BlockBuffer where
  /-- `last`: the highest valid index, -1 of an empty block (rule R30). -/
  last : Int
  /-- `unzftab[256]` (rule R39). -/
  unzftab : Mem Nat
  /-- `cftab[257]` (rule R39). -/
  cftab : Mem Nat
  /-- `ll8[MAX_CAPACITY]` (rule R40). -/
  ll8 : Mem Byte
  /-- `tt[MAX_CAPACITY]` (rule R41). -/
  tt : Mem Nat
  deriving DecidableEq, Repr

/-- The registers of the pull machine and of the de-randomisation unit (rules R43, R44). `ch2` and
`chPrev` hold a byte or, as `none`, the value 256 (no byte yet in this block). -/
structure PullRegs where
  tPos : Nat
  i2 : Nat
  ch2 : Option Byte
  chPrev : Option Byte
  count : Nat
  z : Nat
  j2 : Nat
  rNToGo : Nat
  rTPos : Nat
  /-- The answer of `RandStep()` for the byte about to be taken from the walk, once it has been called
  for it (rule R267); the model's own latch between two steps of one READ. -/
  randBit : Option Bool
  deriving DecidableEq, Repr

end Sys2Proof.Machine

namespace Sys2Proof.Machine

/-- The state of BZ2D and of the two collaborators and the host port a model must carry (rule R20). -/
structure State where
  /-- The host commands issued and not begun yet, oldest first (rule R150); the environment's. -/
  cmds : List CmdWord
  /-- The responses given, oldest first (30_encoding.md rule R102, 00_scope.md rule R10). -/
  responses : List Response
  /-- The position inside the command in progress (rule R282). -/
  phase : Phase
  /-- The READ_BULK in progress, if the command in progress is one (rule R153). -/
  bulk : Option Bulk
  /-- `bsBuff`, `bsLive`, `SRC`, `srcPos` (rules R21, R45). -/
  cur : BitCursor
  /-- `srcClosed` (rule R45). -/
  srcClosed : Bool
  /-- `blockClass` (rule R22). -/
  blockClass : Nat
  /-- `ps` (rule R23). -/
  ps : PullState
  /-- `streamEnd` (rule R24). -/
  streamEnd : Bool
  /-- `started` (rule R24). -/
  started : Bool
  /-- `closed` (rule R24). -/
  closed : Bool
  /-- `fault` (rule R25): `none` is code 0. -/
  fault : Option FaultCode
  /-- The CRC registers (rules R26, R27). -/
  crc : CrcRegs
  /-- The block header registers (rules R28, R29). -/
  hdr : BlockHeader
  /-- The tables of the block (rules R31 to R37, R208). -/
  tab : TableRegs
  /-- The decode cursors (rules R38, R42). -/
  dec : DecodeRegs
  /-- The block buffer (rules R30, R39 to R41). -/
  blk : BlockBuffer
  /-- The pull machine's registers (rules R43, R44). -/
  pull : PullRegs
  deriving DecidableEq, Repr

/-- The machine right after reset, with an empty byte source and no command pending (rules R46, R350).
The values the spec states: `bsLive`, `ps`, `started`, `streamEnd`, `closed`, `fault`,
`computedCombinedCRC`, `srcPos`, `srcClosed`. Every other value is the model's (notes/assumptions/1.md,
DESIGN CHOICE: "unspecified" in rule R46). -/
def State.reset : State where
  cmds := []
  responses := []
  phase := .idle
  bulk := none
  cur := { src := [], srcPos := 0, bsBuff := 0, bsLive := 0 }
  srcClosed := false
  blockClass := 0
  ps := .startBlock
  streamEnd := false
  started := false
  closed := false
  fault := none
  crc := { storedBlockCRC := 0, computedBlockCRC := 0, computedCombinedCRC := config.combinedInit
           storedCombinedCRC := 0, crcAcc := 0 }
  hdr := { blockRandomised := false, origPtr := 0 }
  tab := { used16 := 0, rowI := 0, inUse := [], seqToUnseq := [], unseqToSeq := [], nInUse := 0
           nGroups := 0, nSelectors := 0, selPos := List.replicate nGroupsMax 0, selI := 0, selJ := 0
           selTmp := 0, selector := [], curr := 0, lenT := 0, lenI := 0, huff := [], cnt := [], vec := 0
           cum := 0, pp := 0 }
  dec := { yy := List.replicate byteValues 0, symIdx := 0, zn := 0, zvec := 0, runS := 0, runN := 0 }
  blk := { last := 0, unzftab := [], cftab := [], ll8 := [], tt := [] }
  pull := { tPos := 0, i2 := 0, ch2 := none, chPrev := none, count := 0, z := 0, j2 := 0, rNToGo := 0
            rTPos := 0, randBit := none }

end Sys2Proof.Machine
end

