-- ==== Sys2Proof/Machine/Ops.lean ====
section
/-! DEFINITION. The named operations every meaning is built from: responding, raising a fault (the one
shared operation of 60_exceptions.md rule R310), attaching a byte source (reset, 70_reset_and_hazards.md
rule R350), and the checksum port (46_checksum_unit.md rule R300). -/

namespace Sys2Proof.Machine

/-- The outcome of a meaning. -/
abbrev Result := Host.Outcome State Fault Refusal

/-- A situation with no defined behaviour, as the outcome that names it. -/
def Stop.result : Stop → Result
  | .index m => .fault (.indexOutOfRange m)
  | .bitCount n => .refused (.readBitsWidth n)

/-- A part of a command's pseudocode: it goes on, it has ended the command (by a response or a
`raise`), or it meets a situation with no defined behaviour. -/
inductive Act
  | go (s : State)
  | ended (s : State)
  | stop (u : Stop)

/-- Sequence: the second part runs only if the first goes on (rule R310: no later line is executed). -/
def Act.andThen (a : Act) (k : State → Act) : Act :=
  match a with
  | .go s => k s
  | .ended s => .ended s
  | .stop u => .stop u

/-- The outcome of a part as a step. -/
def Act.result : Act → Result
  | .go s => .next s
  | .ended s => .next s
  | .stop u => Stop.result u

namespace State

/-- `respond X`: the current command ends with the response `X` (00_scope.md rule R12). -/
def respond (r : Response) (s : State) : State :=
  { s with responses := s.responses ++ [r], phase := .idle, bulk := none }

/-- `raise F` (rule R310): the fault is latched, the response is `ERR(code(F))`, the command stops. The
rest of the state stays as it was at the `raise`, as rule R315 allows (notes/assumptions/4.md). -/
def raise (f : FaultCode) (s : State) : State := ({ s with fault := some f }).respond (.err f)

/-- `respond BYTE(b)` of the body of READ: the response of a READ; inside a READ_BULK the byte is
gathered and the next READ begins unless the list has the length wanted (rule R153). -/
def respondByte (b : Byte) (s : State) : State :=
  match s.bulk with
  | none => s.respond (.byte b)
  | some k =>
    if (k.got ++ [b]).length < k.wanted then
      { s with phase := .pull, bulk := some { k with got := k.got ++ [b] } }
    else s.respond (.data (k.got ++ [b]))

/-- `respond EOD` of the body of READ: inside a READ_BULK the response is what was gathered (rule R153). -/
def respondEod (s : State) : State :=
  match s.bulk with
  | none => s.respond .eod
  | some k => s.respond (.data k.got)

/-- `CrcReset()` (rule R300). -/
def crcReset (s : State) (cfg : Config := config) : State :=
  { s with crc := { s.crc with crcAcc := cfg.crcInit } }

/-- `CrcUpdate(b)` (rule R300). -/
def crcUpdate (b : Byte) (s : State) (cfg : Config := config) : State :=
  { s with crc := { s.crc with crcAcc := cfg.crcStep s.crc.crcAcc b } }

/-- `CrcValue()` (rule R300). -/
def crcValue (s : State) (cfg : Config := config) : Word := cfg.crcFinal s.crc.crcAcc

/-- `Output(b)` (45_inverse_bwt_output.md rule R272): the checksum is updated, then the byte is given. -/
def output (b : Byte) (s : State) (cfg : Config := config) : State :=
  (s.crcUpdate b cfg).respondByte b

/-- Reset with a new byte source attached at its first byte, and the commands the host is going to issue
(rules R350, R351). An operation of the environment, no step. -/
def resetWith (src : List Byte) (cmds : List CmdWord) (cfg : Config := config) : State :=
  { State.reset with
    cmds := cmds, cur := BitCursor.ofBytes src
    crc := { State.reset.crc with computedCombinedCRC := cfg.combinedInit } }

end State

/-- The code of a fault (rule R311). -/
def faultCode : FaultCode → Nat
  | .invalidStreamHeader => 1
  | .corruptBlockHeader => 2
  | .invalidHuffmanCode => 3
  | .symbolOutOfRange => 4
  | .blockOverrun => 5
  | .blockCrcMismatch => 6
  | .combinedCrcMismatch => 7
  | .unexpectedEndOfInput => 8
  | .unsupportedOperation => 9
  | .emptyAlphabet => 10
  | .groupCountOutOfRange => 11
  | .selectorCountOutOfRange => 12
  | .selectorIndexOutOfRange => 13
  | .codeLengthOutOfRange => 14
  | .selectorOverrun => 15
  | .origPtrOutOfRange => 16
  | .runCountMissing => 17
  | .hostProtocolViolation => 18

/-- The value of the 5-bit register `fault` (10_state.md rule R25). -/
def faultRegister : Option FaultCode → BitVec 5
  | none => 0
  | some f => BitVec.ofNat 5 (faultCode f)

/-- The number of a response kind (30_encoding.md rule R102). -/
def responseKind : Response → Nat
  | .ok => 0
  | .byte _ => 1
  | .eod => 2
  | .data _ => 3
  | .err _ => 4

/-- The 3-bit code of a pull state (10_state.md rule R23). -/
def pullCode : PullState → BitVec 3
  | .startBlock => 0
  | .randA => 1
  | .randB => 2
  | .randC => 3
  | .noRandA => 4
  | .noRandB => 5
  | .noRandC => 6

end Sys2Proof.Machine
end

