-- ==== Sys2Proof/Machine/Flags.lean ====
section
/-! DEFINITION. The flags of BZ2D (10_state.md rules R24, R50): the entry checks every host command
makes on `fault`, `closed` and `started` before its body runs (40_host_commands.md rule R150). BZ2D has
no arithmetic condition codes (rule R50). -/

namespace Sys2Proof.Machine

/-- WRITE, SEEK, SET_LENGTH, GET_LENGTH: the operations the port does not support (rule R150). -/
def unsupported : HostOp → Bool
  | .write | .seek | .setLength | .getLength => true
  | .start | .read | .readBulk | .close => false

/-- What the entry checks decide (rule R150). -/
inductive Entry
  /-- A fault is latched: respond `ERR(fault)`, no state change. -/
  | sticky (f : FaultCode)
  /-- The command is raised a fault. -/
  | violation (f : FaultCode)
  /-- The body of the command runs. -/
  | run
  deriving DecidableEq, Repr

/-- The entry checks, in the order of rule R150. -/
def entryCheck (op : HostOp) (s : State) : Entry :=
  if op = .close then .run
  else
    match s.fault with
    | some f => .sticky f
    | none =>
      if s.closed then .violation .hostProtocolViolation
      else if unsupported op then .violation .unsupportedOperation
      else if op = .start ∧ s.started then .violation .hostProtocolViolation
      else if (op = .read ∨ op = .readBulk) ∧ ¬ s.started then .violation .hostProtocolViolation
      else .run

/-- A host command: its entry checks, then its body (rule R150). -/
def State.enter (op : HostOp) (s : State) (body : State → State) : Result :=
  match entryCheck op s with
  | .sticky f => .next (s.respond (.err f))
  | .violation f => .next (s.raise f)
  | .run => .next (body s)

end Sys2Proof.Machine
end

