-- ==== Sys2Proof/Machine/Operands.lean ====
section
/-! DEFINITION. The operand forms of BZ2D (47_arithmetic_control_datapath.md rule R283): the derived
quantities, the element due in the stream, the alphabet's loops, the byte the walk is about to give
and its mask bit. -/

namespace Sys2Proof.Machine

/-- `capacity = 100000 * blockClass` (10_state.md rule R22). -/
def State.capacity (s : State) : Nat := baseBlock * s.blockClass

/-- `alphaSize = nInUse + 2` (10_state.md rule R31). -/
def State.alphaSize (s : State) : Nat := s.tab.nInUse + 2

/-- The place in the stream grammar at which the cursor stands, from the position in the pseudocode;
`none` where no fixed element is due (at rest, or a pull step that is not in `StartBlock`). -/
def State.ctx (s : State) : Option Ctx :=
  match s.phase with
  | .idle => none
  | .streamHdr => some .streamHdr
  | .pull => if s.ps = .startBlock then some .marker else none
  | .blockCrc => some .blockCrc
  | .randomised => some .randomised
  | .origPtr => some .origPtr
  | .inUse16 => some .inUse16
  | .inUseRow => some .inUseRow
  | .nGroups => some .nGroups
  | .nSelectors => some .nSelectors
  | .selector => some (.selector s.tab.nGroups)
  | .startLen => some .startLen
  | .lenDelta => some .lenDelta
  | .symbol =>
    some (.symbol (s.tab.huff.read (s.tab.selector.read (s.dec.symIdx / gSize))) s.tab.nInUse)
  | .combinedCrc => some .combinedCrc

/-- `v` moved to the front of a list from position `r`, the entries before it one place on: the rotation
of rules R203 and R235. `none` if there is no position `r`. -/
def moveToFront {α : Type} (l : List α) (r : Nat) : Option (α × List α) :=
  l[r]?.map fun v => (v, v :: l.eraseIdx r)

/-- The family of the block: `Rand*` or `NoRand*` (45_inverse_bwt_output.md rule R264). -/
def PullState.isRand : PullState → Bool
  | .randA | .randB | .randC => true
  | .startBlock | .noRandA | .noRandB | .noRandC => false

/-- `XA` of the current family (rule R264). -/
def PullState.toA (p : PullState) : PullState := if p.isRand then .randA else .noRandA
/-- `XB` of the current family (rule R264). -/
def PullState.toB (p : PullState) : PullState := if p.isRand then .randB else .noRandB
/-- `XC` of the current family (rule R264). -/
def PullState.toC (p : PullState) : PullState := if p.isRand then .randC else .noRandC

/-- The registers `rNToGo` and `rTPos` when `RandStep()` decrements: reloaded from the table if the
count-down is 0, the table index wrapping at 512 (rule R267). -/
def randReload (rNToGo rTPos : Nat) (cfg : Config := config) : Nat × Nat :=
  if rNToGo = 0 then
    (cfg.randTable.getD rTPos 0, if rTPos + 1 = randSize then 0 else rTPos + 1)
  else (rNToGo, rTPos)

/-- The answer of `RandStep()`: 1 exactly when the count-down, decremented, is 1 (rule R267). -/
def randBitOf (rNToGo rTPos : Nat) (cfg : Config := config) : Bool :=
  (randReload rNToGo rTPos cfg).1 - 1 = 1

/-- The mask bit of the byte being taken from the walk: the answer of `RandStep()` in the `Rand*`
family, 0 in the other (rules R266, R269). -/
def State.maskBit (s : State) : Bool := s.ps.isRand && (s.pull.randBit = some true)

/-- `RandStep()` has still to be called for the byte about to be taken (rule R267). -/
def State.maskDue (s : State) : Bool := s.ps.isRand && s.pull.randBit.isNone

/-- `c <- ll8[tPos]`, unmasked (rules R266, R268, R269). -/
def State.walkByte (s : State) : Byte := unmask s.maskBit (s.blk.ll8.read s.pull.tPos)

/-- `tPos <- tt[tPos]; i2 <- i2 + 1`: one step of the walk (rules R266, R269, R274). -/
def State.advanceWalk (s : State) : State :=
  { s with pull := { s.pull with
      tPos := s.blk.tt.read s.pull.tPos, i2 := s.pull.i2 + 1, randBit := none } }

end Sys2Proof.Machine
end

