-- ==== Sys2Proof/Machine/BlockContent.lean ====
section
/-! DEFINITION. The meanings of the block-content elements: a data byte, the count byte of a run, the
mask bit of a randomised block (45_inverse_bwt_output.md rules R266 to R270). -/

namespace Sys2Proof.Machine

/-- LITERAL (rules R266, R268): the first branch of `StepA`: the byte `v` of the walk becomes `ch2`, the
walk moves on, the next pull step is `XB`, the byte is given. -/
def execLiteral (v : Byte) (s : State) (cfg : Config := config) : Result :=
  if maxCapacity ≤ s.pull.tPos then .fault (.indexOutOfRange .tt)
  else
    let p := s.pull
    let s := s.advanceWalk
    .next (({ s with
      pull := { s.pull with chPrev := p.ch2, ch2 := some v }, ps := s.ps.toB }).output v cfg)

/-- RUNCOUNT (rules R269, R270): the fourth equal byte has been seen; the byte `c` of the walk is the
repeat count, not given to the host, and the next pull steps are `XC`. -/
def execRunCount (c : Byte) (s : State) : Result :=
  if maxCapacity ≤ s.pull.tPos then .fault (.indexOutOfRange .tt)
  else
    let s := s.advanceWalk
    .next { s with
      pull := { s.pull with count := s.pull.count + 1, z := c.toNat, j2 := 0 }, ps := s.ps.toC }

/-- RANDMASK (rule R267): one call of `RandStep()`: the count-down is reloaded if it is 0, decremented,
and the answer `r` is the mask bit of the next byte of the walk. -/
def execRandMask (r : Bool) (s : State) (cfg : Config := config) : Result :=
  if s.pull.rNToGo = 0 ∧ randSize ≤ s.pull.rTPos then .fault (.indexOutOfRange .randTable)
  else
    let n := randReload s.pull.rNToGo s.pull.rTPos cfg
    .next { s with pull := { s.pull with rNToGo := n.1 - 1, rTPos := n.2, randBit := some r } }

end Sys2Proof.Machine
end

