-- ==== Sys2Proof/Machine/CodingTables.lean ====
section
/-! DEFINITION. The meanings of the elements of the table section: in-use bitmap, counts, selectors, code
lengths, and the building of the decode tables after the last of them (43_huffman_table_builder.md rules
R200 to R206). -/

namespace Sys2Proof.Machine

/-- `inUse[16*g + j] <- row[j]` for `j` in 0..15, first bit read first (rule R200). -/
def writeRow (g : Nat) (row : BitVec 16) (inUse : Mem Bool) : Mem Bool :=
  inUse.writeList (16 * g) ((List.range 16).map row.getMsbD)

/-- The byte values marked in use, in increasing order (rule R201). -/
def usedBytes (inUse : Mem Bool) : List Byte :=
  ((List.range byteValues).filter fun b => inUse.read b).map (BitVec.ofNat 8)

/-- `unseqToSeq[b] <- rank` for the bytes of a list, ranks counted from `r` (rule R201). -/
def writeRanks : Mem Byte → Nat → List Byte → Mem Byte
  | m, _, [] => m
  | m, r, b :: bs => writeRanks (m.write b.toNat (BitVec.ofNat 8 r)) (r + 1) bs

/-- `MakeMaps()` (rule R201); NGROUPS is next unless no byte value is in use. -/
def makeMaps (s : State) : State :=
  let bs := usedBytes s.tab.inUse
  let s := { s with tab := { s.tab with
    nInUse := bs.length, seqToUnseq := s.tab.seqToUnseq.writeList 0 bs
    unseqToSeq := writeRanks s.tab.unseqToSeq 0 bs } }
  if bs = [] then s.raise .emptyAlphabet else { s with phase := .nGroups }

/-- The first group of `g..15` whose row is present (rule R200). -/
def nextGroup (used16 : BitVec 16) (g : Nat) : Option Nat :=
  (List.range' g (16 - g)).find? used16.getMsbD

/-- The loop of `ReadInUse()` over the groups from `g` on: the next row present is due, or the bitmap is
complete and `MakeMaps()` follows (rules R200, R201). -/
def rowsFrom (g : Nat) (s : State) : State :=
  match nextGroup s.tab.used16 g with
  | some g' => { s with tab := { s.tab with rowI := g' }, phase := .inUseRow }
  | none => makeMaps s

/-- INUSE16 (rule R200): the group map is kept, every `inUse[b]` is cleared, the first row present is
due. -/
def execInUse16 (u : BitVec 16) (s : State) : Result :=
  .next (rowsFrom 0 { s with tab := { s.tab with used16 := u, inUse := [] } })

/-- INUSE_ROW (rule R200): the row of group `rowI`; the next row present is due. DESIGN CHOICE
(notes/assumptions/16.md): with a `rowI` above 15, which no run reaches, the elements beyond `inUse[255]` are
written and the step goes on; rule R78 defines nothing there. -/
def execInUseRow (v : BitVec 16) (s : State) : Result :=
  .next (rowsFrom (s.tab.rowI + 1)
    { s with tab := { s.tab with inUse := writeRow s.tab.rowI v s.tab.inUse } })

/-- NGROUPS (rule R202): kept, then checked against 2..6; NSELECTORS is next. -/
def execNGroups (g : BitVec 3) (s : State) : Result :=
  let s := { s with tab := { s.tab with nGroups := g.toNat } }
  .next (if g.toNat < 2 ∨ nGroupsMax < g.toNat then s.raise .groupCountOutOfRange
    else { s with phase := .nSelectors })

/-- NSELECTORS (rule R202): kept, then checked against 1..SEL_CAP; then `ReadSelectors()` begins, its
list the identity over 0..nGroups-1 (rule R203). DESIGN CHOICE (notes/assumptions/16.md): with an `nGroups` above
6, which no run reaches here, the list is written beyond its six elements; rule R78 defines nothing there. -/
def execNSelectors (n : BitVec 15) (s : State) (cfg : Config := config) : Result :=
  let s := { s with tab := { s.tab with nSelectors := n.toNat } }
  .next (if n.toNat < 1 ∨ cfg.selCap < n.toNat then s.raise .selectorCountOutOfRange
    else { s with
      tab := { s.tab with
        selPos := List.range s.tab.nGroups ++ s.tab.selPos.drop s.tab.nGroups, selI := 0 }
      phase := .selector })

/-- SELECTOR (rule R203): the table at position `j` of the list moves to its front and is the selector of
group `selI`; after the last selector the code lengths are next (rule R204). -/
def execSelector (j : Nat) (s : State) (cfg : Config := config) : Result :=
  let s := { s with tab := { s.tab with selJ := j } }
  if s.tab.nGroups ≤ j then .next (s.raise .selectorIndexOutOfRange)
  else if cfg.selCap ≤ s.tab.selI then .fault (.indexOutOfRange .selector)
  else
    match moveToFront s.tab.selPos j with
    | none => .fault (.indexOutOfRange .selPos)
    | some (tmp, list) =>
      let s := { s with tab := { s.tab with
        selTmp := tmp, selPos := list, selector := s.tab.selector.write s.tab.selI tmp
        selI := s.tab.selI + 1 } }
      .next (if s.tab.selI < s.tab.nSelectors then { s with phase := .selector }
        else { s with tab := { s.tab with lenT := 0 }, phase := .startLen })

/-- STARTLEN (rule R204): `curr <- readBits(5)`; the deltas of symbol 0 follow. -/
def execStartLen (l : BitVec 5) (s : State) : Result :=
  .next { s with tab := { s.tab with curr := l.toNat, lenI := 0 }, phase := .lenDelta }

/-- LEN_INC (rule R204): `curr <- curr + 1`. -/
def execLenInc (s : State) : Result :=
  .next { s with tab := { s.tab with curr := s.tab.curr + 1 }, phase := .lenDelta }

/-- LEN_DEC (rule R204): `curr <- curr - 1`. -/
def execLenDec (s : State) : Result :=
  .next { s with tab := { s.tab with curr := s.tab.curr - 1 }, phase := .lenDelta }

/-- `BuildPerm(t)` and `BuildLimitBase(t)` for the tables of a list (rules R205, R206). A table number above 5,
which no run reaches, is built like any other (notes/assumptions/16.md, DESIGN CHOICE). -/
def buildTables (alphaSize : Nat) (ts : List Nat) (m : Mem HuffTable) : Mem HuffTable :=
  ts.foldl (fun m t => m.write t ((m.read t).build alphaSize)) m

/-- The table registers after every table of the block is built: `BuildPerm(t)`, `BuildLimitBase(t)` for
`t` in 0..nGroups-1 (rules R205, R206), the transient registers as the last table leaves them (rule R208). -/
def builtTables (alphaSize : Nat) (tab : TableRegs) : TableRegs :=
  let huff := buildTables alphaSize (List.range tab.nGroups) tab.huff
  let ls := (huff.read (tab.nGroups - 1)).lens alphaSize
  let r := limitBaseOf ls (leastOf ls) (greatestOf ls)
  { tab with
    huff := huff, cnt := codeCounts ls, vec := r.vec, cum := r.cum
    pp := (symbolsByLength ls (leastOf ls) (greatestOf ls)).length }

/-- `InitDecode()` (44_mtf_rle2_decoder.md rule R230); the symbols are next. -/
def initDecode (s : State) : State :=
  { s with
    dec := { s.dec with
      yy := (List.range byteValues).map (BitVec.ofNat 8), symIdx := 0, runS := 0, runN := 1 }
    blk := { s.blk with unzftab := [], last := -1 }
    phase := .symbol }

/-- The end of `ReadTables()`: every table is built (rules R205, R206), then `DecodeSymbols()` begins. -/
def finishTables (s : State) : State := initDecode { s with tab := builtTables s.alphaSize s.tab }

/-- LEN_STOP (rule R204): `len[t][i] <- curr`; then the next symbol, the next table, or the end of the
table section. -/
def execLenStop (s : State) : Result :=
  if nGroupsMax ≤ s.tab.lenT ∨ maxAlpha ≤ s.tab.lenI then .fault (.indexOutOfRange .len)
  else
    let h := s.tab.huff.read s.tab.lenT
    let s := { s with tab := { s.tab with
      huff := s.tab.huff.write s.tab.lenT { h with len := h.len.write s.tab.lenI s.tab.curr }
      lenI := s.tab.lenI + 1 } }
    .next (if s.tab.lenI < s.alphaSize then { s with phase := .lenDelta }
      else
        let s := { s with tab := { s.tab with lenT := s.tab.lenT + 1 } }
        if s.tab.lenT < s.tab.nGroups then { s with phase := .startLen } else finishTables s)

end Sys2Proof.Machine
end

