-- ==== Sys2Proof/Machine/HostCommands.lean ====
section
/-! DEFINITION. The meanings of the eight host commands (40_host_commands.md rules R150 to R158). START,
READ and READ_BULK begin a command whose pseudocode the following steps carry out, element by element
(the position is `phase`, rule R282); the command ends with its response. -/

namespace Sys2Proof.Machine

/-- START (rule R151): `ParseStreamHeader()` is due; `arg` is ignored. `blockClass`, `started` and the
response `OK` are the work of the header element (`execStreamHdr`). -/
def execStart (_arg : Word) (s : State) : Result :=
  s.enter .start fun s => { s with phase := .streamHdr }

/-- READ (rule R152): `EOD` once the stream has ended; else the loop of pull steps is entered. -/
def execRead (_arg : Word) (s : State) : Result :=
  s.enter .read fun s => if s.streamEnd then s.respond .eod else { s with phase := .pull }

/-- READ_BULK(n) (rule R153): `n = 0` responds `DATA()` at once; the body of READ is repeated
otherwise, and gives `DATA()` at once when the stream has ended. -/
def execReadBulk (n : Word) (s : State) : Result :=
  s.enter .readBulk fun s =>
    if n.toNat = 0 ∨ s.streamEnd then s.respond (.data [])
    else { s with phase := .pull, bulk := some { wanted := n.toNat, got := [] } }

/-- WRITE (rule R154): `raise UnsupportedOperation`, by the entry check. -/
def execWrite (_arg : Word) (s : State) : Result :=
  s.enter .write fun s => s.raise .unsupportedOperation

/-- SEEK (rule R155): `raise UnsupportedOperation`, by the entry check. -/
def execSeek (_arg : Word) (s : State) : Result :=
  s.enter .seek fun s => s.raise .unsupportedOperation

/-- SET_LENGTH (rule R156): `raise UnsupportedOperation`, by the entry check. -/
def execSetLength (_arg : Word) (s : State) : Result :=
  s.enter .setLength fun s => s.raise .unsupportedOperation

/-- GET_LENGTH (rule R157): `raise UnsupportedOperation`, by the entry check. -/
def execGetLength (_arg : Word) (s : State) : Result :=
  s.enter .getLength fun s => s.raise .unsupportedOperation

/-- CLOSE (rule R158): the byte source is closed if it is not yet, `closed` is set, the response is `OK`;
`fault` is not cleared. -/
def execClose (_arg : Word) (s : State) : Result :=
  s.enter .close fun s => ({ s with srcClosed := true, closed := true }).respond .ok

end Sys2Proof.Machine
end

