-- ==== Sys2Proof/Machine/StreamFields.lean ====
section
/-! DEFINITION. The meanings of the stream header, the markers, the block header fields and the trailer
(42_header_block_parser.md rules R180 to R185). -/

namespace Sys2Proof.Machine

/-- STREAM_HDR (rule R180, and the end of START, rule R151): `blockClass <- h3 - DIGIT_1 + 1`,
`started <- 1`, response `OK`. -/
def execStreamHdr (h3 : Byte) (s : State) (cfg : Config := config) : Result :=
  .next (({ s with blockClass := h3.toNat - cfg.digit1.toNat + 1, started := true }).respond .ok)

/-- BLOCK_MAGIC (rules R181, R182): `BeginBlock()`, whose first field is the block CRC. -/
def execBlockMagic (s : State) : Result := .next { s with phase := .blockCrc }

/-- END_MAGIC (rules R181, R183): `EndOfStream()`, which reads the combined CRC. -/
def execEndMagic (s : State) : Result := .next { s with phase := .combinedCrc }

/-- BLOCK_CRC (rule R182): `storedBlockCRC <- readBits(32)`; the randomisation flag is next. -/
def execBlockCrc (c : Word) (s : State) : Result :=
  .next { s with crc := { s.crc with storedBlockCRC := c }, phase := .randomised }

/-- RANDOMISED (rule R182): `blockRandomised <- readBits(1)`; ORIG_PTR is next. -/
def execRandomised (r : Bool) (s : State) : Result :=
  .next { s with hdr := { s.hdr with blockRandomised := r }, phase := .origPtr }

/-- ORIG_PTR (rule R185): `origPtr <- readBits(ORIGPTR_BITS)`, not checked here; the in-use bitmap is
next. -/
def execOrigPtr (p : Nat) (s : State) : Result :=
  .next { s with hdr := { s.hdr with origPtr := p }, phase := .inUse16 }

/-- COMBINED_CRC (rule R183): the stored combined CRC is compared with the computed one; if they are
equal `streamEnd <- 1` and the response is `EOD`. -/
def execCombinedCrc (c : Word) (s : State) : Result :=
  let s := { s with crc := { s.crc with storedCombinedCRC := c } }
  .next (if c = s.crc.computedCombinedCRC then ({ s with streamEnd := true }).respondEod
    else s.raise .combinedCrcMismatch)

end Sys2Proof.Machine
end

