-- ==== Sys2Proof/Machine/Symbols.lean ====
section
/-! DEFINITION. The meanings of the four symbols (44_mtf_rle2_decoder.md rules R233 to R237) and the
set-up of a block that follows EOB (45_inverse_bwt_output.md rules R260 to R263). -/

namespace Sys2Proof.Machine

/-- RUNA (rule R233): `runS <- runS + runN; runN <- 2 * runN`. -/
def execRunA (s : State) : Result :=
  .next { s with dec := { s.dec with runS := s.dec.runS + s.dec.runN, runN := 2 * s.dec.runN } }

/-- RUNB (rule R233): `runS <- runS + 2 * runN; runN <- 2 * runN`. -/
def execRunB (s : State) : Result :=
  .next { s with dec := { s.dec with runS := s.dec.runS + 2 * s.dec.runN, runN := 2 * s.dec.runN } }

/-- The block buffer with `n` more copies of `b` at its end (`Emit(b)`, `n` times, rule R237). -/
def BlockBuffer.append (n : Nat) (b : Byte) (m : BlockBuffer) : BlockBuffer :=
  { m with
    last := m.last + n, ll8 := Mem.writeRun n m.ll8 (m.last + 1).toNat b
    unzftab := m.unzftab.write b.toNat (m.unzftab.read b.toNat + n) }

/-- `Emit(b)` repeated `n` times (rule R237). The check is made once, before any write: "The fault
outcome is the same as a single test" (rule R234). DESIGN CHOICE (notes/assumptions/16.md): with a `last` below
-1, which no run reaches, the bytes are written from element 0 on; rule R78 defines nothing there. -/
def emitRun (n : Nat) (b : Byte) (s : State) : Act :=
  if (s.capacity : Int) < s.blk.last + 1 + n then .ended (s.raise .blockOverrun)
  else if (maxCapacity : Int) < s.blk.last + 1 + n then .stop (.index .ll8)
  else .go { s with blk := s.blk.append n b }

/-- `FlushRun()` (rule R234). -/
def flushRun (s : State) : Act :=
  if s.dec.runS = 0 then .go s
  else
    match s.dec.yy with
    | [] => .stop (.index .yy)
    | y :: _ =>
      (emitRun s.dec.runS (s.tab.seqToUnseq.read y.toNat) s).andThen fun s =>
        .go { s with dec := { s.dec with runS := 0, runN := 1 } }

/-- `MoveToFront(k)` (rule R235). -/
def moveSymbol (k : Nat) (s : State) : Act :=
  match moveToFront s.dec.yy (k - 1) with
  | none => .stop (.index .yy)
  | some (tmp, list) =>
    emitRun 1 (s.tab.seqToUnseq.read tmp.toNat) { s with dec := { s.dec with yy := list } }

/-- MTFV(k) (rules R235, R238): the pending run is flushed, then rank `k - 1` moves to the front and its
byte is emitted. -/
def execMtfv (k : Nat) (s : State) : Result := ((flushRun s).andThen (moveSymbol k)).result

/-- `CheckOrigPtr()` (rule R260). -/
def checkOrigPtr (s : State) : Act :=
  if s.blk.last + 1 ≤ (s.hdr.origPtr : Int) then .ended (s.raise .origPtrOutOfRange) else .go s

/-- The running sums of a list, from `a` on: `a`, `a + x0`, `a + x0 + x1`, ... -/
def runningSums : Nat → List Nat → List Nat
  | a, [] => [a]
  | a, x :: xs => a :: runningSums (a + x) xs

/-- `BuildCftab()` (rule R261): `cftab[0..256]`. -/
def cumulativeTable (unzftab : Mem Nat) : Mem Nat :=
  Mem.fromList 0 (runningSums 0 ((List.range byteValues).map unzftab.read))

/-- The loop of `BuildTT()` (rule R262) over the next `n` indices from `i` on; `none` if it would place
an index beyond the elements of `tt`. -/
def placeIndices (ll8 : Mem Byte) : Nat → Nat → Mem Nat → Mem Nat → Option (Mem Nat × Mem Nat)
  | 0, _, cftab, tt => some (cftab, tt)
  | n + 1, i, cftab, tt =>
    let c := (ll8.read i).toNat
    let d := cftab.read c
    if maxCapacity ≤ d then none else placeIndices ll8 n (i + 1) (cftab.write c (d + 1)) (tt.write d i)

/-- `BuildCftab()` then `BuildTT()` (rules R261, R262). -/
def buildTT (s : State) : Act :=
  if (maxCapacity : Int) < s.blk.last + 1 then .stop (.index .ll8)
  else
    match placeIndices s.blk.ll8 (s.blk.last + 1).toNat 0 (cumulativeTable s.blk.unzftab) s.blk.tt with
    | none => .stop (.index .tt)
    | some (cftab, tt) =>
      .go { s with
        blk := { s.blk with cftab := cftab, tt := tt }
        pull := { s.pull with tPos := tt.read s.hdr.origPtr } }

/-- `InitPull()` (rule R263): the registers of the pull machine and of the de-randomisation unit; the
next pull step is that of `XA`. -/
def initPull (s : State) : State :=
  { s with
    pull := { s.pull with
      count := 0, i2 := 0, ch2 := none, chPrev := none, z := 0, j2 := 0, rNToGo := 0, rTPos := 0
      randBit := none }
    ps := if s.hdr.blockRandomised then .randA else .noRandA
    phase := .pull }

/-- EOB (rule R236), and the end of `BeginBlock()` (rule R182): the pending run is flushed, the checksum
is reset, `SetupBlock()` is rules R260 to R263. -/
def execEob (s : State) (cfg : Config := config) : Result :=
  ((((flushRun s).andThen fun s => checkOrigPtr (s.crcReset cfg)).andThen buildTT).andThen fun s =>
    .go (initPull s)).result

end Sys2Proof.Machine
end

