-- ==== Sys2Proof/Machine/Dispatch.lean ====
section
/-! DEFINITION. One arm per instruction: the call of its meaning. -/

namespace Sys2Proof.Machine

def exec (i : Instr) (s : State) : Host.Outcome State Fault Refusal :=
  match i with
  -- host commands (40_host_commands.md)
  | .start arg => Sys2Proof.Machine.execStart arg s
  | .read arg => Sys2Proof.Machine.execRead arg s
  | .readBulk n => Sys2Proof.Machine.execReadBulk n s
  | .write arg => Sys2Proof.Machine.execWrite arg s
  | .seek arg => Sys2Proof.Machine.execSeek arg s
  | .setLength arg => Sys2Proof.Machine.execSetLength arg s
  | .getLength arg => Sys2Proof.Machine.execGetLength arg s
  | .close arg => Sys2Proof.Machine.execClose arg s
  -- stream fields (42_header_block_parser.md, 43_huffman_table_builder.md)
  | .streamHdr h3 => Sys2Proof.Machine.execStreamHdr h3 s
  | .blockMagic => Sys2Proof.Machine.execBlockMagic s
  | .endMagic => Sys2Proof.Machine.execEndMagic s
  | .blockCrc c => Sys2Proof.Machine.execBlockCrc c s
  | .randomised r => Sys2Proof.Machine.execRandomised r s
  | .origPtr p => Sys2Proof.Machine.execOrigPtr p s
  | .inUse16 u => Sys2Proof.Machine.execInUse16 u s
  | .inUseRow v => Sys2Proof.Machine.execInUseRow v s
  | .nGroups g => Sys2Proof.Machine.execNGroups g s
  | .nSelectors n => Sys2Proof.Machine.execNSelectors n s
  | .selector j => Sys2Proof.Machine.execSelector j s
  | .startLen l => Sys2Proof.Machine.execStartLen l s
  | .lenStop => Sys2Proof.Machine.execLenStop s
  | .lenInc => Sys2Proof.Machine.execLenInc s
  | .lenDec => Sys2Proof.Machine.execLenDec s
  | .combinedCrc c => Sys2Proof.Machine.execCombinedCrc c s
  -- symbols (44_mtf_rle2_decoder.md)
  | .runA => Sys2Proof.Machine.execRunA s
  | .runB => Sys2Proof.Machine.execRunB s
  | .mtfv k => Sys2Proof.Machine.execMtfv k s
  | .eob => Sys2Proof.Machine.execEob s
  -- block content (45_inverse_bwt_output.md)
  | .literal v => Sys2Proof.Machine.execLiteral v s
  | .runCount c => Sys2Proof.Machine.execRunCount c s
  | .randMask r => Sys2Proof.Machine.execRandMask r s

end Sys2Proof.Machine
end

