-- ==== Sys2Proof/Machine/Fetch.lean ====
section
/-! DEFINITION. What the next step is about: the host command, the stream element or the block-content
element due at the position in the pseudocode, read as the spec reads it; or a part of the pull machine
that takes no element (45_inverse_bwt_output.md rules R264 to R271). -/

namespace Sys2Proof.Machine

/-- What a step finds due. -/
inductive Fetched
  /-- An instruction, and the state after its bits have been consumed. -/
  | instr (i : Instr) (s : State)
  /-- No instruction: the step's whole effect. -/
  | done (s : State)
  /-- A situation with no defined behaviour. -/
  | stop (u : Stop)
  /-- A repeat of a byte that has not been produced (Fault.noByteToRepeat). -/
  | noByte

/-- An element of the stream at the cursor (30_encoding.md rule R104); what is no legal element raises
its fault (rule R116). DESIGN CHOICE (notes/assumptions/4.md): a fault moves the cursor and writes nothing
of the element, not even a part read before the `raise`; rule R315 gives that storage no value. -/
def fetchField (ctx : Ctx) (s : State) (cfg : Config := config) : Fetched :=
  match decode ctx s.cur cfg with
  | .ok i c => .instr i { s with cur := c }
  | .reject f c => .done (({ s with cur := c }).raise f)
  | .stop u => .stop u

/-- The host command due: at rest with no command pending the machine holds its state
(60_exceptions.md rule R346, 70_reset_and_hazards.md rule R350). -/
def fetchCommand (s : State) : Fetched :=
  match s.cmds with
  | [] => .done s
  | w :: ws => .instr (decodeCommand w) { s with cmds := ws }

/-- A length delta (43_huffman_table_builder.md rule R204): the range check stands before every
continuation bit. -/
def fetchLenDelta (s : State) (cfg : Config := config) : Fetched :=
  if s.tab.curr < 1 ∨ maxCodeLen < s.tab.curr then .done (s.raise .codeLengthOutOfRange)
  else fetchField .lenDelta s cfg

/-- A symbol: `SelectTable()` then `DecodeCode(t)` (44_mtf_rle2_decoder.md rules R231, R232). DESIGN CHOICE
(notes/assumptions/4.md): a fault in `DecodeCode` leaves `symIdx`, `zn` and `zvec` as they were before the
symbol, although the rules write them before the `raise`; rule R315 gives them no value after a fault. -/
def fetchSymbol (s : State) (cfg : Config := config) : Fetched :=
  let g := s.dec.symIdx / gSize
  if s.tab.nSelectors ≤ g then .done (s.raise .selectorOverrun)
  else if cfg.selCap ≤ g then .stop (.index .selector)
  else
    let t := s.tab.selector.read g
    if nGroupsMax ≤ t then .stop (.index .table)
    else
      match decodeCode (s.tab.huff.read t) s.alphaSize s.cur with
      | .ok sym zn zvec c =>
        .instr (symbolInstr s.tab.nInUse sym)
          { s with cur := c, dec := { s.dec with symIdx := s.dec.symIdx + 1, zn := zn, zvec := zvec } }
      | .reject f c => .done (({ s with cur := c }).raise f)
      | .stop u => .stop u

/-- A byte of the walk: in a randomised block its mask bit first (rule R267), then the byte itself as
the element `mk` (rules R266, R269). -/
def fetchWalk (mk : Byte → Instr) (s : State) (cfg : Config := config) : Fetched :=
  if s.maskDue then
    if s.pull.rNToGo = 0 ∧ randSize ≤ s.pull.rTPos then .stop (.index .randTable)
    else .instr (.randMask (randBitOf s.pull.rNToGo s.pull.rTPos cfg)) s
  else if maxCapacity ≤ s.pull.tPos then .stop (.index .ll8)
  else .instr (mk s.walkByte) s

/-- `EndBlock()` (rule R271). -/
def endBlock (s : State) (cfg : Config := config) : State :=
  let v := s.crcValue cfg
  let s := { s with crc := { s.crc with computedBlockCRC := v } }
  if v = s.crc.storedBlockCRC then
    { s with
      crc := { s.crc with computedCombinedCRC := rotl1 s.crc.computedCombinedCRC ^^^ v }
      ps := .startBlock }
  else s.raise .blockCrcMismatch

/-- `StepA` (rules R266, R268): a data byte of the walk, or the end of the block. -/
def fetchA (s : State) (cfg : Config := config) : Fetched :=
  if (s.pull.i2 : Int) ≤ s.blk.last then fetchWalk .literal s cfg else .done (endBlock s cfg)

/-- `StepB` (rule R269): run detection; the count byte of a run is taken from the walk. DESIGN CHOICE
(notes/assumptions/4.md): RunCountMissing leaves `count` as it was before the step; rule R315 gives it no
value after a fault. -/
def fetchB (s : State) (cfg : Config := config) : Fetched :=
  if s.pull.ch2 ≠ s.pull.chPrev then
    .done { s with pull := { s.pull with count := 1 }, ps := s.ps.toA }
  else if s.pull.count + 1 < runThreshold then
    .done { s with pull := { s.pull with count := s.pull.count + 1 }, ps := s.ps.toA }
  else if s.blk.last < (s.pull.i2 : Int) then .done (s.raise .runCountMissing)
  else fetchWalk .runCount s cfg

/-- `StepC` (rule R270): one more copy of the previous byte, or the end of the repeats. -/
def fetchC (s : State) (cfg : Config := config) : Fetched :=
  if s.pull.j2 < s.pull.z then
    match s.pull.ch2 with
    | some b => .done (({ s with pull := { s.pull with j2 := s.pull.j2 + 1 } }).output b cfg)
    | none => .noByte
  else .done { s with pull := { s.pull with count := 0 }, ps := s.ps.toA }

/-- `PullStep()` (rule R264). -/
def fetchPull (s : State) (cfg : Config := config) : Fetched :=
  match s.ps with
  | .startBlock => fetchField .marker s cfg
  | .randA | .noRandA => fetchA s cfg
  | .randB | .noRandB => fetchB s cfg
  | .randC | .noRandC => fetchC s cfg

/-- What is due, by the position in the pseudocode (rule R282). -/
def fetch (s : State) (cfg : Config := config) : Fetched :=
  match s.phase with
  | .idle => fetchCommand s
  | .streamHdr => fetchField .streamHdr s cfg
  | .pull => fetchPull s cfg
  | .blockCrc => fetchField .blockCrc s cfg
  | .randomised => fetchField .randomised s cfg
  | .origPtr => fetchField .origPtr s cfg
  | .inUse16 => fetchField .inUse16 s cfg
  | .inUseRow => fetchField .inUseRow s cfg
  | .nGroups => fetchField .nGroups s cfg
  | .nSelectors => fetchField .nSelectors s cfg
  | .selector => fetchField (.selector s.tab.nGroups) s cfg
  | .startLen => fetchField .startLen s cfg
  | .lenDelta => fetchLenDelta s cfg
  | .symbol => fetchSymbol s cfg
  | .combinedCrc => fetchField .combinedCrc s cfg

/-! ### Placing a bare word where the next step fetches (for `State.withFetchWord`) -/

/-- The byte source with `bs` as the next bytes to be delivered, and no live bit. -/
def BitCursor.place (bs : List Byte) (c : BitCursor) : BitCursor :=
  { c with
    src := c.src.take c.srcPos ++ List.replicate (c.srcPos - c.src.length) 0 ++ bs ++
      c.src.drop (c.srcPos + bs.length)
    bsLive := 0 }

/-- The position in the pseudocode at which an element of a context is due. -/
def State.atCtx (ctx : Ctx) (s : State) : State :=
  match ctx with
  | .streamHdr => { s with phase := .streamHdr }
  | .marker => { s with phase := .pull, ps := .startBlock }
  | .blockCrc => { s with phase := .blockCrc }
  | .randomised => { s with phase := .randomised }
  | .origPtr => { s with phase := .origPtr }
  | .inUse16 => { s with phase := .inUse16 }
  | .inUseRow => { s with phase := .inUseRow }
  | .nGroups => { s with phase := .nGroups }
  | .nSelectors => { s with phase := .nSelectors }
  | .selector _ => { s with phase := .selector }
  | .startLen => { s with phase := .startLen }
  | .lenDelta => { s with phase := .lenDelta }
  | .symbol _ _ => { s with phase := .symbol }
  | .combinedCrc => { s with phase := .combinedCrc }

/-- A state whose next pull step takes the byte `b` from the walk as a data byte of a block that is not
randomised: the walk stands at element 0, which holds `b`. -/
def State.atLiteral (b : Byte) (s : State) : State :=
  { s with
    phase := .pull, ps := .noRandA
    blk := { s.blk with last := max s.blk.last 0, ll8 := s.blk.ll8.write 0 b }
    pull := { s.pull with i2 := 0, tPos := 0 } }

/-- The bare word `w` of `nbits` bits placed where the next step fetches it, in the place of the grammar
in which `decodeTableWord` reads it (notes/assumptions/6.md). -/
def State.placeWord (s : State) (nbits w : Nat) : State :=
  if 35 ≤ nbits ∧ nbits ≤ 40 then { s with phase := .idle, cmds := BitVec.ofNat 35 w :: s.cmds }
  else
    match tableCtx nbits w with
    | some ctx => { s.atCtx ctx with cur := BitCursor.place (tableBytes nbits w) s.cur }
    | none => s.atLiteral (BitVec.ofNat 8 w)

end Sys2Proof.Machine
end

