-- ==== Sys2Proof/Machine/Step.lean ====
section
/-! DEFINITION. One step: the instruction that is due is fetched and run; a part of the pull machine that
takes no element is a step of its own. A command is the steps from rest to rest
(40_host_commands.md rule R150). -/

namespace Sys2Proof.Machine

/-- What was found due, carried out. -/
def Fetched.outcome : Fetched → Host.Outcome State Fault Refusal
  | .instr i s => exec i s
  | .done s => .next s
  | .stop u => Stop.result u
  | .noByte => .fault .noByteToRepeat

/-- One step of the machine. -/
def step (s : State) : Host.Outcome State Fault Refusal := (fetch s).outcome

/-- `s` with the bare word `w` of `nbits` bits stored where `step` fetches its next instruction. -/
def State.withFetchWord (s : State) (nbits w : Nat) : State := s.placeWord nbits w

end Sys2Proof.Machine
end

