-- ==== Sys2Proof/Safety.lean ====
section
/-! DEFINITION. The words the claims about BZ2D are made in: well-formed cursors and memories, the
invariant of a run (20_memory.md rule R78 and the ranges of 10_state.md), a command's run from rest to
rest, and the functions 45_inverse_bwt_output.md rules R274 and R275 and 44_mtf_rle2_decoder.md rule R233
describe the machine by. -/

namespace Sys2Proof

/-- The bit cursor between two `readBits` (10_state.md rules R21, R45; 41_bit_reader.md rule R172): at most
7 live bits, which are the last bits of the byte delivered last. -/
structure BitCursor.Wf (c : BitCursor) : Prop where
  live : c.bsLive ≤ 7
  pos : c.srcPos ≤ c.src.length
  tail : ∀ k < c.bsLive, ∃ b, c.src[c.srcPos - 1]? = some b ∧ 1 ≤ c.srcPos ∧
    c.bsBuff.getLsbD k = b.getLsbD k

/-- A set of code lengths with which codes can be assigned (43_huffman_table_builder.md rule R204): every
length is in 1..20. -/
def LegalLengths (lens : List Nat) : Prop := ∀ l ∈ lens, 1 ≤ l ∧ l ≤ maxCodeLen

/-- `sum over i of 2^(-len[i]) <= 1` (30_encoding.md rule R111), times `2^20`. -/
def KraftHolds (lens : List Nat) : Prop :=
  (lens.map fun l => 2 ^ (maxCodeLen - l)).sum ≤ 2 ^ maxCodeLen

/-- The value of a list of run digits (true is RUNB, weight 2; false is RUNA, weight 1), least significant
first: a bijective base-2 numeral (30_encoding.md rule R115). -/
def runValue : List Bool → Nat
  | [] => 0
  | d :: ds => (if d then 2 else 1) + 2 * runValue ds

/-- `expand` of rule R275 on the bytes still to be taken: the bytes emitted, and whether the content ends
where a count byte must follow. `prev` is the last data byte, `cnt` the length of its run (0..3). -/
def expandRuns : List Byte → Option Byte → Nat → List Byte × Bool
  | [], _, _ => ([], false)
  | v :: q, prev, cnt =>
    let cnt' := if some v = prev then cnt + 1 else 1
    if cnt' < runThreshold then
      let r := expandRuns q (some v) cnt'
      (v :: r.1, r.2)
    else
      match q with
      | [] => ([v], true)
      | c :: q' =>
        let r := expandRuns q' (some v) 0
        (v :: (List.replicate c.toNat v ++ r.1), r.2)

namespace Machine

/-- `P[m..]` of rule R274: the next `n` bytes of the walk from `t` (stored, not unmasked). -/
def walkBytes (b : BlockBuffer) : Nat → Nat → List Byte
  | 0, _ => []
  | n + 1, t => b.ll8.read t :: walkBytes b n (b.tt.read t)

/-- The answers of the next `n` calls of `RandStep()` from the registers `rNToGo`, `rTPos` (rule R267). -/
def maskBits : Nat → Nat → Nat → List Bool
  | 0, _, _ => []
  | n + 1, toGo, tPos =>
    randBitOf toGo tPos :: maskBits n ((randReload toGo tPos).1 - 1) (randReload toGo tPos).2

/-- `Q` of rule R275: the next `n` bytes of the walk, unmasked, as a pull machine at `XA` with no mask bit
latched takes them. -/
def State.content (s : State) (n : Nat) : List Byte :=
  if s.ps.isRand then
    List.zipWith unmask (maskBits n s.pull.rNToGo s.pull.rTPos) (walkBytes s.blk n s.pull.tPos)
  else walkBytes s.blk n s.pull.tPos

/-- The meanings of a list of instructions, one after another, stopping at the first fault or refusal. -/
def execList : List Instr → State → Result
  | [], s => .next s
  | i :: is, s =>
    match exec i s with
    | .next s' => execList is s'
    | r => r

/-- `repeat n times: Emit(b)`, one byte at a time (44_mtf_rle2_decoder.md rules R234, R237). -/
def emitTimes : Nat → Byte → State → Act
  | 0, _, s => .go s
  | n + 1, b, s => (emitRun 1 b s).andThen (emitTimes n b)

/-- How many of the first `n` elements of `ll8` hold the byte value `v`. -/
def occurrences (ll8 : Mem Byte) (n v : Nat) : Nat :=
  ((List.range n).filter fun i => (ll8.read i).toNat = v).length

/-- The run of `k` steps. -/
abbrev run (k : Nat) (s : State) : Host.Outcome State Fault Refusal := Host.Core.run core k s

/-- The lifecycle flags of one port, as rule R150 uses them: a command in progress has passed its entry
checks (rule R150). -/
structure State.LifeInv (s : State) : Prop where
  /-- At rest no READ_BULK is in progress. -/
  restBulk : s.phase = .idle → s.bulk = none
  /-- A command is in progress only on an open port with no fault latched. -/
  busy : s.phase ≠ .idle → s.fault = none ∧ s.closed = false ∧ s.streamEnd = false
  /-- The header is due only inside START. -/
  header : s.phase = .streamHdr → s.started = false ∧ s.bulk = none
  /-- Every other command in progress is a READ or READ_BULK after a START. -/
  reading : s.phase ≠ .idle → s.phase ≠ .streamHdr → s.started = true
  /-- A READ_BULK in progress still wants bytes. -/
  wanting : ∀ k, s.bulk = some k → k.got.length < k.wanted
  /-- `blockClass` is legal once it is valid (rule R22). -/
  cls : s.started = true → classMin ≤ s.blockClass ∧ s.blockClass ≤ classMax
  /-- The stream has ended only after a START (rule R24). -/
  ended : s.streamEnd = true → s.started = true
  /-- A closed port has closed its source (rule R158). -/
  closed : s.closed = true → s.srcClosed = true

/-- Every memory is in its canonical form (20_memory.md rule R70; notes/assumptions/2.md). -/
structure State.MemoriesInv (s : State) : Prop where
  inUse : s.tab.inUse.wf
  seqToUnseq : s.tab.seqToUnseq.wf
  unseqToSeq : s.tab.unseqToSeq.wf
  selector : s.tab.selector.wf
  cnt : s.tab.cnt.wf
  huff : s.tab.huff.wf
  tables : ∀ p ∈ s.tab.huff, p.2.len.wf ∧ p.2.limit.wf ∧ p.2.base.wf ∧ p.2.perm.wf
  unzftab : s.blk.unzftab.wf
  cftab : s.blk.cftab.wf
  ll8 : s.blk.ll8.wf
  tt : s.blk.tt.wf

/-- How far the table section of a block has been read (43_huffman_table_builder.md): 0 before NGROUPS is
due, 6 when the symbols are due. -/
def Phase.stage : Phase → Nat
  | .idle | .streamHdr | .pull | .blockCrc | .randomised | .origPtr | .inUse16 | .inUseRow
  | .combinedCrc => 0
  | .nGroups => 1
  | .nSelectors => 2
  | .selector => 3
  | .startLen => 4
  | .lenDelta => 5
  | .symbol => 6

/-- The ranges of the table registers while the table section and the symbols of a block are read (10_state.md
rules R31 to R37). -/
structure State.TablesInv (s : State) : Prop where
  listLength : s.tab.selPos.length = nGroupsMax
  ranks : s.dec.yy.length = byteValues
  row : s.phase = .inUseRow → s.tab.rowI < 16
  alphabet : 1 ≤ s.phase.stage → 1 ≤ s.tab.nInUse ∧ s.tab.nInUse ≤ byteValues
  groups : 2 ≤ s.phase.stage → 2 ≤ s.tab.nGroups ∧ s.tab.nGroups ≤ nGroupsMax
  counts : 3 ≤ s.phase.stage → 1 ≤ s.tab.nSelectors ∧ s.tab.nSelectors ≤ config.selCap
  selecting : s.phase = .selector → s.tab.selI < s.tab.nSelectors ∧
    (∀ v ∈ s.tab.selPos.take s.tab.nGroups, v < s.tab.nGroups) ∧
    ∀ g < s.tab.selI, s.tab.selector.read g < s.tab.nGroups
  selectors : 4 ≤ s.phase.stage → ∀ g < s.tab.nSelectors, s.tab.selector.read g < s.tab.nGroups
  lengths : 4 ≤ s.phase.stage → s.phase.stage ≤ 5 → s.tab.lenT < s.tab.nGroups ∧
    ∀ t < s.tab.lenT, LegalLengths ((s.tab.huff.read t).lens s.alphaSize)
  deltas : s.phase = .lenDelta → s.tab.lenI < s.alphaSize ∧ s.tab.curr ≤ 31 ∧
    LegalLengths ((s.tab.huff.read s.tab.lenT).lens s.tab.lenI)
  built : s.phase = .symbol → ∀ t < s.tab.nGroups, ∃ h : HuffTable,
    LegalLengths (h.lens s.alphaSize) ∧ h.perm.wf ∧ s.tab.huff.read t = h.build s.alphaSize

/-- The block buffer while the symbols are decoded: it fits, and `unzftab` counts its bytes
(44_mtf_rle2_decoder.md rules R236, R237). -/
structure State.FillingInv (s : State) : Prop where
  bounds : -1 ≤ s.blk.last ∧ s.blk.last + 1 ≤ (s.capacity : Int)
  counts : ∀ v < byteValues, s.blk.unzftab.read v = occurrences s.blk.ll8 (s.blk.last + 1).toNat v

/-- The pull machine inside a block (45_inverse_bwt_output.md rules R262 to R273). -/
structure State.PullingInv (s : State) : Prop where
  place : s.phase = .idle ∨ s.phase = .pull
  started : s.started = true
  bounds : 0 ≤ s.blk.last ∧ s.blk.last + 1 ≤ (s.capacity : Int)
  links : ∀ i < (s.blk.last + 1).toNat, s.blk.tt.read i < (s.blk.last + 1).toNat
  cursor : s.pull.tPos < (s.blk.last + 1).toNat
  taken : (s.pull.i2 : Int) ≤ s.blk.last + 1
  mask : s.pull.rTPos < randSize
  latch : s.pull.randBit ≠ none → s.ps = .randA ∨ s.ps = .randB
  produced : s.ps ≠ .randA → s.ps ≠ .noRandA → s.pull.ch2 ≠ none
  short : s.ps ≠ .randC → s.ps ≠ .noRandC → s.pull.count ≤ 3
  full : s.ps = .randC ∨ s.ps = .noRandC → s.pull.count = 4 ∧ s.pull.j2 ≤ s.pull.z ∧ s.pull.z ≤ 255
  rest : s.phase = .idle → s.fault = none →
    s.ps ≠ .randA ∧ s.ps ≠ .noRandA ∧ s.pull.randBit = none

/-- The invariant of every run. -/
structure State.Inv (s : State) : Prop where
  cursor : s.cur.Wf
  life : s.LifeInv
  memories : s.MemoriesInv
  tables : s.TablesInv
  filling : s.phase = .symbol → s.FillingInv
  pulling : s.ps ≠ .startBlock → s.PullingInv

/-- A READ or READ_BULK may run now: the entry checks pass (rule R150). -/
def State.canRead (s : State) : Prop := s.fault = none ∧ s.closed = false ∧ s.started = true

end Machine

end Sys2Proof
end

