-- ==== Sys2Proof/Certificates/Slice0/Obligations.lean ====
section
/-! DEFINITION. The statements for the provers. A frame is written as an equation between whole states:
what a statement does not name is as it was. -/

section Statements

open Sys2Proof Sys2Proof.Machine

/-! ### Reset, the invariant, progress -/

/-- Rules R46, R350 and R7: the state the spec gives after reset, for any configuration, any byte source and any
commands to come. The clauses on `phase`, `bulk`, `cmds` and `responses`, the model's own fields, are its own choice
(notes/assumptions/5.md, DESIGN CHOICE). -/
def Obligations.ResetStateOfTheSpec : Prop :=
  ∀ (cfg : Config) (src : List Byte) (cmds : List CmdWord) (s : State), s = State.resetWith src cmds cfg →
    s.cur.src = src ∧ s.cur.srcPos = 0 ∧ s.cur.bsLive = 0 ∧ s.srcClosed = false ∧
    s.ps = .startBlock ∧ pullCode s.ps = 0 ∧
    s.started = false ∧ s.streamEnd = false ∧ s.closed = false ∧
    s.fault = none ∧ faultRegister s.fault = 0 ∧
    s.crc.computedCombinedCRC = cfg.combinedInit ∧
    s.phase = .idle ∧ s.bulk = none ∧ s.cmds = cmds ∧ s.responses = []

/-- The invariant holds after reset, for any byte source and any commands to come. -/
def Obligations.ResetMeetsInvariant : Prop :=
  State.reset.Inv ∧ ∀ (src : List Byte) (cmds : List CmdWord), (State.resetWith src cmds).Inv

/-- Every step keeps the invariant: the ranges of 10_state.md, the lifecycle of rule R150, the index bounds of
rule R78, and the canonical form of every memory, which is the model's own (notes/assumptions/2.md, DESIGN CHOICE). -/
def Obligations.StepKeepsInvariant : Prop :=
  ∀ s t : State, s.Inv → step s = .next t → t.Inv

/-- Rule R14 (no third outcome) and rule R78 (no access out of range): a step of a state with the invariant
answers a next state; neither a fault nor a refusal of the model is reached. -/
def Obligations.StepAlwaysAnswersNext : Prop :=
  ∀ s : State, s.Inv → ∃ t, step s = .next t

/-- Every step keeps every memory in its canonical form, whatever else holds of the state. The canonical form, and
what an element nothing has written reads as, are the model's own choice (notes/assumptions/2.md, DESIGN CHOICE):
20_memory.md names the elements of each memory and says nothing of a form. -/
def Obligations.StepKeepsMemoriesCanonical : Prop :=
  ∀ s t : State, s.MemoriesInv → step s = .next t → t.MemoriesInv

/-- Rules R14, R150 and R359: a command begun in a state with the invariant completes after finitely many
steps, with exactly one response, and the commands behind it are left. -/
def Obligations.EveryCommandCompletes : Prop :=
  ∀ (s : State) (w : CmdWord) (ws : List CmdWord), s.Inv → s.phase = .idle → s.cmds = w :: ws →
    ∃ k t r, run (k + 1) s = .next t ∧ t.phase = .idle ∧ t.cmds = ws ∧ t.responses = s.responses ++ [r]

/-- Rule R10: responses are only appended, one at a time, and each ends a command. -/
def Obligations.ResponsesOnlyAppended : Prop :=
  ∀ s t : State, step s = .next t →
    t.responses = s.responses ∨ (∃ r, t.responses = s.responses ++ [r] ∧ t.phase = .idle ∧ t.bulk = none)

/-- Rules R24, R25, R314, R22: a latched fault stays, the lifecycle flags are never cleared, the class never
changes once the stream has been started. -/
def Obligations.LatchesAreNeverCleared : Prop :=
  ∀ s t : State, s.Inv → step s = .next t →
    (∀ f, s.fault = some f → t.fault = some f) ∧
    (s.streamEnd = true → t.streamEnd = true) ∧ (s.started = true → t.started = true) ∧
    (s.closed = true → t.closed = true) ∧ (s.srcClosed = true → t.srcClosed = true) ∧
    (s.started = true → t.blockClass = s.blockClass)

/-- Rules R82 and R174: no step changes the source, and no step moves the bit cursor back. -/
def Obligations.CursorOnlyMovesForward : Prop :=
  ∀ s t : State, step s = .next t →
    t.cur.src = s.cur.src ∧ s.cur.srcPos ≤ t.cur.srcPos ∧
    (s.cur.Wf → t.cur.Wf ∧ s.cur.pos ≤ t.cur.pos)

/-! ### Encoding -/

/-- Rule R101: the operation code and the operand of a command word, and decode and encode agree on all
2^35 command words. -/
def Obligations.CommandWordsRoundTrip : Prop :=
  (∀ (op : HostOp) (arg : Word), cmdOp (commandWord op arg) = op.code ∧ cmdArg (commandWord op arg) = arg) ∧
  (∀ w : CmdWord, encodeCommand (decodeCommand w) = some w) ∧
  ∀ (i : Instr) (w : CmdWord), encodeCommand i = some w → decodeCommand w = i

/-- Rules R105 to R114: decoding the encoding of a well-formed stream element, in its place of the grammar
and at any bit position, gives the element back and leaves the bits that follow. -/
def Obligations.StreamElementRoundTrip : Prop :=
  ∀ (ctx : Ctx) (i : Instr) (bits rest : List Bool) (c : BitCursor), (∀ t n, ctx ≠ .symbol t n) →
    i.wellFormed = true → encode ctx i = some bits → c.bits = bits ++ rest →
    ∃ c', decode ctx c = .ok i c' ∧ c'.bits = rest ∧ c'.src = c.src

/-- The other direction: an element the decoder answers is well-formed and its encoding is exactly the bits
consumed. -/
def Obligations.DecodedElementWasItsEncoding : Prop :=
  ∀ (ctx : Ctx) (i : Instr) (c c' : BitCursor), (∀ t n, ctx ≠ .symbol t n) →
    (∀ n, ctx = .selector n → 1 ≤ n ∧ n ≤ nGroupsMax) → decode ctx c = .ok i c' →
    i.wellFormed = true ∧ ∃ bits, encode ctx i = some bits ∧ c.bits = bits ++ c'.bits

/-- Rule R111: with lengths that satisfy the Kraft sum, the canonical code of a symbol, met by a cursor, is
decoded as that symbol by the tables of rules R205 and R206. -/
def Obligations.CanonicalCodeRoundTrip : Prop :=
  ∀ (t : HuffTable) (nInUse : Nat) (i : Instr) (code rest : List Bool) (c : BitCursor),
    1 ≤ nInUse → nInUse ≤ byteValues → t.perm.wf →
    LegalLengths (t.lens (nInUse + 2)) → KraftHolds (t.lens (nInUse + 2)) →
    encode (.symbol (t.build (nInUse + 2)) nInUse) i = some code → c.bits = code ++ rest →
    ∃ c', decode (.symbol (t.build (nInUse + 2)) nInUse) c = .ok i c' ∧ c'.bits = rest

/-- Words written out from the encodings of 30_encoding.md decode to what they stand for. The signature, digit and
marker values are the defaults of rule R7 (notes/assumptions/3.md, PRESUMED); that `decodeTableWord` reads a bare word
of 32 bits as a header and one of 48 bits as a marker is the model's choice (notes/assumptions/6.md, DESIGN CHOICE). -/
def Obligations.WordsOfTheSpecDecode : Prop :=
  decodeCommand 0x000000000#35 = .start 0 ∧ decodeCommand 0x100000000#35 = .read 0 ∧
  decodeCommand 0x200000005#35 = .readBulk 5 ∧ decodeCommand 0x700000000#35 = .close 0 ∧
  decodeTableWord 32 0x425A6839 = some (.streamHdr 0x39#8) ∧
  decodeTableWord 48 0x314159265359 = some .blockMagic ∧
  decodeTableWord 48 0x177245385090 = some .endMagic ∧
  (decode (.selector 3) (BitCursor.ofBytes [0b11010000#8])).instr = some (.selector 2) ∧
  (decode .lenDelta (BitCursor.ofBytes [0b00000000#8])).instr = some .lenStop ∧
  (decode .lenDelta (BitCursor.ofBytes [0b10000000#8])).instr = some .lenInc ∧
  (decode .lenDelta (BitCursor.ofBytes [0b11000000#8])).instr = some .lenDec

/-! ### The bit reader -/

/-- Rules R170, R172 and R11: `readBits(n)` gives the next `n` stream bits, most significant first, moves the
position by `n`, and has requested exactly the bytes those bits lie in. -/
def Obligations.ReadBitsGivesNextBits : Prop :=
  ∀ (c : BitCursor) (n : Nat), c.Wf → 1 ≤ n → n ≤ 32 → c.pos + n ≤ 8 * c.src.length →
    ∃ c' bs, c.readBits n = .ok (bitsValue bs) c' ∧ bs.length = n ∧
      (∀ k < n, streamBit c.src (c.pos + k) = bs[k]?) ∧
      c'.src = c.src ∧ c'.Wf ∧ c'.pos = c.pos + n ∧ c'.srcPos = (c.pos + n + 7) / 8 ∧
      c'.bsLive = 8 * c'.srcPos - (c.pos + n)

/-- Rule R173: `readBits(n)` fails exactly when the source ends before the last bit; every byte of the source
has then been requested. -/
def Obligations.ReadBitsFailsAtEndOfInput : Prop :=
  ∀ (c : BitCursor) (n : Nat), c.Wf → 1 ≤ n → n ≤ 32 →
    ((∃ c', c.readBits n = .eod c') ↔ 8 * c.src.length < c.pos + n) ∧
    ∀ c', c.readBits n = .eod c' → c'.src = c.src ∧ c'.srcPos = c.src.length ∧ c'.bsLive = 0

/-- Rule R175: reading in two pieces and reading at once give the same value and leave the same cursor. -/
def Obligations.ReadBitsChunksAgree : Prop :=
  ∀ (c : BitCursor) (a b : Nat), 1 ≤ a → 1 ≤ b → a + b ≤ 32 →
    (∀ x c1 y c2, c.readBits a = .ok x c1 → c1.readBits b = .ok y c2 →
      c.readBits (a + b) = .ok (x * 2 ^ b + y) c2) ∧
    ∀ v c2, c.readBits (a + b) = .ok v c2 →
      ∃ x c1 y, c.readBits a = .ok x c1 ∧ c1.readBits b = .ok y c2 ∧ v = x * 2 ^ b + y

/-! ### A step runs what is due -/

/-- Rules R150 and R346: at rest the next command's word is decoded and run; with no command the machine
holds its state. -/
def Obligations.StepRunsTheCommandAtRest : Prop :=
  ∀ s : State, s.phase = .idle →
    (∀ w ws, s.cmds = w :: ws → step s = exec (decodeCommand w) { s with cmds := ws }) ∧
    (s.cmds = [] → step s = .next s)

/-- Rule R104: in the middle of a command the element due in that place of the grammar is decoded at the
cursor and run with the cursor behind it (a length delta only while the current length is legal). -/
def Obligations.StepRunsTheStreamElement : Prop :=
  ∀ (s : State) (ctx : Ctx) (i : Instr) (c' : BitCursor), s.ctx = some ctx → s.phase ≠ .symbol →
    (s.phase = .lenDelta → 1 ≤ s.tab.curr ∧ s.tab.curr ≤ maxCodeLen) → decode ctx s.cur = .ok i c' →
    step s = exec i { s with cur := c' }

/-- Rules R231, R232, R238: a symbol is decoded with the table its number selects, `symIdx`, `zn` and `zvec`
are updated, and the symbol is run. -/
def Obligations.StepRunsTheSymbol : Prop :=
  ∀ (s : State) (g sym zn zvec : Nat) (c' : BitCursor), s.phase = .symbol → g = s.dec.symIdx / 50 →
    g < s.tab.nSelectors → s.tab.nSelectors ≤ config.selCap → s.tab.selector.read g < nGroupsMax →
    decodeCode (s.tab.huff.read (s.tab.selector.read g)) (s.tab.nInUse + 2) s.cur = .ok sym zn zvec c' →
    ∃ i, i = symbolInstr s.tab.nInUse sym ∧ s.ctx.map (decode · s.cur) = some (.ok i c') ∧
      step s = exec i
        { s with cur := c', dec := { s.dec with symIdx := s.dec.symIdx + 1, zn := zn, zvec := zvec } }

/-- Rules R266 to R269: the byte of the walk is taken as a data byte in `XA`, as a count byte in `XB` after
four equal bytes. That in a randomised block its mask bit comes first, as a step of its own, is the model's choice
(notes/assumptions/8.md, DESIGN CHOICE): the rules call `RandStep()` inside the step that takes the byte. -/
def Obligations.StepRunsTheWalkByte : Prop :=
  ∀ s : State, s.phase = .pull → (s.pull.i2 : Int) ≤ s.blk.last → s.pull.tPos < maxCapacity →
    s.pull.rTPos < randSize →
    ((s.ps = .noRandA ∨ (s.ps = .randA ∧ s.pull.randBit ≠ none)) → step s = exec (.literal s.walkByte) s) ∧
    (s.ps = .randA → s.pull.randBit = none →
      step s = exec (.randMask (randBitOf s.pull.rNToGo s.pull.rTPos)) s) ∧
    (s.pull.ch2 = s.pull.chPrev → 4 ≤ s.pull.count + 1 →
      ((s.ps = .noRandB ∨ (s.ps = .randB ∧ s.pull.randBit ≠ none)) →
        step s = exec (.runCount s.walkByte) s) ∧
      (s.ps = .randB → s.pull.randBit = none →
        step s = exec (.randMask (randBitOf s.pull.rNToGo s.pull.rTPos)) s))

/-- Rule R310, for everything rule R116 rejects while it is read: the fault is latched, the response is
`ERR` of its code, the command ends. That nothing but the cursor has moved is the model's choice
(notes/assumptions/4.md and 14.md, DESIGN CHOICE): rules R200, R231 and R232 write a part of a row, `symIdx`, `zn` or
`zvec` before the `raise`, and rule R315 leaves open what they hold after it. -/
def Obligations.RejectedElementRaises : Prop :=
  ∀ (s : State) (ctx : Ctx) (f : FaultCode) (c' : BitCursor), s.ctx = some ctx →
    (s.phase = .lenDelta → 1 ≤ s.tab.curr ∧ s.tab.curr ≤ maxCodeLen) →
    (s.phase = .symbol → s.dec.symIdx / 50 < s.tab.nSelectors ∧ s.tab.nSelectors ≤ config.selCap ∧
      s.tab.selector.read (s.dec.symIdx / 50) < nGroupsMax) →
    decode ctx s.cur = .reject f c' →
    step s = .next { s with
      cur := c', fault := some f, responses := s.responses ++ [.err f], phase := .idle, bulk := none }

/-- Rules R333 and R334: a code length outside 1..20, and a symbol beyond the last selector, raise
before any bit is read. -/
def Obligations.RaisedBeforeAnyBitIsRead : Prop :=
  (∀ s : State, s.phase = .lenDelta → (s.tab.curr = 0 ∨ 20 < s.tab.curr) →
    step s = .next { s with
      fault := some .codeLengthOutOfRange, responses := s.responses ++ [.err .codeLengthOutOfRange]
      phase := .idle, bulk := none }) ∧
  ∀ s : State, s.phase = .symbol → 50 * s.tab.nSelectors ≤ s.dec.symIdx →
    step s = .next { s with
      fault := some .selectorOverrun, responses := s.responses ++ [.err .selectorOverrun]
      phase := .idle, bulk := none }

/-! ### Host commands -/

/-- Rules R25 and R311: the eighteen fault codes are 1 to 18 in the order of the table, the register `fault` holds
the code (0 of no fault), no two faults share a value and 19 to 31 are never held. Rules R150 and R314: while a fault
is latched every command but CLOSE answers it and changes nothing else (at rest `phase` is `idle` and `bulk` is `none`
already). -/
def Obligations.LatchedFaultAnswersEveryCommand : Prop :=
  [FaultCode.invalidStreamHeader, .corruptBlockHeader, .invalidHuffmanCode, .symbolOutOfRange, .blockOverrun,
    .blockCrcMismatch, .combinedCrcMismatch, .unexpectedEndOfInput, .unsupportedOperation, .emptyAlphabet,
    .groupCountOutOfRange, .selectorCountOutOfRange, .selectorIndexOutOfRange, .codeLengthOutOfRange,
    .selectorOverrun, .origPtrOutOfRange, .runCountMissing, .hostProtocolViolation].map faultCode =
      List.range' 1 18 ∧
  faultRegister none = 0 ∧
  (∀ f : FaultCode, (faultRegister (some f)).toNat = faultCode f ∧ 1 ≤ faultCode f ∧ faultCode f ≤ 18) ∧
  (∀ f g : Option FaultCode, faultRegister f = faultRegister g → f = g) ∧
  ∀ (s : State) (f : FaultCode) (i : Instr) (w : CmdWord), s.fault = some f → encodeCommand i = some w →
    (∀ a, i ≠ .close a) →
    exec i s = .next { s with responses := s.responses ++ [.err f], phase := .idle, bulk := none }

/-- Rules R150 and R337: a command the lifecycle does not allow raises HostProtocolViolation. -/
def Obligations.LifecycleViolationsRaise : Prop :=
  ∀ (s t : State) (arg : Word), s.fault = none →
    t = { s with
      fault := some .hostProtocolViolation, responses := s.responses ++ [.err .hostProtocolViolation]
      phase := .idle, bulk := none } →
    (s.closed = true → ∀ i w, encodeCommand i = some w → (∀ a, i ≠ .close a) → exec i s = .next t) ∧
    (s.started = true → exec (.start arg) s = .next t) ∧
    (s.closed = false → s.started = false →
      exec (.read arg) s = .next t ∧ exec (.readBulk arg) s = .next t)

/-- Rules R154 to R157: the codes of WRITE, SEEK, SET_LENGTH and GET_LENGTH; each raises UnsupportedOperation,
whatever its operand, and writes `fault` alone; the stream is unusable after it; a latched fault or a closed port
takes precedence. -/
def Obligations.UnsupportedOperationsRaise : Prop :=
  ∀ (s t : State) (op : BitVec 3) (arg : Word) (i : Instr),
    (op, i) ∈ [(3#3, Instr.write arg), (4#3, .seek arg), (5#3, .setLength arg), (6#3, .getLength arg)] →
    t = { s with
      fault := some .unsupportedOperation, responses := s.responses ++ [.err .unsupportedOperation]
      phase := .idle, bulk := none } →
    (∃ w, encodeCommand i = some w ∧ cmdOp w = op ∧ cmdArg w = arg ∧ decodeCommand w = i) ∧
    (s.fault = none → s.closed = false → exec i s = .next t ∧
      ∀ j w, encodeCommand j = some w → (∀ a, j ≠ .close a) →
        exec j t = .next (t.respond (.err .unsupportedOperation))) ∧
    (∀ f, s.fault = some f → exec i s = .next (s.respond (.err f))) ∧
    (s.fault = none → s.closed = true → exec i s = .next (s.raise .hostProtocolViolation))

/-- Rules R151 and R180: START begins to read the header; on a legal header it consumes exactly the 32 bits, sets
the class and `started`, and answers `OK`. The header values 42 5A 68 31..39 are the defaults of rule R7
(notes/assumptions/3.md, PRESUMED); that START is two steps is the model's choice (notes/assumptions/5.md, DESIGN
CHOICE). -/
def Obligations.StartConsumesTheHeader : Prop :=
  ∀ (s : State) (arg : Word) (h3 : Byte) (rest : List Bool), s.phase = .idle → s.bulk = none →
    s.fault = none → s.closed = false → s.started = false → 0x31#8 ≤ h3 → h3 ≤ 0x39#8 →
    s.cur.bits = byteBits 0x42#8 ++ byteBits 0x5A#8 ++ byteBits 0x68#8 ++ byteBits h3 ++ rest →
    exec (.start arg) s = .next { s with phase := .streamHdr } ∧
    ∃ c', c'.bits = rest ∧ c'.src = s.cur.src ∧ (s.cur.Wf → c'.pos = s.cur.pos + 32) ∧
      run 2 { s with cmds := commandWord .start arg :: s.cmds } = .next { s with
        cur := c', blockClass := h3.toNat - 0x30, started := true, responses := s.responses ++ [.ok] }

/-- Rules R151, R180 and R320: a header of four bytes that is not legal makes START fail after them; `started` stays
clear (a header cut short is RejectedElementRaises). The header values are the defaults of rule R7
(notes/assumptions/3.md, PRESUMED); that START is two steps, and that every register but the cursor and `fault` is as
before, are the model's choices (notes/assumptions/5.md and 4.md, DESIGN CHOICE). -/
def Obligations.StartRejectsABadHeader : Prop :=
  ∀ (s : State) (arg : Word) (h0 h1 h2 h3 : Byte) (rest : List Bool), s.phase = .idle → s.bulk = none →
    s.fault = none → s.closed = false → s.started = false →
    s.cur.bits = byteBits h0 ++ byteBits h1 ++ byteBits h2 ++ byteBits h3 ++ rest →
    ¬ (h0 = 0x42#8 ∧ h1 = 0x5A#8 ∧ h2 = 0x68#8 ∧ 0x31#8 ≤ h3 ∧ h3 ≤ 0x39#8) →
    ∃ c', c'.bits = rest ∧ c'.src = s.cur.src ∧
      run 2 { s with cmds := commandWord .start arg :: s.cmds } = .next { s with
        cur := c', fault := some .invalidStreamHeader
        responses := s.responses ++ [.err .invalidStreamHeader] }

/-- Rules R152 and R153: a READ or READ_BULK whose entry checks pass begins to pull; after the stream has ended
READ answers `EOD` and READ_BULK the empty list, as it does for `n = 0`. -/
def Obligations.ReadsBeginOrEnd : Prop :=
  ∀ (s : State) (arg n : Word), s.fault = none → s.closed = false → s.started = true →
    (s.streamEnd = true → exec (.read arg) s = .next { s with
      responses := s.responses ++ [.eod], phase := .idle, bulk := none }) ∧
    (s.streamEnd = false → exec (.read arg) s = .next { s with phase := .pull }) ∧
    (n = 0 ∨ s.streamEnd = true → exec (.readBulk n) s = .next { s with
      responses := s.responses ++ [.data []], phase := .idle, bulk := none }) ∧
    (n ≠ 0 → s.streamEnd = false → exec (.readBulk n) s = .next { s with
      phase := .pull, bulk := some { wanted := n.toNat, got := [] } })

/-- Rule R153: a step inside a READ_BULK does what the step inside a READ does; a byte is gathered until the
list has the length wanted, `EOD` ends the list, a fault is answered alone. -/
def Obligations.BulkReadRepeatsRead : Prop :=
  ∀ (s t : State) (k : Bulk), s.bulk = none → s.phase ≠ .idle → s.phase ≠ .streamHdr → step s = .next t →
    (t.responses = s.responses → step { s with bulk := some k } = .next { t with bulk := some k }) ∧
    (∀ b, t.responses = s.responses ++ [.byte b] →
      step { s with bulk := some k } = .next (
        if k.got.length + 1 < k.wanted then { t with
          responses := s.responses, phase := .pull, bulk := some { k with got := k.got ++ [b] } }
        else { t with responses := s.responses ++ [.data (k.got ++ [b])] })) ∧
    (t.responses = s.responses ++ [.eod] →
      step { s with bulk := some k } = .next { t with responses := s.responses ++ [.data k.got] }) ∧
    (∀ f, t.responses = s.responses ++ [.err f] → step { s with bulk := some k } = .next t)

/-- Rule R158: CLOSE works in every state, clears no fault, and leaves a port that answers every other command
with the latched fault or with HostProtocolViolation. -/
def Obligations.CloseAlwaysWorks : Prop :=
  ∀ (s t : State) (a : Word), t = { s with
      srcClosed := true, closed := true, responses := s.responses ++ [.ok], phase := .idle, bulk := none } →
    cmdOp (commandWord .close a) = 7 ∧ decodeCommand (commandWord .close a) = .close a ∧
    exec (.close a) s = .next t ∧
    ∀ i w, encodeCommand i = some w → (∀ b, i ≠ .close b) →
      (∀ f, s.fault = some f → exec i t = .next (t.respond (.err f))) ∧
      (s.fault = none → exec i t = .next (t.raise .hostProtocolViolation))

/-! ### Stream header, markers, block header, trailer -/

/-- Rule R180, and the end of START (rule R151): the class is 1..9 and START answers `OK`. -/
def Obligations.StreamHeaderSetsTheClass : Prop :=
  ∀ (s : State) (h3 : Byte), (Instr.streamHdr h3).wellFormed = true →
    exec (.streamHdr h3) s = .next { s with
      blockClass := h3.toNat - config.digit1.toNat + 1, started := true
      responses := s.responses ++ [.ok], phase := .idle, bulk := none } ∧
    1 ≤ h3.toNat - config.digit1.toNat + 1 ∧ h3.toNat - config.digit1.toNat + 1 ≤ 9

/-- Rules R181, R182 and R185: the two markers choose what is read next; the three fields of a block header are
kept, in this order, and nothing else is written. -/
def Obligations.BlockHeaderFieldsAreKept : Prop :=
  ∀ (s : State) (c : Word) (r : Bool) (p : Nat),
    exec .blockMagic s = .next { s with phase := .blockCrc } ∧
    exec .endMagic s = .next { s with phase := .combinedCrc } ∧
    exec (.blockCrc c) s = .next { s with
      crc := { s.crc with storedBlockCRC := c }, phase := .randomised } ∧
    exec (.randomised r) s = .next { s with
      hdr := { s.hdr with blockRandomised := r }, phase := .origPtr } ∧
    exec (.origPtr p) s = .next { s with hdr := { s.hdr with origPtr := p }, phase := .inUse16 }

/-- Rule R183: the trailer's CRC is compared with the computed one; equal ends the stream with `EOD` (or the
list of a READ_BULK), different is CombinedCrcMismatch. -/
def Obligations.TrailerEndsTheStream : Prop :=
  ∀ (s : State) (c : Word),
    (c = s.crc.computedCombinedCRC → s.bulk = none → exec (.combinedCrc c) s = .next { s with
      crc := { s.crc with storedCombinedCRC := c }, streamEnd := true
      responses := s.responses ++ [.eod], phase := .idle }) ∧
    (∀ k, c = s.crc.computedCombinedCRC → s.bulk = some k → exec (.combinedCrc c) s = .next { s with
      crc := { s.crc with storedCombinedCRC := c }, streamEnd := true
      responses := s.responses ++ [.data k.got], phase := .idle, bulk := none }) ∧
    (c ≠ s.crc.computedCombinedCRC → exec (.combinedCrc c) s = .next { s with
      crc := { s.crc with storedCombinedCRC := c }, fault := some .combinedCrcMismatch
      responses := s.responses ++ [.err .combinedCrcMismatch], phase := .idle, bulk := none })

/-! ### The table section -/

/-- Rule R200: the group map clears every `inUse` element and makes the first present group's row due; with no
group present the alphabet is empty (rule R201). -/
def Obligations.GroupMapMakesFirstRowDue : Prop :=
  ∀ (s : State) (u : BitVec 16),
    (∀ g < 16, u.getMsbD g = true → (∀ k < g, u.getMsbD k = false) → exec (.inUse16 u) s = .next { s with
      tab := { s.tab with used16 := u, inUse := [], rowI := g }, phase := .inUseRow }) ∧
    (u = 0 → ∃ t, exec (.inUse16 u) s = .next t ∧ t.fault = some .emptyAlphabet ∧
      t.responses = s.responses ++ [.err .emptyAlphabet] ∧ t.phase = .idle ∧ t.cur = s.cur)

/-- Rules R200 and R201: a row writes the 16 elements of its group and no others; the next present group's row
is due, or the maps are made and NGROUPS is due, or no byte value is in use. -/
def Obligations.RowMarksItsGroup : Prop :=
  ∀ (s : State) (v : BitVec 16), s.tab.inUse.wf → s.tab.rowI < 16 →
    ∃ t, exec (.inUseRow v) s = .next t ∧
      (∀ j < 16, t.tab.inUse.read (16 * s.tab.rowI + j) = v.getMsbD j) ∧
      (∀ b, b < 16 * s.tab.rowI ∨ 16 * s.tab.rowI + 16 ≤ b → t.tab.inUse.read b = s.tab.inUse.read b) ∧
      (∀ g, s.tab.rowI < g → g < 16 → s.tab.used16.getMsbD g = true →
        (∀ k, s.tab.rowI < k → k < g → s.tab.used16.getMsbD k = false) →
        t = { s with tab := { s.tab with inUse := t.tab.inUse, rowI := g }, phase := .inUseRow }) ∧
      ((∀ k, s.tab.rowI < k → k < 16 → s.tab.used16.getMsbD k = false) →
        t = makeMaps { s with tab := { s.tab with inUse := t.tab.inUse } })

/-- Rule R201: the two maps list the used byte values in increasing order and are inverse to each other. -/
def Obligations.MapsListTheUsedBytes : Prop :=
  ∀ (s t : State), s.tab.seqToUnseq.wf → s.tab.unseqToSeq.wf → t = makeMaps s →
    t.tab.nInUse = ((List.range 256).filter s.tab.inUse.read).length ∧
    (∀ r < t.tab.nInUse, s.tab.inUse.read (t.tab.seqToUnseq.read r).toNat = true ∧
      (t.tab.unseqToSeq.read (t.tab.seqToUnseq.read r).toNat).toNat = r ∧
      ∀ q < r, (t.tab.seqToUnseq.read q).toNat < (t.tab.seqToUnseq.read r).toNat) ∧
    (∀ b < 256, s.tab.inUse.read b = true → (t.tab.unseqToSeq.read b).toNat < t.tab.nInUse ∧
      (t.tab.seqToUnseq.read (t.tab.unseqToSeq.read b).toNat).toNat = b) ∧
    (t.tab.nInUse ≠ 0 → t = { s with
      tab := { s.tab with
        nInUse := t.tab.nInUse, seqToUnseq := t.tab.seqToUnseq, unseqToSeq := t.tab.unseqToSeq }
      phase := .nGroups }) ∧
    (t.tab.nInUse = 0 → t.fault = some .emptyAlphabet ∧ t.responses = s.responses ++ [.err .emptyAlphabet] ∧
      t.phase = .idle)

/-- Rules R330 and R331, and what rule R202 does with the two counts once read: they are kept and checked; a legal
selector count starts the selector list as the identity over 0..nGroups-1 (rule R203). With an `nGroups` above 6,
which no run reaches here, that the list is lengthened is the model's choice (notes/assumptions/16.md, DESIGN CHOICE). -/
def Obligations.CountsAreKeptAndChecked : Prop :=
  ∀ (s : State) (g : BitVec 3) (n : BitVec 15),
    (2 ≤ g.toNat ∧ g.toNat ≤ 6 → exec (.nGroups g) s = .next { s with
      tab := { s.tab with nGroups := g.toNat }, phase := .nSelectors }) ∧
    (¬ (2 ≤ g.toNat ∧ g.toNat ≤ 6) → exec (.nGroups g) s = .next
      (({ s with tab := { s.tab with nGroups := g.toNat } } : State).raise .groupCountOutOfRange)) ∧
    (1 ≤ n.toNat ∧ n.toNat ≤ config.selCap → exec (.nSelectors n) s = .next { s with
      tab := { s.tab with
        nSelectors := n.toNat, selI := 0
        selPos := List.range s.tab.nGroups ++ s.tab.selPos.drop s.tab.nGroups }
      phase := .selector }) ∧
    (¬ (1 ≤ n.toNat ∧ n.toNat ≤ config.selCap) → exec (.nSelectors n) s = .next
      (({ s with tab := { s.tab with nSelectors := n.toNat } } : State).raise .selectorCountOutOfRange))

/-- Rule R203: the table at position `j` of the list moves to the front, those before it move one place on, and
it is the selector of the group being read. -/
def Obligations.SelectorMovesToFront : Prop :=
  ∀ (s : State) (j : Nat), s.tab.selPos.length = 6 → s.tab.nGroups ≤ 6 → j < s.tab.nGroups →
    s.tab.selI < config.selCap → s.tab.selector.wf →
    ∃ t, exec (.selector j) s = .next t ∧
      t.tab.selPos[0]? = s.tab.selPos[j]? ∧ (∀ k, 1 ≤ k → k ≤ j → t.tab.selPos[k]? = s.tab.selPos[k - 1]?) ∧
      (∀ k, j < k → t.tab.selPos[k]? = s.tab.selPos[k]?) ∧
      s.tab.selPos[j]? = some t.tab.selTmp ∧
      (∀ g, t.tab.selector.read g = if g = s.tab.selI then t.tab.selTmp else s.tab.selector.read g) ∧
      (s.tab.selI + 1 < s.tab.nSelectors → t = { s with
        tab := { s.tab with
          selJ := j, selTmp := t.tab.selTmp, selPos := t.tab.selPos, selector := t.tab.selector
          selI := s.tab.selI + 1 }
        phase := .selector }) ∧
      (s.tab.nSelectors ≤ s.tab.selI + 1 → t = { s with
        tab := { s.tab with
          selJ := j, selTmp := t.tab.selTmp, selPos := t.tab.selPos, selector := t.tab.selector
          selI := s.tab.selI + 1, lenT := 0 }
        phase := .startLen })

/-- Rule R204: STARTLEN sets the current length of a table, LEN_INC and LEN_DEC adjust it by one. -/
def Obligations.CodeLengthIsAdjusted : Prop :=
  ∀ (s : State) (l : BitVec 5),
    exec (.startLen l) s = .next { s with
      tab := { s.tab with curr := l.toNat, lenI := 0 }, phase := .lenDelta } ∧
    exec .lenInc s = .next { s with tab := { s.tab with curr := s.tab.curr + 1 }, phase := .lenDelta } ∧
    exec .lenDec s = .next { s with tab := { s.tab with curr := s.tab.curr - 1 }, phase := .lenDelta }

/-- Rule R204: LEN_STOP keeps the current length as that of the symbol in hand and of no other; the next symbol's
deltas or the next table's STARTLEN are due, or, after the last, the tables are built (rules R205, R206) and the
decoding of symbols begins (rule R230). With an `nGroups` above 6 or an `nInUse` above 256, which no run reaches, that
elements beyond the tables are built is the model's choice (notes/assumptions/16.md, DESIGN CHOICE). -/
def Obligations.LengthIsKeptForItsSymbol : Prop :=
  ∀ s : State, s.tab.lenT < 6 → s.tab.lenI < 258 → s.tab.huff.wf → (s.tab.huff.read s.tab.lenT).len.wf →
    ∃ t, exec .lenStop s = .next t ∧
      (∀ T I, (t.tab.huff.read T).len.read I =
        if T = s.tab.lenT ∧ I = s.tab.lenI then s.tab.curr else (s.tab.huff.read T).len.read I) ∧
      (s.tab.lenI + 1 < s.tab.nInUse + 2 → t = { s with
        tab := { s.tab with huff := t.tab.huff, lenI := s.tab.lenI + 1 }, phase := .lenDelta }) ∧
      (s.tab.nInUse + 2 ≤ s.tab.lenI + 1 → s.tab.lenT + 1 < s.tab.nGroups → t = { s with
        tab := { s.tab with huff := t.tab.huff, lenI := s.tab.lenI + 1, lenT := s.tab.lenT + 1 }
        phase := .startLen }) ∧
      (s.tab.nInUse + 2 ≤ s.tab.lenI + 1 → s.tab.nGroups ≤ s.tab.lenT + 1 →
        (∀ T < s.tab.nGroups, ∃ h : HuffTable,
          t.tab.huff.read T = h.build (s.tab.nInUse + 2) ∧ h.len = (t.tab.huff.read T).len) ∧
        (∀ r < 256, t.dec.yy[r]? = some (BitVec.ofNat 8 r)) ∧ (∀ b, t.blk.unzftab.read b = 0) ∧
        t = { s with
          tab := { s.tab with
            huff := t.tab.huff, lenI := s.tab.lenI + 1, lenT := s.tab.lenT + 1, cnt := t.tab.cnt
            vec := t.tab.vec, cum := t.tab.cum, pp := t.tab.pp }
          dec := { s.dec with yy := t.dec.yy, symIdx := 0, runS := 0, runN := 1 }
          blk := { s.blk with unzftab := t.blk.unzftab, last := -1 }
          phase := .symbol })

/-- Rule R205: `minLen` and `maxLen` are the least and greatest lengths; `perm` lists every symbol of the alphabet
exactly once, in order of (length, symbol value). Of an alphabet above 258 symbols, which no run builds, that `perm` is
written beyond its elements is the model's choice (notes/assumptions/16.md, DESIGN CHOICE). -/
def Obligations.RankTableIsSorted : Prop :=
  ∀ (t h : HuffTable) (n : Nat), 1 ≤ n → t.perm.wf → h = t.build n →
    (∀ i < n, h.minLen ≤ t.len.read i ∧ t.len.read i ≤ h.maxLen) ∧
    (∃ i < n, t.len.read i = h.minLen) ∧ (∃ i < n, t.len.read i = h.maxLen) ∧
    (∀ j < n, h.perm.read j < n) ∧ (∀ i < n, ∃ j < n, h.perm.read j = i) ∧
    ∀ j k, j < k → k < n →
      t.len.read (h.perm.read j) < t.len.read (h.perm.read k) ∨
      (t.len.read (h.perm.read j) = t.len.read (h.perm.read k) ∧ h.perm.read j < h.perm.read k)

/-- Rule R206: outside `minLen..maxLen` the limit is -1; inside it is the last code value of that length, one
less than `base` plus the number of symbols of at most that length, and the first value of the next length is
twice the value after it. -/
def Obligations.LimitAndBaseOfTheLengths : Prop :=
  ∀ (t h : HuffTable) (n : Nat) (upTo : Nat → Nat), 1 ≤ n → LegalLengths (t.lens n) → h = t.build n →
    (∀ l, upTo l = ((t.lens n).filter fun k => decide (k ≤ l)).length) →
    (∀ l < 22, l < h.minLen ∨ h.maxLen < l → h.limit.read l = -1 ∧ h.base.read l = 0) ∧
    h.base.read h.minLen = 0 ∧
    (∀ l, h.minLen ≤ l → l ≤ h.maxLen → h.limit.read l = (h.base.read l + upTo l : Int) - 1) ∧
    ∀ l, h.minLen ≤ l → l < h.maxLen → h.base.read (l + 1) + upTo l = 2 * (h.base.read l + upTo l)

/-- Rules R232, R117 and R323: with tables built from legal lengths, complete or not, every bit sequence decodes to
a symbol of the alphabet whose length is the number of bits consumed, 20 bits match no code, or the source ends;
SymbolOutOfRange never occurs. -/
def Obligations.DecodedCodeHasItsSymbolsLength : Prop :=
  ∀ (t : HuffTable) (n : Nat) (c : BitCursor), 1 ≤ n → n ≤ 258 → t.perm.wf → LegalLengths (t.lens n) →
    (∃ sym zn zvec c' bs, decodeCode (t.build n) n c = .ok sym zn zvec c' ∧ sym < n ∧ t.len.read sym = zn ∧
      c.bits = bs ++ c'.bits ∧ bs.length = zn ∧ zvec = bitsValue bs ∧ zn ≤ 20) ∨
    (∃ c' bs, decodeCode (t.build n) n c = .reject .invalidHuffmanCode c' ∧
      c.bits = bs ++ c'.bits ∧ bs.length = 20) ∨
    ∃ c', decodeCode (t.build n) n c = .reject .unexpectedEndOfInput c' ∧ c.bits.length < 20

/-! ### Symbols -/

/-- Rules R233 and R115: RUNA and RUNB add a digit of the run; the digits of a run, least significant first, give
its bijective base-2 value, which lies between `2^d - 1` and `2^(d+1) - 2`. Nothing is written to `ll8`. -/
def Obligations.RunDigitsAccumulate : Prop :=
  (∀ s : State,
    exec .runA s = .next { s with
      dec := { s.dec with runS := s.dec.runS + s.dec.runN, runN := 2 * s.dec.runN } } ∧
    exec .runB s = .next { s with
      dec := { s.dec with runS := s.dec.runS + 2 * s.dec.runN, runN := 2 * s.dec.runN } }) ∧
  ∀ (ds : List Bool) (s : State), s.dec.runS = 0 → s.dec.runN = 1 →
    execList (ds.map fun d => if d then .runB else .runA) s = .next { s with
      dec := { s.dec with runS := runValue ds, runN := 2 ^ ds.length } } ∧
    2 ^ ds.length - 1 ≤ runValue ds ∧ runValue ds ≤ 2 ^ (ds.length + 1) - 2

/-- Rules R234 and R237: appending a run at once is `Emit` repeated; both write the same block buffer when the run
fits, and both raise BlockOverrun when it does not. That the run at once then writes nothing, where `Emit` repeated
writes the bytes that fit, is the model's choice (notes/assumptions/4.md, DESIGN CHOICE: rule R315 leaves it open). -/
def Obligations.RunIsRepeatedEmit : Prop :=
  ∀ (n : Nat) (b : Byte) (s : State), s.blk.ll8.wf → s.blk.unzftab.wf → -1 ≤ s.blk.last →
    s.blk.last + 1 ≤ (s.capacity : Int) → s.capacity ≤ maxCapacity →
    (s.blk.last + 1 + n ≤ (s.capacity : Int) →
      emitTimes n b s = emitRun n b s ∧ emitRun n b s = .go { s with blk := s.blk.append n b }) ∧
    ((s.capacity : Int) < s.blk.last + 1 + n →
      emitRun n b s = .ended (s.raise .blockOverrun) ∧
      ∃ t, emitTimes n b s = .ended t ∧ t.fault = some .blockOverrun ∧
        t.responses = s.responses ++ [.err .blockOverrun] ∧ t.phase = .idle)

/-- Rules R234, R235, R237: MTFV(k) appends the pending run of the list's head, then the byte of rank `k - 1`, which
moves to the front; the counts follow; nothing else is written. -/
def Obligations.MtfvAppendsItsByte : Prop :=
  ∀ (s : State) (k m : Nat) (f b : Byte), 2 ≤ k → k ≤ 256 → s.dec.yy.length = 256 →
    s.blk.ll8.wf → s.blk.unzftab.wf → s.blk.last + 1 = (m : Int) →
    m + s.dec.runS + 1 ≤ s.capacity → s.capacity ≤ maxCapacity →
    (∀ y, s.dec.yy[0]? = some y → f = s.tab.seqToUnseq.read y.toNat) →
    (∀ y, s.dec.yy[k - 1]? = some y → b = s.tab.seqToUnseq.read y.toNat) →
    ∃ t, exec (.mtfv k) s = .next t ∧
      (∀ p, t.blk.ll8.read p = if m ≤ p ∧ p < m + s.dec.runS then f
        else if p = m + s.dec.runS then b else s.blk.ll8.read p) ∧
      (∀ v, t.blk.unzftab.read v = s.blk.unzftab.read v + (if v = f.toNat then s.dec.runS else 0) +
        (if v = b.toNat then 1 else 0)) ∧
      t.dec.yy[0]? = s.dec.yy[k - 1]? ∧ (∀ r, 1 ≤ r → r ≤ k - 1 → t.dec.yy[r]? = s.dec.yy[r - 1]?) ∧
      (∀ r, k - 1 < r → t.dec.yy[r]? = s.dec.yy[r]?) ∧
      t = { s with
        dec := { s.dec with
          yy := t.dec.yy, runS := 0, runN := if s.dec.runS = 0 then s.dec.runN else 1 }
        blk := { s.blk with
          last := s.blk.last + s.dec.runS + 1, ll8 := t.blk.ll8, unzftab := t.blk.unzftab } }

/-- Rules R234, R237 and R324: where the pending run and the symbol's byte do not fit the block, MTFV and EOB raise
BlockOverrun. That EOB leaves `last`, `ll8`, `unzftab` and every other register but `fault` as they were is the model's
choice (notes/assumptions/4.md, DESIGN CHOICE): `Emit` writes the bytes that fit before the `raise`, rule R234 lets one
test stand for the repeated one only as to the fault, and rule R315 leaves open what the registers hold after it. -/
def Obligations.OverrunRaisesBlockOverrun : Prop :=
  ∀ (s : State) (k : Nat), 2 ≤ k → k ≤ 256 → s.dec.yy.length = 256 → s.capacity ≤ maxCapacity →
    ((s.capacity : Int) < s.blk.last + 1 + s.dec.runS + 1 →
      ∃ t, exec (.mtfv k) s = .next t ∧ t.fault = some .blockOverrun ∧
        t.responses = s.responses ++ [.err .blockOverrun] ∧ t.phase = .idle ∧ t.cur = s.cur) ∧
    (s.dec.runS ≠ 0 → (s.capacity : Int) < s.blk.last + 1 + s.dec.runS →
      exec .eob s = .next (s.raise .blockOverrun))

/-- Rules R236, R182, R260 and R263: EOB flushes the pending run, resets the checksum, checks ORIG_PTR, builds `tt`,
sets the pull machine up and makes its first step due; a pointer beyond the block raises OrigPtrOutOfRange. -/
def Obligations.EobSetsThePullMachineUp : Prop :=
  ∀ (s : State) (m : Nat) (f : Byte), s.dec.yy.length = 256 → s.MemoriesInv → s.FillingInv →
    s.blk.last + 1 = (m : Int) → m + s.dec.runS ≤ s.capacity → s.capacity ≤ maxCapacity →
    (∀ y, s.dec.yy[0]? = some y → f = s.tab.seqToUnseq.read y.toNat) →
    ∃ t, exec .eob s = .next t ∧
      t.blk.last = s.blk.last + s.dec.runS ∧
      (∀ p, t.blk.ll8.read p = if m ≤ p ∧ p < m + s.dec.runS then f else s.blk.ll8.read p) ∧
      (∀ v, t.blk.unzftab.read v = s.blk.unzftab.read v + if v = f.toNat then s.dec.runS else 0) ∧
      (s.hdr.origPtr < m + s.dec.runS → (∀ k < m + s.dec.runS, t.blk.tt.read k < m + s.dec.runS) ∧
        (∀ j k, j < k → k < m + s.dec.runS →
          (t.blk.ll8.read (t.blk.tt.read j)).toNat < (t.blk.ll8.read (t.blk.tt.read k)).toNat ∨
          (t.blk.ll8.read (t.blk.tt.read j) = t.blk.ll8.read (t.blk.tt.read k) ∧
            t.blk.tt.read j < t.blk.tt.read k)) ∧ t = { s with
        crc := { s.crc with crcAcc := config.crcInit }
        dec := { s.dec with runS := 0, runN := if s.dec.runS = 0 then s.dec.runN else 1 }
        blk := t.blk
        pull := {
          tPos := t.blk.tt.read s.hdr.origPtr, i2 := 0, ch2 := none, chPrev := none, count := 0, z := 0
          j2 := 0, rNToGo := 0, rTPos := 0, randBit := none }
        ps := if s.hdr.blockRandomised then .randA else .noRandA
        phase := .pull }) ∧
      (m + s.dec.runS ≤ s.hdr.origPtr → t.fault = some .origPtrOutOfRange ∧
        t.responses = s.responses ++ [.err .origPtrOutOfRange] ∧ t.phase = .idle)

/-! ### Per-block set-up -/

/-- Rule R261: `cftab[0] = 0`, each next element adds a byte value's count, so `cftab[b]` counts the bytes of the
block smaller than `b` and the sentinel is the length of the block. -/
def Obligations.CumulativeTableCountsSmaller : Prop :=
  ∀ unzftab : Mem Nat,
    (cumulativeTable unzftab).read 0 = 0 ∧
    (∀ b < 256, (cumulativeTable unzftab).read (b + 1) = (cumulativeTable unzftab).read b + unzftab.read b) ∧
    ∀ (ll8 : Mem Byte) (n : Nat), (∀ v < 256, unzftab.read v = occurrences ll8 n v) →
      (∀ b ≤ 256, (cumulativeTable unzftab).read b =
        ((List.range n).filter fun i => decide ((ll8.read i).toNat < b)).length) ∧
      (cumulativeTable unzftab).read 256 = n

/-- Rule R262: `tt[0..last]` lists the indices of the block ordered by (byte value, index): it is a permutation of
0..last; elements above `last` keep what they held; `tPos` is `tt[origPtr]`; `cftab[b]` ends as `cftab[b + 1]` was. -/
def Obligations.TransformVectorIsSorted : Prop :=
  ∀ (s : State) (n : Nat), s.MemoriesInv → s.blk.last + 1 = (n : Int) → n ≤ maxCapacity →
    (∀ v < 256, s.blk.unzftab.read v = occurrences s.blk.ll8 n v) →
    ∃ t, buildTT s = .go t ∧
      (∀ k < n, t.blk.tt.read k < n) ∧ (∀ i < n, ∃ k < n, t.blk.tt.read k = i) ∧
      (∀ j k, j < k → k < n →
        (s.blk.ll8.read (t.blk.tt.read j)).toNat < (s.blk.ll8.read (t.blk.tt.read k)).toNat ∨
        (s.blk.ll8.read (t.blk.tt.read j) = s.blk.ll8.read (t.blk.tt.read k) ∧
          t.blk.tt.read j < t.blk.tt.read k)) ∧
      (∀ k, n ≤ k → t.blk.tt.read k = s.blk.tt.read k) ∧
      (∀ b < 256, t.blk.cftab.read b = (cumulativeTable s.blk.unzftab).read (b + 1)) ∧
      t = { s with
        blk := { s.blk with cftab := t.blk.cftab, tt := t.blk.tt }
        pull := { s.pull with tPos := t.blk.tt.read s.hdr.origPtr } }

/-! ### The pull machine -/

/-- Rules R266, R268 and R272: a data byte becomes `ch2`, the walk moves on, the next step is `XB`, the checksum takes
the byte, and the byte is given: alone in a READ, into the list in a READ_BULK. -/
def Obligations.LiteralGivesItsByte : Prop :=
  ∀ (s u : State) (v : Byte), s.pull.tPos < maxCapacity →
    u = { s with
      pull := { s.pull with
        tPos := s.blk.tt.read s.pull.tPos, i2 := s.pull.i2 + 1, chPrev := s.pull.ch2, ch2 := some v
        randBit := none }
      ps := if s.ps.isRand then .randB else .noRandB
      crc := { s.crc with crcAcc := config.crcStep s.crc.crcAcc v } } →
    (s.bulk = none → exec (.literal v) s = .next { u with
      responses := s.responses ++ [.byte v], phase := .idle }) ∧
    (∀ k, s.bulk = some k → k.got.length + 1 < k.wanted → exec (.literal v) s = .next { u with
      phase := .pull, bulk := some { k with got := k.got ++ [v] } }) ∧
    (∀ k, s.bulk = some k → k.wanted ≤ k.got.length + 1 → exec (.literal v) s = .next { u with
      responses := s.responses ++ [.data (k.got ++ [v])], phase := .idle, bulk := none })

/-- Rules R269 and R267: a count byte is kept and not given, and the repeats are due; one call of `RandStep()` moves
the count-down of the de-randomisation unit on. That the call is a step of its own, RANDMASK, and that its answer waits
in a latch, are the model's choice (notes/assumptions/8.md, DESIGN CHOICE: rule R267 has no latch). -/
def Obligations.CountByteAndMaskBit : Prop :=
  (∀ (s : State) (c : Byte), s.pull.tPos < maxCapacity →
    exec (.runCount c) s = .next { s with
      pull := { s.pull with
        tPos := s.blk.tt.read s.pull.tPos, i2 := s.pull.i2 + 1, count := s.pull.count + 1, z := c.toNat
        j2 := 0, randBit := none }
      ps := if s.ps.isRand then .randC else .noRandC }) ∧
  ∀ (s : State) (r : Bool),
    (0 < s.pull.rNToGo → exec (.randMask r) s = .next { s with
      pull := { s.pull with rNToGo := s.pull.rNToGo - 1, randBit := some r } }) ∧
    (s.pull.rNToGo = 0 → s.pull.rTPos < 511 → exec (.randMask r) s = .next { s with
      pull := { s.pull with
        rNToGo := config.randTable.getD s.pull.rTPos 0 - 1, rTPos := s.pull.rTPos + 1
        randBit := some r } }) ∧
    (s.pull.rNToGo = 0 → s.pull.rTPos = 511 → exec (.randMask r) s = .next { s with
      pull := { s.pull with
        rNToGo := config.randTable.getD 511 0 - 1, rTPos := 0, randBit := some r } })

/-- Rules R267 and R120: with the table the model takes (93_implementation_defined.md G5), the mask bit is 1 exactly
for the walk bytes number `T[0] + ... + T[q] - 2`, the table being used cyclically. -/
def Obligations.MaskBitsAtRunningSums : Prop :=
  ∀ n m : Nat, m < n →
    ((maskBits n 0 0)[m]? = some true ↔
      ∃ q, m + 2 = ((List.range (q + 1)).map fun i => config.randTable.getD (i % 512) 0).sum)

/-- Rules R269, R270 and R273: the transitions of `XB` and `XC` that take no byte from the walk. That RunCountMissing
leaves every register but `fault` as it was, `count` not increased, is the model's choice (notes/assumptions/4.md,
DESIGN CHOICE): rule R269 increases `count` before the `raise`, and rule R315 leaves open what it holds after it. -/
def Obligations.RunDetectionTransitions : Prop :=
  ∀ s : State, s.phase = .pull →
    (s.ps = .noRandB ∨ s.ps = .randB →
      (s.pull.ch2 ≠ s.pull.chPrev → step s = .next { s with
        pull := { s.pull with count := 1 }, ps := if s.ps.isRand then .randA else .noRandA }) ∧
      (s.pull.ch2 = s.pull.chPrev → s.pull.count + 1 < 4 → step s = .next { s with
        pull := { s.pull with count := s.pull.count + 1 }
        ps := if s.ps.isRand then .randA else .noRandA }) ∧
      (s.pull.ch2 = s.pull.chPrev → 4 ≤ s.pull.count + 1 → s.blk.last < (s.pull.i2 : Int) →
        step s = .next (s.raise .runCountMissing))) ∧
    (s.ps = .noRandC ∨ s.ps = .randC →
      (∀ b, s.pull.j2 < s.pull.z → s.pull.ch2 = some b → step s = .next
        (({ s with pull := { s.pull with j2 := s.pull.j2 + 1 } } : State).output b)) ∧
      (s.pull.z ≤ s.pull.j2 → step s = .next { s with
        pull := { s.pull with count := 0 }, ps := if s.ps.isRand then .randA else .noRandA }))

/-- Rule R271: at the end of a block the computed CRC is kept and compared; equal folds it into the combined CRC and
returns to `StartBlock` without a response, different raises BlockCrcMismatch. -/
def Obligations.EndOfBlockChecksItsCrc : Prop :=
  ∀ s : State, s.phase = .pull → s.ps = .noRandA ∨ s.ps = .randA → s.blk.last < (s.pull.i2 : Int) →
    (config.crcFinal s.crc.crcAcc = s.crc.storedBlockCRC → step s = .next { s with
      crc := { s.crc with
        computedBlockCRC := config.crcFinal s.crc.crcAcc
        computedCombinedCRC := s.crc.computedCombinedCRC.rotateLeft 1 ^^^ config.crcFinal s.crc.crcAcc }
      ps := .startBlock }) ∧
    (config.crcFinal s.crc.crcAcc ≠ s.crc.storedBlockCRC → step s = .next
      (({ s with crc := { s.crc with computedBlockCRC := config.crcFinal s.crc.crcAcc } } : State).raise
        .blockCrcMismatch))

/-- Rule R272: whenever a step gives a byte, the same step has updated the checksum with it, and it is a step of `XA`
or `XC` that touches no stream bit. -/
def Obligations.EveryByteGivenUpdatesTheChecksum : Prop :=
  ∀ (s t : State) (b : Byte), step s = .next t →
    (t.responses = s.responses ++ [.byte b] ∨
      (∃ k, s.bulk = some k ∧ s.phase ≠ .idle ∧ (t.bulk = some { k with got := k.got ++ [b] } ∨
        t.responses = s.responses ++ [.data (k.got ++ [b])]))) →
    t.crc = { s.crc with crcAcc := config.crcStep s.crc.crcAcc b } ∧ t.cur = s.cur ∧
    (s.ps = .noRandA ∨ s.ps = .randA ∨ s.ps = .noRandC ∨ s.ps = .randC)

/-- Rules R264, R176, R208 and R327: inside a block the pull machine reads no stream bit, writes no block buffer and no table,
and stays in its family until the block ends. -/
def Obligations.OutputPhaseTouchesNoStream : Prop :=
  ∀ s t : State, s.phase = .pull → s.ps ≠ .startBlock → step s = .next t →
    t.cur = s.cur ∧ t.blk = s.blk ∧ t.tab = s.tab ∧ t.dec = s.dec ∧ t.hdr = s.hdr ∧
    (t.ps = .startBlock ∨ (t.ps ≠ .startBlock ∧ t.ps.isRand = s.ps.isRand))

/-- Rule R275: the bytes a READ_BULK gathers from the rest of a block, from `XA` on, are `expand` of the unmasked
bytes of the walk; the checksum has taken exactly those bytes; then either the block is at its end, or the next
step raises RunCountMissing. That RunCountMissing leaves every register but `fault` as it was, `count` not increased, is
the model's choice (notes/assumptions/4.md, DESIGN CHOICE): rule R269 increases `count` before the `raise`, and rule
R315 leaves open what it holds after it. -/
def Obligations.BlockOutputIsItsExpansion : Prop :=
  ∀ (s : State) (k : Bulk) (out : List Byte) (short : Bool), s.Inv → s.phase = .pull →
    s.ps = .noRandA ∨ s.ps = .randA → s.pull.randBit = none → s.bulk = some k →
    (out, short) = expandRuns (s.content (s.blk.last + 1 - s.pull.i2).toNat) s.pull.ch2 s.pull.count →
    k.got.length + out.length < k.wanted →
    ∃ j t, run j s = .next t ∧ t.bulk = some { k with got := k.got ++ out } ∧
      t.responses = s.responses ∧ t.phase = .pull ∧ t.cur = s.cur ∧ (t.pull.i2 : Int) = s.blk.last + 1 ∧
      t.crc = { s.crc with crcAcc := out.foldl config.crcStep s.crc.crcAcc } ∧
      (short = false → t.ps = s.ps) ∧ (short = true → step t = .next (t.raise .runCountMissing))

/-! ### The checksum unit -/

/-- Rule R300: the three requests, for any configuration. Rule R301: with the default CRC_INIT, CRC_STEP and CRC_FINAL
(notes/assumptions/3.md, PRESUMED) the byte-at-a-time table form of CRC_STEP, and the eight check values the rule lists
(no byte, `00`, `FF`, `41` with its `crcAcc`, `123456789`, ten `41`, `banana`, seven `5A`). -/
def Obligations.ChecksumUnitOfTheSpec : Prop :=
  (∀ (cfg : Config) (s : State) (b : Byte),
    s.crcReset cfg = { s with crc := { s.crc with crcAcc := cfg.crcInit } } ∧
    s.crcUpdate b cfg = { s with crc := { s.crc with crcAcc := cfg.crcStep s.crc.crcAcc b } } ∧
    s.crcValue cfg = cfg.crcFinal s.crc.crcAcc) ∧
  (∀ (c : Word) (b : Byte), config.crcStep c b =
    (c <<< 8) ^^^ crcShifts 8 ((c >>> 24 ^^^ b.setWidth 32) <<< 24)) ∧
  config.crcFinal config.crcInit = 0x00000000#32 ∧
  config.crcFinal ([0x00#8].foldl config.crcStep config.crcInit) = 0xB1F7404B#32 ∧
  config.crcFinal ([0xFF#8].foldl config.crcStep config.crcInit) = 0x000000FF#32 ∧
  config.crcStep config.crcInit 0x41#8 = 0x7E4FD274#32 ∧
  config.crcFinal ([0x41#8].foldl config.crcStep config.crcInit) = 0x81B02D8B#32 ∧
  config.crcFinal ([0x31#8, 0x32#8, 0x33#8, 0x34#8, 0x35#8, 0x36#8, 0x37#8, 0x38#8, 0x39#8].foldl
    config.crcStep config.crcInit) = 0xFC891918#32 ∧
  config.crcFinal ((List.replicate 10 0x41#8).foldl config.crcStep config.crcInit) = 0xA2F84F0E#32 ∧
  config.crcFinal ([0x62#8, 0x61#8, 0x6E#8, 0x61#8, 0x6E#8, 0x61#8].foldl config.crcStep config.crcInit) =
    0xEFB6EC01#32 ∧
  config.crcFinal ((List.replicate 7 0x5A#8).foldl config.crcStep config.crcInit) = 0x173B70D3#32

end Statements
end

