-- ==== Sys2Proof/Laws/BitReader.lean ====
section
/-! SUPPORT. What the bit reader does, said in terms of the bits the cursor has not consumed yet. -/

namespace Sys2Proof

@[simp] theorem byteBits_length (b : Byte) : (byteBits b).length = 8 := by simp [byteBits]

@[simp] theorem fieldBits_length (w v : Nat) : (fieldBits w v).length = w := by simp [fieldBits]

/-- The first `w` bits of a field are its top bits: a field is its first bit and the field of the rest. -/
theorem fieldBits_succ (w v : Nat) : fieldBits (w + 1) v = v.testBit w :: fieldBits w v := by
  simp only [fieldBits, List.range_succ_eq_map, List.map_cons, List.map_map, List.cons.injEq]
  refine ⟨by simp, List.map_congr_left fun k _ => ?_⟩
  simp only [Function.comp]
  congr 1
  omega

/-- Reading a field most significant bit first: the value so far is shifted up by the width. -/
theorem foldl_bits (bs : List Bool) (v : Nat) :
    bs.foldl (fun v b => 2 * v + b.toNat) v = v * 2 ^ bs.length + bitsValue bs := by
  unfold bitsValue
  induction bs generalizing v with
  | nil => simp
  | cons b bs ih =>
    rw [List.foldl_cons, ih, List.foldl_cons, ih (2 * 0 + b.toNat), List.length_cons]
    ring

theorem bitsValue_cons (b : Bool) (bs : List Bool) :
    bitsValue (b :: bs) = b.toNat * 2 ^ bs.length + bitsValue bs := by
  show bs.foldl _ _ = _
  rw [foldl_bits]
  simp

theorem bitsValue_append (as bs : List Bool) :
    bitsValue (as ++ bs) = bitsValue as * 2 ^ bs.length + bitsValue bs := by
  rw [bitsValue, List.foldl_append, foldl_bits]; rfl

theorem bitsValue_lt (bs : List Bool) : bitsValue bs < 2 ^ bs.length := by
  induction bs with
  | nil => simp [bitsValue]
  | cons b bs ih =>
    rw [bitsValue_cons, List.length_cons, pow_succ]
    cases b <;> simp <;> omega

/-- The value of the field of a value is the value, cut to the width. -/
theorem bitsValue_fieldBits (w v : Nat) : bitsValue (fieldBits w v) = v % 2 ^ w := by
  induction w with
  | zero => simp [fieldBits, bitsValue, Nat.mod_one]
  | succ w ih =>
    rw [fieldBits_succ, bitsValue_cons, ih, fieldBits_length, Nat.mod_pow_succ, Nat.testBit_eq_decide_div_mod_eq]
    rcases Nat.mod_two_eq_zero_or_one (v / 2 ^ w) with h | h <;> simp [h]; omega

/-- A field is determined by its bits: the field of the value of a bit list is that list. -/
theorem fieldBits_bitsValue (bs : List Bool) : fieldBits bs.length (bitsValue bs) = bs := by
  induction bs with
  | nil => rfl
  | cons b bs ih =>
    have hlt := bitsValue_lt bs
    rw [List.length_cons, fieldBits_succ, bitsValue_cons]
    congr 1
    · cases b
      · simp only [Bool.toNat_false, Nat.zero_mul, Nat.zero_add]; exact Nat.testBit_lt_two_pow hlt
      · simp only [Bool.toNat_true, Nat.one_mul]
        rw [Nat.testBit_two_pow_add_eq]; simp [Nat.testBit_lt_two_pow hlt]
    · conv_rhs => rw [← ih]
      refine List.map_congr_left fun k hk => ?_
      have hk : k < bs.length := List.mem_range.1 hk
      cases b
      · simp
      · simp only [Bool.toNat_true, Nat.one_mul]
        rw [Nat.testBit_two_pow_add_gt (by omega)]

/-- A byte's bits are the 8-bit field of its value. -/
theorem byteBits_eq_fieldBits (b : Byte) : byteBits b = fieldBits 8 b.toNat := by
  refine List.map_congr_left fun k hk => ?_
  have hk : k < 8 := List.mem_range.1 hk
  rw [BitVec.getMsbD]; simp [hk, BitVec.getLsbD]

theorem flatMap_byteBits_length (bs : List Byte) : (bs.flatMap byteBits).length = 8 * bs.length := by
  induction bs with
  | nil => rfl
  | cons b bs ih => rw [List.flatMap_cons, List.length_append, ih, byteBits_length, List.length_cons]; omega

/-- Bit `k` of a byte sequence in stream order (rule R11). -/
theorem getElem?_flatMap_byteBits (bs : List Byte) (k : Nat) :
    (bs.flatMap byteBits)[k]? = streamBit bs k := by
  induction bs generalizing k with
  | nil => simp [streamBit]
  | cons b bs ih =>
    rw [List.flatMap_cons, streamBit]
    by_cases hk : k < 8
    · rw [List.getElem?_append_left (by simpa using hk)]
      have : k / 8 = 0 := by omega
      have h8 : k % 8 = k := by omega
      simp [this, h8, byteBits, hk]
    · rw [List.getElem?_append_right (by simpa using hk), byteBits_length, ih, streamBit]
      have : k / 8 = (k - 8) / 8 + 1 := by omega
      have h8 : (k - 8) % 8 = k % 8 := by omega
      rw [this, List.getElem?_cons_succ, h8]

namespace BitCursor

/-- What a read leaves alone and how far it moves: `c'` is `c` after `n` bits. -/
structure Reads (c : BitCursor) (n : Nat) (c' : BitCursor) : Prop where
  src : c'.src = c.src
  le : c.srcPos ≤ c'.srcPos
  wf : c.Wf → c'.Wf ∧ c'.pos = c.pos + n

theorem Reads.refl (c : BitCursor) : c.Reads 0 c := ⟨rfl, le_rfl, fun h => ⟨h, rfl⟩⟩

theorem Reads.trans {c c' c'' : BitCursor} {m n : Nat} (h : c.Reads m c') (h' : c'.Reads n c'') :
    c.Reads (m + n) c'' := by
  refine ⟨h'.src.trans h.src, h.le.trans h'.le, fun hw => ?_⟩
  obtain ⟨h1, h2⟩ := h.wf hw
  obtain ⟨h3, h4⟩ := h'.wf h1
  exact ⟨h3, by omega⟩

theorem bits_live (c : BitCursor) {n : Nat} (h : c.bsLive = n + 1) :
    c.bits = c.bsBuff.getLsbD n :: ({ c with bsLive := n } : BitCursor).bits := by
  simp only [bits, h, List.range_succ_eq_map, List.map_cons, List.map_map, List.cons_append]
  congr 2
  exact List.map_congr_left fun k _ => by simp only [Function.comp]; congr 1; omega

theorem load_getLsbD (b : Byte) (c : BitCursor) {k : Nat} (hk : k < 8) :
    (c.load b).bsBuff.getLsbD k = b.getLsbD k := by
  simp only [load]
  rw [BitVec.getLsbD_append]
  simp [hk]

theorem bits_next (c : BitCursor) {b : Byte} (h : c.bsLive = 0) (hb : c.src[c.srcPos]? = some b) :
    c.bits = (({ c with srcPos := c.srcPos + 1 } : BitCursor).load b).bits := by
  obtain ⟨hlt, hget⟩ := List.getElem?_eq_some_iff.1 hb
  have e : c.src.drop c.srcPos = b :: c.src.drop (c.srcPos + 1) := by
    rw [← hget]; exact List.drop_eq_getElem_cons hlt
  rw [bits, h, e]
  simp only [List.range_zero, List.map_nil, List.nil_append, List.flatMap_cons]
  show byteBits b ++ _ = (List.range 8).map _ ++ _
  congr 1
  exact List.map_congr_left fun k hk => by
    have : k < 8 := List.mem_range.1 hk
    show _ = (BitCursor.load b _).bsBuff.getLsbD (8 - 1 - k)
    rw [load_getLsbD _ _ (by omega), BitVec.getMsbD]
    simp [this]

theorem bits_end (c : BitCursor) (h : c.bsLive = 0) (hb : c.src[c.srcPos]? = none) : c.bits = [] := by
  rw [bits, h, List.drop_eq_nil_of_le (List.getElem?_eq_none_iff.1 hb)]
  rfl

/-- The 9 bits of an answer mean that answer (rule R103). -/
@[simp] theorem ofCode_code (a : SrcAnswer) : SrcAnswer.ofCode a.code = a := by
  cases a with
  | eod => rfl
  | byte b =>
    have h : (b.setWidth 9).extractLsb' 0 8 = b := by
      apply BitVec.eq_of_getLsbD_eq
      intro k hk
      simp [hk, show k < 9 by omega]
    simp [SrcAnswer.ofCode, SrcAnswer.code, h]

/-- Bit 8 set is `eod`, whatever the low bits are (rule R103). -/
theorem ofCode_of_high {ans : BitVec 9} (h : ans.getLsbD 8 = true) : SrcAnswer.ofCode ans = .eod := if_pos h

/-- A byte is left: it is delivered. -/
theorem next_of_byte {c : BitCursor} {b : Byte} (h : c.src[c.srcPos]? = some b) :
    c.next = (.byte b, { c with srcPos := c.srcPos + 1 }) := by
  simp [next, answer, h]

/-- No byte is left: the answer is `eod`, for ever. -/
theorem next_of_end {c : BitCursor} (h : c.src[c.srcPos]? = none) : c.next = (.eod, c) := by
  simp [next, answer, h]

theorem take_reads (c : BitCursor) {n : Nat} (h : c.bsLive = n + 1) :
    c.take = .ok (c.bsBuff.getLsbD n).toNat { c with bsLive := n } := by simp [take, h]

/-- One bit read: the first bit not consumed yet. -/
theorem readBit_of_bits {c : BitCursor} {b : Bool} {rest : List Bool} (h : c.bits = b :: rest) :
    ∃ c', c.readBit = .ok b.toNat c' ∧ c'.bits = rest ∧ c.Reads 1 c' := by
  rcases hl : c.bsLive with _ | n
  · cases hb : c.src[c.srcPos]? with
    | none => rw [bits_end c hl hb] at h; cases h
    | some y =>
      set d := (({ c with srcPos := c.srcPos + 1 } : BitCursor).load y) with hd
      have hdl : d.bsLive = 7 + 1 := rfl
      rw [bits_next c hl hb, ← hd, bits_live d hdl, List.cons.injEq] at h
      refine ⟨{ d with bsLive := 7 }, ?_, h.2, rfl, by simp [hd, load], fun hw => ⟨⟨by simp, ?_, ?_⟩, ?_⟩⟩
      · rw [readBit, if_pos hl, next_of_byte hb]; simp only; rw [← hd, take_reads d hdl, h.1]
      · obtain ⟨hlt, -⟩ := List.getElem?_eq_some_iff.1 hb; simp [hd, load]; omega
      · intro k hk
        refine ⟨y, by simpa [hd, load] using hb, by simp [hd, load], ?_⟩
        exact load_getLsbD y _ (by have : k < 7 := hk; omega)
      · simp only [pos, hl, hd, load]; omega
  · rw [bits_live c hl, List.cons.injEq] at h
    refine ⟨{ c with bsLive := n }, ?_, h.2, rfl, le_rfl, fun hw => ⟨⟨?_, hw.pos, ?_⟩, ?_⟩⟩
    · rw [readBit, if_neg (by omega), take_reads c hl, h.1]
    · have := hw.live; simp only; omega
    · intro k hk; exact hw.tail k (by have : k < n := hk; omega)
    · obtain ⟨-, -, hp, -⟩ := hw.tail 0 (by omega)
      have := hw.live
      simp only [pos, hl]; omega

/-- No bit left: the answer is `eod`, nothing moves. -/
theorem readBit_of_nil {c : BitCursor} (h : c.bits = []) : c.readBit = .eod c := by
  rcases hl : c.bsLive with _ | n
  · cases hb : c.src[c.srcPos]? with
    | none => rw [readBit, if_pos hl, next_of_end hb]
    | some y => rw [bits_next c hl hb, bits_live _ (n := 7) rfl] at h; cases h
  · rw [bits_live c hl] at h; cases h

/-- `n` bits read: the value of the next `n` bits, appended to the value so far. -/
theorem readFrom_of_bits {n : Nat} {c : BitCursor} {bs rest : List Bool} (v : Nat)
    (h : c.bits = bs ++ rest) (hn : bs.length = n) :
    ∃ c', c.readFrom n v = .ok (v * 2 ^ n + bitsValue bs) c' ∧ c'.bits = rest ∧ c.Reads n c' := by
  induction n generalizing c bs v with
  | zero =>
    obtain rfl := List.length_eq_zero_iff.1 hn
    exact ⟨c, by simp [readFrom, bitsValue], h, Reads.refl c⟩
  | succ n ih =>
    obtain ⟨b, bs, rfl⟩ := List.exists_cons_of_length_eq_add_one hn
    obtain ⟨c', h1, h2, h3⟩ := readBit_of_bits h
    obtain ⟨c'', h4, h5, h6⟩ := ih (2 * v + b.toNat) h2 (by simpa using hn)
    refine ⟨c'', ?_, h5, by simpa [Nat.add_comm] using h3.trans h6⟩
    rw [readFrom, h1]
    simp only
    rw [h4, bitsValue_cons, show bs.length = n by simpa using hn]
    congr 1
    ring

/-- Fewer than `n` bits left: `eod`, with every bit consumed. -/
theorem readFrom_of_short {n : Nat} {c : BitCursor} (v : Nat) (h : c.bits.length < n) :
    ∃ c', c.readFrom n v = .eod c' ∧ c'.bits = [] ∧ c.Reads c.bits.length c' := by
  induction n generalizing c v with
  | zero => omega
  | succ n ih =>
    cases hb : c.bits with
    | nil =>
      refine ⟨c, ?_, hb, Reads.refl c⟩
      rw [readFrom, readBit_of_nil hb]
    | cons b rest =>
      obtain ⟨c', h1, h2, h3⟩ := readBit_of_bits hb
      rw [hb, List.length_cons] at h
      obtain ⟨c'', h4, h5, h6⟩ := ih (2 * v + b.toNat) (by rw [h2]; omega : c'.bits.length < n)
      refine ⟨c'', by rw [readFrom, h1]; exact h4, h5, ?_⟩
      rw [h2] at h6
      simpa [Nat.add_comm] using h3.trans h6

/-- `readBits(n)` in its domain. -/
theorem readBits_of_bits {n : Nat} {c : BitCursor} {bs rest : List Bool} (h0 : 1 ≤ n) (h32 : n ≤ 32)
    (h : c.bits = bs ++ rest) (hn : bs.length = n) :
    ∃ c', c.readBits n = .ok (bitsValue bs) c' ∧ c'.bits = rest ∧ c.Reads n c' := by
  obtain ⟨c', h1, h2⟩ := readFrom_of_bits 0 h hn
  refine ⟨c', ?_, h2⟩
  rw [readBits, if_neg (by omega), h1]
  simp

theorem readBits_of_short {n : Nat} {c : BitCursor} (h32 : n ≤ 32) (h : c.bits.length < n) :
    ∃ c', c.readBits n = .eod c' ∧ c'.bits = [] ∧ c.Reads c.bits.length c' := by
  rw [readBits, if_neg (by omega)]
  exact readFrom_of_short 0 h

/-- Everything `readBits` can answer in its domain. -/
theorem readBits_cases {n : Nat} (c : BitCursor) (h0 : 1 ≤ n) (h32 : n ≤ 32) :
    (∃ bs rest c', bs.length = n ∧ c.bits = bs ++ rest ∧ c.readBits n = .ok (bitsValue bs) c' ∧
      c'.bits = rest ∧ c.Reads n c') ∨
    (c.bits.length < n ∧ ∃ c', c.readBits n = .eod c' ∧ c'.bits = [] ∧ c.Reads c.bits.length c') := by
  by_cases h : n ≤ c.bits.length
  · have hl : (c.bits.take n).length = n := by simp [h]
    obtain ⟨c', h1⟩ := readBits_of_bits h0 h32 (List.take_append_drop n c.bits).symm hl
    exact Or.inl ⟨_, _, c', hl, (List.take_append_drop n c.bits).symm, h1⟩
  · exact Or.inr ⟨by omega, readBits_of_short h32 (by omega)⟩

/-- `n` bytes read big-endian. -/
theorem readBytes_of_bits {n : Nat} {c : BitCursor} {bs rest : List Bool} (m : Nat)
    (h : c.bits = bs ++ rest) (hn : bs.length = 8 * n) :
    ∃ c', c.readBytes n m = .ok (m * 2 ^ (8 * n) + bitsValue bs) c' ∧ c'.bits = rest ∧
      c.Reads (8 * n) c' := by
  induction n generalizing c bs m with
  | zero =>
    obtain rfl := List.length_eq_zero_iff.1 hn
    exact ⟨c, by simp [readBytes, bitsValue], h, Reads.refl c⟩
  | succ n ih =>
    have hsplit : c.bits = bs.take 8 ++ (bs.drop 8 ++ rest) := by
      rw [← List.append_assoc, List.take_append_drop, h]
    have h8 : (bs.take 8).length = 8 := by simp; omega
    obtain ⟨c', h1, h2, h3⟩ := readBits_of_bits (by omega) (by omega) hsplit h8
    have hd : (bs.drop 8).length = 8 * n := by simp; omega
    obtain ⟨c'', h4, h5, h6⟩ := ih (256 * m + bitsValue (bs.take 8)) h2 hd
    refine ⟨c'', ?_, h5, by simpa [Nat.mul_add, Nat.add_comm] using h3.trans h6⟩
    rw [readBytes, readByte, h1]
    simp only
    have hb : bitsValue bs = bitsValue (bs.take 8) * 2 ^ (8 * n) + bitsValue (bs.drop 8) := by
      conv_lhs => rw [← List.take_append_drop 8 bs]
      rw [bitsValue_append, hd]
    rw [h4, hb]
    congr 1
    rw [Nat.mul_add 8 n 1, pow_add]
    ring

/-- Fewer than `8 * n` bits left: `eod`. -/
theorem readBytes_of_short {n : Nat} {c : BitCursor} (m : Nat) (h : c.bits.length < 8 * n) :
    ∃ c', c.readBytes n m = .eod c' ∧ c.Reads c.bits.length c' := by
  induction n generalizing c m with
  | zero => omega
  | succ n ih =>
    rcases readBits_cases (n := 8) c (by omega) (by omega) with
      ⟨bs, rest, c', hl, hb, h1, h2, h3⟩ | ⟨hlt, c', h1, -, h3⟩
    · have hr : c.bits.length = 8 + rest.length := by rw [hb]; simp [hl]
      obtain ⟨c'', h4, h5⟩ := ih (256 * m + bitsValue bs) (by rw [h2]; omega : c'.bits.length < 8 * n)
      refine ⟨c'', by rw [readBytes, readByte, h1]; exact h4, ?_⟩
      rw [h2] at h5
      rw [hr]
      exact h3.trans h5
    · exact ⟨c', by rw [readBytes, readByte, h1], h3⟩

/-- Everything `readBytes` can answer. -/
theorem readBytes_cases (n m : Nat) (c : BitCursor) :
    (∃ bs rest c', bs.length = 8 * n ∧ c.bits = bs ++ rest ∧
      c.readBytes n m = .ok (m * 2 ^ (8 * n) + bitsValue bs) c' ∧ c'.bits = rest ∧ c.Reads (8 * n) c') ∨
    (c.bits.length < 8 * n ∧ ∃ c', c.readBytes n m = .eod c' ∧ c.Reads c.bits.length c') := by
  by_cases h : 8 * n ≤ c.bits.length
  · have hl : (c.bits.take (8 * n)).length = 8 * n := by simp [h]
    obtain ⟨c', h1⟩ := readBytes_of_bits m (List.take_append_drop (8 * n) c.bits).symm hl
    exact Or.inl ⟨_, _, c', hl, (List.take_append_drop _ c.bits).symm, h1⟩
  · exact Or.inr ⟨by omega, readBytes_of_short m (by omega)⟩

/-- How many bits are left. -/
theorem Wf.length_bits {c : BitCursor} (h : c.Wf) : c.bits.length = 8 * c.src.length - c.pos := by
  have h1 := h.live; have h2 := h.pos
  rw [bits, List.length_append, flatMap_byteBits_length]
  simp only [List.length_map, List.length_range, List.length_drop, BitCursor.pos]
  by_cases h0 : c.bsLive = 0
  · omega
  · obtain ⟨_, _, h3, _⟩ := h.tail 0 (by omega); omega

/-- The bits left are the stream's bits from the position on. -/
theorem Wf.getElem?_bits {c : BitCursor} (h : c.Wf) (k : Nat) : c.bits[k]? = streamBit c.src (c.pos + k) := by
  have h1 := h.live; have h2 := h.pos
  rw [bits]
  by_cases hk : k < c.bsLive
  · obtain ⟨b, hb, h3, h4⟩ := h.tail (c.bsLive - 1 - k) (by omega)
    rw [List.getElem?_append_left (by simpa using hk)]
    have e : (c.pos + k) / 8 = c.srcPos - 1 := by simp only [BitCursor.pos]; omega
    rw [streamBit, e, hb]
    simp only [List.getElem?_map, List.getElem?_range hk, Option.map_some, h4, Option.some.injEq]
    rw [BitVec.getMsbD]
    have : (c.pos + k) % 8 = 8 - c.bsLive + k := by simp only [BitCursor.pos]; omega
    rw [this]; simp only [show 8 - c.bsLive + k < 8 by omega, decide_true, Bool.true_and]
    congr 1; omega
  · rw [List.getElem?_append_right (by simpa using hk), getElem?_flatMap_byteBits]
    simp only [List.length_map, List.length_range]
    rw [streamBit, streamBit, List.getElem?_drop]
    have hp : c.pos + k = 8 * c.srcPos + (k - c.bsLive) := by
      simp only [BitCursor.pos]
      by_cases h0 : c.bsLive = 0
      · omega
      · obtain ⟨_, _, h3, _⟩ := h.tail 0 (by omega); omega
    have e1 : (c.pos + k) / 8 = c.srcPos + (k - c.bsLive) / 8 := by omega
    have e2 : (c.pos + k) % 8 = (k - c.bsLive) % 8 := by omega
    rw [e1, e2]

/-- Laziness (rule R172): how many bytes have been requested at a position. -/
theorem Wf.srcPos_eq {c : BitCursor} (h : c.Wf) : c.srcPos = (c.pos + 7) / 8 ∧ c.bsLive = 8 * c.srcPos - c.pos := by
  have h1 := h.live
  simp only [BitCursor.pos]
  by_cases h0 : c.bsLive = 0
  · omega
  · obtain ⟨_, _, h3, _⟩ := h.tail 0 (by omega); omega
/-- Reading in two pieces (rule R175). -/
theorem readFrom_add (a b v : Nat) (c : BitCursor) : c.readFrom (a + b) v = match c.readFrom a v with
    | .ok x c' => c'.readFrom b x
    | r => r := by
  induction a generalizing v c with
  | zero => simp [readFrom]
  | succ a ih =>
    rw [show a + 1 + b = (a + b) + 1 by omega, readFrom, readFrom]
    cases h : c.readBit with
    | ok x c' => simp only; exact ih _ _
    | eod c' => rfl
    | badWidth n => rfl

/-- The bits read so far only shift up. -/
theorem readFrom_value (n v : Nat) (c : BitCursor) : c.readFrom n v = match c.readFrom n 0 with
    | .ok x c' => .ok (v * 2 ^ n + x) c'
    | r => r := by
  induction n generalizing v c with
  | zero => simp [readFrom]
  | succ n ih =>
    rw [readFrom, readFrom]
    cases h : c.readBit with
    | ok x c' =>
      simp only
      rw [ih (2 * v + x), ih (2 * 0 + x)]
      cases c'.readFrom n 0 <;> simp only [BitRead.ok.injEq, and_true]
      ring
    | eod c' => rfl
    | badWidth n => rfl

end BitCursor

end Sys2Proof
end

