-- ==== Sys2Proof/Machine/Configured.lean ====
section
/-! DEFINITION. The machine of any configuration (00_scope.md rule R7: "A model must take each as an
argument"). Every definition that reads a parameter takes the configuration record as its last argument, with
`config`, the defaults of rule R7, where none is given; here are the instruction, the step and the reset of a machine
with the configuration `cfg`. `exec`, `step` and `State.reset` are these at `config` (Laws/Configured.lean). -/

namespace Sys2Proof.Machine

/-- The meaning of an instruction on a machine with the configuration `cfg`: the arms that read a parameter are
given it, no other depends on it. -/
def execWith (cfg : Config) (i : Instr) (s : State) : Result :=
  match i with
  | .streamHdr h3 => execStreamHdr h3 s cfg
  | .nSelectors n => execNSelectors n s cfg
  | .selector j => execSelector j s cfg
  | .eob => execEob s cfg
  | .literal v => execLiteral v s cfg
  | .randMask r => execRandMask r s cfg
  | .start _ | .read _ | .readBulk _ | .write _ | .seek _ | .setLength _ | .getLength _ | .close _
  | .blockMagic | .endMagic | .blockCrc _ | .randomised _ | .origPtr _ | .inUse16 _ | .inUseRow _
  | .nGroups _ | .startLen _ | .lenStop | .lenInc | .lenDec | .combinedCrc _ | .runA | .runB | .mtfv _
  | .runCount _ => exec i s

/-- What was found due, carried out on a machine with the configuration `cfg`. -/
def Fetched.outcomeWith (cfg : Config) : Fetched → Result
  | .instr i s => execWith cfg i s
  | .done s => .next s
  | .stop u => Stop.result u
  | .noByte => .fault .noByteToRepeat

/-- One step of a machine with the configuration `cfg`. -/
def stepWith (cfg : Config) (s : State) : Result := (fetch s cfg).outcomeWith cfg

/-- The state after reset of a machine with the configuration `cfg` (rule R46: `computedCombinedCRC` is
COMBINED_INIT). -/
def State.resetOf (cfg : Config) : State := State.resetWith [] [] cfg

end Sys2Proof.Machine
end

