-- ==== Sys2Proof/Laws/Configured.lean ====
section
/-! SUPPORT. The machine the package states its claims about is the one of `config` (00_scope.md rule R7), and what a
configuration can change. -/

namespace Sys2Proof.Machine

@[simp] theorem execWith_config (i : Instr) (s : State) : execWith config i s = exec i s := by cases i <;> rfl

@[simp] theorem outcomeWith_config (f : Fetched) : f.outcomeWith config = f.outcome := by
  cases f with
  | instr i s => exact execWith_config i s
  | done s => rfl
  | stop u => rfl
  | noByte => rfl

/-- The step of the package is the step at the defaults. -/
@[simp] theorem stepWith_config (s : State) : stepWith config s = step s := outcomeWith_config _

@[simp] theorem resetOf_config : State.resetOf config = State.reset := rfl

/-- A host command means the same on every configuration. -/
theorem execWith_decodeCommand (cfg : Config) (w : CmdWord) (s : State) :
    execWith cfg (decodeCommand w) s = exec (decodeCommand w) s := by
  unfold decodeCommand
  split <;> rfl

/-- At rest a step is the same on every configuration: a parameter is read only inside a command. -/
theorem stepWith_of_idle {s : State} (h : s.phase = .idle) (cfg : Config) : stepWith cfg s = step s := by
  have hf : ∀ c, fetch s c = fetchCommand s := fun c => by rw [fetch, h]
  rw [stepWith, step, hf, hf, fetchCommand]
  cases s.cmds with
  | nil => rfl
  | cons w ws => exact execWith_decodeCommand cfg w _

end Sys2Proof.Machine
end

