-- ==== Sys2Proof/Laws/Mem.lean ====
section
/-! SUPPORT. What the memory operations do: each keeps the canonical form, and a read after a write gives the
value written at the element written and the old value at every other. -/

namespace Sys2Proof.Mem

variable {α : Type} [Inhabited α]

@[simp] theorem read_nil (i : Nat) : read ([] : Mem α) i = blank := rfl

theorem read_cons (a : Nat) (v : α) (m : Mem α) (i : Nat) :
    read ((a, v) :: m) i = if i < a then blank else if i = a then v else read m i := rfl

/-- An element below every listed index is unlisted. -/
theorem read_eq_blank_of_lt {m : Mem α} {i : Nat} (h : ∀ p ∈ m, i < p.1) : read m i = blank := by
  cases m with
  | nil => rfl
  | cons p m => rw [show p = (p.1, p.2) from rfl, read_cons, if_pos (h p (by simp))]

variable [DecidableEq α]

theorem wf_nil : wf ([] : Mem α) := by simp [wf]

theorem wf_cons {a : Nat} {v : α} {m : Mem α} :
    wf ((a, v) :: m) ↔ (∀ p ∈ m, a < p.1) ∧ v ≠ blank ∧ wf m := by
  simp only [wf, List.pairwise_cons, List.forall_mem_cons]
  tauto

/-- The indices a write can list: the old ones and its own. -/
theorem lt_of_mem_write {m : Mem α} {a i : Nat} {v : α} (ha : a < i) (h : ∀ p ∈ m, a < p.1) :
    ∀ p ∈ write m i v, a < p.1 := by
  induction m with
  | nil => intro p hp; simp only [write] at hp; split at hp <;> simp_all
  | cons q m ih =>
    obtain ⟨b, w⟩ := q
    have hb : a < b := h (b, w) (by simp)
    have ht : ∀ p ∈ m, a < p.1 := fun p hp => h p (by simp [hp])
    intro p hp
    simp only [write] at hp
    split at hp
    · split at hp
      · exact h p hp
      · rcases List.mem_cons.1 hp with rfl | hp
        · exact ha
        · exact h p hp
    · split at hp
      · split at hp
        · exact ht p hp
        · rcases List.mem_cons.1 hp with rfl | hp
          · exact ha
          · exact ht p hp
      · rcases List.mem_cons.1 hp with rfl | hp
        · exact hb
        · exact ih ht p hp

/-- A write keeps the canonical form. -/
theorem wf_write {m : Mem α} (h : m.wf) (i : Nat) (v : α) : (write m i v).wf := by
  induction m with
  | nil => simp only [write]; split <;> simp_all [wf]
  | cons p m ih =>
    obtain ⟨a, w⟩ := p
    obtain ⟨hlt, hw, hm⟩ := wf_cons.1 h
    simp only [write]
    split
    · split
      · exact h
      · next hia hv =>
        refine wf_cons.2 ⟨fun q hq => ?_, hv, h⟩
        rcases List.mem_cons.1 hq with rfl | hq
        · exact hia
        · exact hia.trans (hlt q hq)
    · split
      · split
        · exact hm
        · next _ hia hv => exact wf_cons.2 ⟨fun q hq => hia ▸ hlt q hq, hv, hm⟩
      · exact wf_cons.2 ⟨lt_of_mem_write (by omega) hlt, hw, ih hm⟩

/-- Read after write. -/
theorem read_write {m : Mem α} (h : m.wf) (i : Nat) (v : α) (j : Nat) :
    read (write m i v) j = if j = i then v else read m j := by
  induction m with
  | nil =>
    simp only [write]
    split
    · next hv => simp [hv]
    · rw [read_cons]; simp only [read_nil]; split
      · rw [if_neg (by omega)]
      · rfl
  | cons p m ih =>
    obtain ⟨a, w⟩ := p
    obtain ⟨hlt, -, hm⟩ := wf_cons.1 h
    simp only [write]
    split
    · next hia =>
      split
      · next hv =>
        split
        · next hj => subst hj; rw [read_cons, if_pos hia, hv]
        · rfl
      · rw [read_cons i]
        split
        · next hji => rw [if_neg (by omega), read_cons, if_pos (by omega)]
        · rfl
    · next hia =>
      split
      · next he =>
        subst he
        split
        · next hv =>
          split
          · next hj =>
            subst hj
            rw [hv]; exact read_eq_blank_of_lt hlt
          · next hj =>
            rw [read_cons]
            split
            · exact read_eq_blank_of_lt fun p hp => (by omega : j < i).trans (hlt p hp)
            · rfl
        · rw [read_cons, read_cons]
          split
          · rw [if_neg (by omega)]
          · split <;> rfl
      · next hne =>
        rw [read_cons, read_cons, ih hm]
        split
        · rw [if_neg (by omega)]
        · split
          · rw [if_neg (by omega)]
          · rfl

@[simp] theorem read_write_self {m : Mem α} (h : m.wf) (i : Nat) (v : α) :
    read (write m i v) i = v := by simp [read_write h]

theorem read_write_of_ne {m : Mem α} (h : m.wf) {i j : Nat} (v : α) (hj : j ≠ i) :
    read (write m i v) j = read m j := by simp [read_write h, hj]

/-- Writing a list keeps the canonical form. -/
theorem wf_writeList {m : Mem α} (h : m.wf) (i : Nat) (vs : List α) : (writeList m i vs).wf := by
  induction vs generalizing m i with
  | nil => exact h
  | cons v vs ih => exact ih (wf_write h i v) (i + 1)

/-- Read after the write of a list. -/
theorem read_writeList {m : Mem α} (h : m.wf) (i : Nat) (vs : List α) (j : Nat) :
    read (writeList m i vs) j = if i ≤ j then vs.getD (j - i) (read m j) else read m j := by
  induction vs generalizing m i with
  | nil => simp [writeList]
  | cons v vs ih =>
    rw [writeList, ih (wf_write h i v), read_write h]
    rcases Nat.lt_trichotomy j i with hj | rfl | hj
    · rw [if_neg (by omega), if_neg (by omega), if_neg (by omega)]
    · rw [if_neg (by omega)]; simp
    · rw [if_pos (by omega), if_neg (by omega), if_pos (by omega),
        show j - i = (j - (i + 1)) + 1 by omega, List.getD_cons_succ]

/-- The list form keeps the canonical form, and lists indices from `i` on only. -/
theorem wf_fromList (i : Nat) (vs : List α) :
    (fromList i vs).wf ∧ ∀ p ∈ fromList i vs, i ≤ p.1 := by
  induction vs generalizing i with
  | nil => simp [fromList, wf]
  | cons v vs ih =>
    obtain ⟨h, hb⟩ := ih (i + 1)
    simp only [fromList]
    split
    · exact ⟨h, fun p hp => (Nat.le_succ i).trans (hb p hp)⟩
    · next hv =>
      refine ⟨wf_cons.2 ⟨fun p hp => hb p hp, hv, h⟩, fun p hp => ?_⟩
      rcases List.mem_cons.1 hp with rfl | hp
      · exact le_rfl
      · exact (Nat.le_succ i).trans (hb p hp)

/-- The elements of the list form. -/
theorem read_fromList (i : Nat) (vs : List α) (j : Nat) :
    read (fromList i vs) j = if i ≤ j then vs.getD (j - i) blank else blank := by
  induction vs generalizing i with
  | nil => simp [fromList]
  | cons v vs ih =>
    simp only [fromList]
    split
    · next hv =>
      rw [ih]
      rcases Nat.lt_trichotomy j i with hj | rfl | hj
      · rw [if_neg (by omega), if_neg (by omega)]
      · simp [hv]
      · rw [if_pos (by omega), if_pos (by omega), show j - i = (j - (i + 1)) + 1 by omega,
          List.getD_cons_succ]
    · rw [read_cons, ih]
      rcases Nat.lt_trichotomy j i with hj | rfl | hj
      · rw [if_pos hj, if_neg (by omega)]
      · simp
      · rw [if_neg (by omega), if_neg (by omega), if_pos (by omega), if_pos (by omega),
          show j - i = (j - (i + 1)) + 1 by omega, List.getD_cons_succ]

omit [DecidableEq α] in
/-- An index that is not listed reads as the blank element. -/
theorem read_of_not_listed {m : Mem α} {j : Nat} (h : ∀ p ∈ m, p.1 ≠ j) : read m j = blank := by
  induction m with
  | nil => rfl
  | cons q m ih =>
    rw [show q = (q.1, q.2) from rfl, read_cons]
    have := h q (by simp)
    split
    · rfl
    · rw [if_neg (by omega)]; exact ih fun p hp => h p (by simp [hp])

/-- In the canonical form the listed pairs are exactly the elements that are not blank. -/
theorem mem_iff_read {m : Mem α} (h : m.wf) {j : Nat} {x : α} :
    (j, x) ∈ m ↔ x ≠ blank ∧ read m j = x := by
  induction m with
  | nil => simp [eq_comm]
  | cons p m ih =>
    obtain ⟨a, w⟩ := p
    obtain ⟨hlt, hw, hm⟩ := wf_cons.1 h
    rw [List.mem_cons, ih hm, read_cons, Prod.mk.injEq]
    rcases Nat.lt_trichotomy j a with hj | rfl | hj
    · have hb : read m j = blank := read_eq_blank_of_lt fun p hp => hj.trans (hlt p hp)
      rw [if_pos hj, hb]
      constructor
      · rintro (⟨h1, -⟩ | h1)
        · omega
        · exact h1
      · exact Or.inr
    · have hb : read m j = blank := read_eq_blank_of_lt hlt
      rw [if_neg (by omega), if_pos rfl, hb]
      constructor
      · rintro (⟨-, h1⟩ | ⟨h1, h2⟩)
        · exact ⟨h1 ▸ hw, h1.symm⟩
        · exact absurd h2.symm h1
      · exact fun h1 => Or.inl ⟨rfl, h1.2.symm⟩
    · rw [if_neg (by omega), if_neg (by omega)]
      simp [show j ≠ a by omega]

/-- Writing a run keeps the canonical form. -/
theorem wf_writeRun {m : Mem α} (h : m.wf) (n i : Nat) (v : α) : (writeRun n m i v).wf := by
  unfold writeRun
  refine ⟨?_, ?_⟩
  · rw [List.pairwise_append, List.pairwise_append]
    refine ⟨⟨h.1.filter _, ?_, ?_⟩, h.1.filter _, ?_⟩
    · split
      · exact List.Pairwise.nil
      · rw [List.pairwise_map]; exact List.pairwise_lt_range'
    · intro p hp q hq
      split at hq
      · simp at hq
      · simp only [List.mem_filter, decide_eq_true_eq, List.mem_map, List.mem_range'_1] at hp hq
        obtain ⟨k, hk, rfl⟩ := hq
        show p.1 < k
        omega
    · intro p hp q hq
      simp only [List.mem_append, List.mem_filter, decide_eq_true_eq] at hp hq
      rcases hp with hp | hp
      · omega
      · split at hp
        · simp at hp
        · simp only [List.mem_map, List.mem_range'_1] at hp
          obtain ⟨k, hk, rfl⟩ := hp
          show k < q.1
          omega
  · intro p hp
    simp only [List.mem_append, List.mem_filter] at hp
    rcases hp with (hp | hp) | hp
    · exact h.2 p hp.1
    · split at hp
      · simp at hp
      · next hv => simp only [List.mem_map] at hp; obtain ⟨k, -, rfl⟩ := hp; exact hv
    · exact h.2 p hp.1

/-- Read after the write of a run. -/
theorem read_writeRun {m : Mem α} (h : m.wf) (n i : Nat) (v : α) (j : Nat) :
    read (writeRun n m i v) j = if i ≤ j ∧ j < i + n then v else read m j := by
  have key : ∀ x, x ≠ blank → ((j, x) ∈ writeRun n m i v ↔
      (if i ≤ j ∧ j < i + n then v else read m j) = x) := by
    intro x hx
    unfold writeRun
    simp only [List.mem_append, List.mem_filter, mem_iff_read h, decide_eq_true_eq]
    by_cases hv : v = blank
    · rw [if_pos hv]
      by_cases hj : i ≤ j ∧ j < i + n
      · rw [if_pos hj]
        have : ¬ (i + n ≤ j) := by omega
        have : ¬ (j < i) := by omega
        simp only [*, and_false, List.not_mem_nil, or_self, false_iff]
        exact fun he => hx (he ▸ rfl)
      · rw [if_neg hj]
        have : j < i ∨ i + n ≤ j := by omega
        simp only [List.not_mem_nil, or_false]
        tauto
    · rw [if_neg hv]
      simp only [List.mem_map, List.mem_range'_1, Prod.mk.injEq]
      by_cases hj : i ≤ j ∧ j < i + n
      · rw [if_pos hj]
        have h1 : ¬ (i + n ≤ j) := by omega
        have h2 : ¬ (j < i) := by omega
        simp only [h1, h2, and_false, false_or, or_false]
        exact ⟨fun ⟨_, _, _, he⟩ => he, fun he => ⟨j, hj, rfl, he⟩⟩
      · rw [if_neg hj]
        have h1 : ¬ ∃ a, (i ≤ a ∧ a < i + n) ∧ a = j ∧ v = x := by
          rintro ⟨a, ha, rfl, -⟩; exact hj ha
        have : j < i ∨ i + n ≤ j := by omega
        simp only [h1, or_false]
        tauto
  by_cases hx : (if i ≤ j ∧ j < i + n then v else read m j) = blank
  · rw [hx]
    by_contra hne
    have := (key _ hne).1 ((mem_iff_read (wf_writeRun h n i v)).2 ⟨hne, rfl⟩)
    exact hne (this ▸ hx)
  · exact ((mem_iff_read (wf_writeRun h n i v)).1 ((key _ hx).2 rfl)).2

/-- Two memories in the canonical form that read the same are the same list. -/
theorem ext_of_wf {m m' : Mem α} (h : m.wf) (h' : m'.wf) (he : ∀ j, read m j = read m' j) : m = m' := by
  have hn : ∀ {m : Mem α}, m.wf → m.Nodup := fun h =>
    h.1.imp fun {p q} hlt heq => absurd hlt (by rw [heq]; exact lt_irrefl _)
  have hp : m.Perm m' := (List.perm_ext_iff_of_nodup (hn h) (hn h')).2 fun p => by
    rw [show p = (p.1, p.2) from rfl, mem_iff_read h, mem_iff_read h', he]
  exact hp.eq_of_pairwise (fun a b _ _ hab hba => absurd hab (by omega)) h.1 h'.1

end Sys2Proof.Mem
end

