-- ==== Sys2Proof/Laws/CountingSort.lean ====
section
/-! SUPPORT. The counting sort that builds `tt` (45_inverse_bwt_output.md rules R261, R262): where each index
is placed, and that the places are exactly the indices below the length of the block. -/

namespace Sys2Proof.Machine

variable (ll8 : Mem Byte)

@[simp] theorem occurrences_zero (v : Nat) : occurrences ll8 0 v = 0 := rfl

theorem occurrences_succ (n v : Nat) :
    occurrences ll8 (n + 1) v = occurrences ll8 n v + if (ll8.read n).toNat = v then 1 else 0 := by
  unfold occurrences
  rw [List.range_succ, List.filter_append, List.length_append]
  congr 1
  by_cases h : (ll8.read n).toNat = v <;> simp [h]

theorem occurrences_mono {m n : Nat} (h : m ≤ n) (v : Nat) : occurrences ll8 m v ≤ occurrences ll8 n v := by
  induction n, h using Nat.le_induction with
  | base => exact le_rfl
  | succ n _ ih => rw [occurrences_succ]; omega

theorem occurrences_lt {i n : Nat} (h : i < n) :
    occurrences ll8 i (ll8.read i).toNat < occurrences ll8 n (ll8.read i).toNat := by
  have := occurrences_mono ll8 h (ll8.read i).toNat
  rw [occurrences_succ, if_pos rfl] at this
  omega

/-- How many of the first `n` elements hold a byte value below `c`. -/
def below (n : Nat) : Nat → Nat
  | 0 => 0
  | c + 1 => below n c + occurrences ll8 n c

theorem below_mono (n : Nat) {c d : Nat} (h : c ≤ d) : below ll8 n c ≤ below ll8 n d := by
  induction d, h using Nat.le_induction with
  | base => exact le_rfl
  | succ d _ ih => simp only [below]; omega

theorem below_succ_left (n c : Nat) :
    below ll8 (n + 1) c = below ll8 n c + if (ll8.read n).toNat < c then 1 else 0 := by
  induction c with
  | zero => simp [below]
  | succ c ih =>
    simp only [below, ih, occurrences_succ]
    split <;> split <;> split <;> omega

/-- `below` counts the elements smaller than a byte value. -/
theorem below_eq_length (n c : Nat) :
    below ll8 n c = ((List.range n).filter fun i => (ll8.read i).toNat < c).length := by
  induction n with
  | zero => induction c with
    | zero => rfl
    | succ c ih => simp [below, ih]
  | succ n ih =>
    rw [below_succ_left, ih, List.range_succ, List.filter_append, List.length_append]
    congr 1
    by_cases h : (ll8.read n).toNat < c <;> simp [h]

/-- Every byte value is below 256. -/
theorem below_all (n : Nat) : below ll8 n byteValues = n := by
  induction n with
  | zero => rw [below_eq_length]; rfl
  | succ n ih => rw [below_succ_left, ih, if_pos (show (ll8.read n).toNat < byteValues from (ll8.read n).isLt)]

/-- The place of index `i`: after the smaller bytes, and after the equal bytes of smaller index. -/
def place (n i : Nat) : Nat :=
  below ll8 n (ll8.read i).toNat + occurrences ll8 i (ll8.read i).toNat

theorem place_lt {n i : Nat} (h : i < n) : place ll8 n i < n := by
  have h1 := occurrences_lt ll8 h
  have h2 : below ll8 n ((ll8.read i).toNat + 1) ≤ below ll8 n byteValues :=
    below_mono ll8 n (ll8.read i).isLt
  rw [below_all] at h2
  simp only [below] at h2
  unfold place
  omega

/-- Places are ordered as (byte value, index). -/
theorem place_lt_place {n i j : Nat} (hi : i < n)
    (h : (ll8.read i).toNat < (ll8.read j).toNat ∨ ((ll8.read i).toNat = (ll8.read j).toNat ∧ i < j)) :
    place ll8 n i < place ll8 n j := by
  unfold place
  have h1 := occurrences_lt ll8 hi
  rcases h with h | ⟨h, hij⟩
  · have h2 := below_mono ll8 n (Nat.succ_le_of_lt h)
    simp only [below] at h2
    omega
  · have h3 := occurrences_lt ll8 hij
    rw [h] at h3 ⊢
    omega

theorem place_inj {n i j : Nat} (hi : i < n) (hj : j < n) (h : place ll8 n i = place ll8 n j) : i = j := by
  rcases Nat.lt_trichotomy (ll8.read i).toNat (ll8.read j).toNat with hb | hb | hb
  · exact absurd h (Nat.ne_of_lt (place_lt_place ll8 hi (Or.inl hb)))
  · rcases Nat.lt_trichotomy i j with hij | hij | hij
    · exact absurd h (Nat.ne_of_lt (place_lt_place ll8 hi (Or.inr ⟨hb, hij⟩)))
    · exact hij
    · exact absurd h.symm (Nat.ne_of_lt (place_lt_place ll8 hj (Or.inr ⟨hb.symm, hij⟩)))
  · exact absurd h.symm (Nat.ne_of_lt (place_lt_place ll8 hj (Or.inl hb)))

/-- Every place below the length is some index's. -/
theorem place_surj {n k : Nat} (hk : k < n) : ∃ i < n, place ll8 n i = k := by
  have hinj : Function.Injective (fun i : Fin n => (⟨place ll8 n i, place_lt ll8 i.2⟩ : Fin n)) := by
    intro i j h
    exact Fin.ext (place_inj ll8 i.2 j.2 (by simpa using h))
  obtain ⟨i, hi⟩ := Finite.injective_iff_surjective.1 hinj ⟨k, hk⟩
  exact ⟨i, i.2, by simpa using hi⟩

/-- The running sums of a list, element by element. -/
theorem runningSums_getD (a : Nat) (xs : List Nat) {k : Nat} (h : k ≤ xs.length) :
    (runningSums a xs).getD k 0 = a + (xs.take k).sum := by
  induction xs generalizing a k with
  | nil => obtain rfl : k = 0 := by simpa using h
           simp [runningSums]
  | cons x xs ih =>
    cases k with
    | zero => simp [runningSums]
    | succ k =>
      rw [runningSums, List.getD_cons_succ, ih _ (by simpa using h)]
      simp [Nat.add_assoc]

/-- `cftab[0] = 0` and `cftab[b + 1] = cftab[b] + unzftab[b]` (rule R261). -/
theorem cumulativeTable_read (unzftab : Mem Nat) {b : Nat} (h : b ≤ byteValues) :
    (cumulativeTable unzftab).read b = ((List.range b).map unzftab.read).sum := by
  unfold cumulativeTable
  have hb : (Mem.blank : Nat) = 0 := rfl
  rw [Mem.read_fromList, if_pos (Nat.zero_le _), Nat.sub_zero, hb, runningSums_getD _ _ (by simpa using h)]
  rw [← List.map_take, List.take_range, min_eq_left h, Nat.zero_add]

theorem cumulativeTable_wf (unzftab : Mem Nat) : (cumulativeTable unzftab).wf := (Mem.wf_fromList _ _).1

/-- With `unzftab` the counts of the block's bytes, `cftab[c]` counts the smaller ones. -/
theorem cumulativeTable_below {unzftab : Mem Nat} {n c : Nat} (hc : c ≤ byteValues)
    (h : ∀ v < byteValues, unzftab.read v = occurrences ll8 n v) :
    (cumulativeTable unzftab).read c = below ll8 n c := by
  rw [cumulativeTable_read unzftab hc]
  induction c with
  | zero => rfl
  | succ c ih =>
    rw [List.range_succ, List.map_append, List.sum_append, ih (by omega), below]
    simp [h c (by omega)]

/-- The loop of `BuildTT()`, from index `i` on, in the middle of the sort: `cftab[c]` is where the next
index with the byte `c` goes, and every index below `i` is at its place. -/
theorem placeIndices_spec {n : Nat} (hn : n ≤ maxCapacity) (m i : Nat) (hi : i + m = n)
    (cftab tt : Mem Nat) (hcw : cftab.wf) (htw : tt.wf)
    (hc : ∀ c < byteValues, cftab.read c = below ll8 n c + occurrences ll8 i c)
    (ht : ∀ j < i, tt.read (place ll8 n j) = j) :
    ∃ cftab' tt', placeIndices ll8 m i cftab tt = some (cftab', tt') ∧ cftab'.wf ∧ tt'.wf ∧
      (∀ c < byteValues, cftab'.read c = below ll8 n c + occurrences ll8 n c) ∧
      (∀ c, byteValues ≤ c → cftab'.read c = cftab.read c) ∧
      (∀ j < n, tt'.read (place ll8 n j) = j) ∧ ∀ k, n ≤ k → tt'.read k = tt.read k := by
  induction m generalizing i cftab tt with
  | zero =>
    obtain rfl : i = n := by omega
    exact ⟨cftab, tt, rfl, hcw, htw, hc, fun _ _ => rfl, ht, fun _ _ => rfl⟩
  | succ m ih =>
    have hlt : i < n := by omega
    have hd : cftab.read (ll8.read i).toNat = place ll8 n i := hc _ (ll8.read i).isLt
    have hp := place_lt ll8 hlt
    obtain ⟨cftab', tt', h1, h2, h3, h4, h5, h6, h7⟩ := ih (i + 1) (by omega)
      (cftab.write (ll8.read i).toNat (place ll8 n i + 1)) (tt.write (place ll8 n i) i)
      (Mem.wf_write hcw _ _) (Mem.wf_write htw _ _)
      (fun c hcb => by
        rw [Mem.read_write hcw, occurrences_succ]
        split
        · next he => subst he; rw [if_pos rfl, place]; omega
        · next he => rw [hc c hcb, if_neg (fun h => he h.symm)]; omega)
      (fun j hj => by
        rw [Mem.read_write htw]
        split
        · next he => exact (place_inj ll8 (by omega) hlt he).symm
        · next he =>
          have : j ≠ i := fun h => he (by rw [h])
          exact ht j (by omega))
    refine ⟨cftab', tt', ?_, h2, h3, h4, ?_, h6, ?_⟩
    · rw [placeIndices]
      simp only [hd]
      rw [if_neg (by omega), h1]
    · intro c hcb
      rw [h5 c hcb, Mem.read_write_of_ne hcw]
      exact Nat.ne_of_gt (lt_of_lt_of_le (ll8.read i).isLt hcb)
    · intro k hk
      rw [h7 k hk, Mem.read_write_of_ne htw]
      omega

/-- `BuildCftab()` then `BuildTT()` on a block whose bytes `unzftab` counts: every index of the block is at
its place in `tt`, and `tPos` is read from `tt`. -/
theorem buildTT_spec {s : State} (hm : s.MemoriesInv) {n : Nat} (hn : s.blk.last + 1 = (n : Int))
    (hcap : n ≤ maxCapacity) (hc : ∀ v < byteValues, s.blk.unzftab.read v = occurrences s.blk.ll8 n v) :
    ∃ cftab tt, buildTT s = .go { s with
        blk := { s.blk with cftab := cftab, tt := tt }
        pull := { s.pull with tPos := tt.read s.hdr.origPtr } } ∧ cftab.wf ∧ tt.wf ∧
      (∀ c < byteValues, cftab.read c = below s.blk.ll8 n (c + 1)) ∧
      cftab.read byteValues = n ∧
      (∀ j < n, tt.read (place s.blk.ll8 n j) = j) ∧ ∀ k, n ≤ k → tt.read k = s.blk.tt.read k := by
  obtain ⟨cftab, tt, h1, h2, h3, h4, h5, h6, h7⟩ := placeIndices_spec s.blk.ll8 hcap n 0 (by omega)
    (cumulativeTable s.blk.unzftab) s.blk.tt (cumulativeTable_wf _) hm.tt
    (fun c hcb => by rw [cumulativeTable_below s.blk.ll8 (Nat.le_of_lt hcb) hc]; simp)
    (fun j hj => absurd hj (Nat.not_lt_zero j))
  refine ⟨cftab, tt, ?_, h2, h3, fun c hcb => h4 c hcb, ?_, h6, h7⟩
  · unfold buildTT
    rw [if_neg (by omega), show (s.blk.last + 1).toNat = n by omega, h1]
  · rw [h5 _ le_rfl, cumulativeTable_below s.blk.ll8 le_rfl hc, below_all]

/-- Every element of a counting-sorted `tt` is an index of the block. -/
theorem links_lt {tt : Mem Nat} {n : Nat} (h : ∀ j < n, tt.read (place ll8 n j) = j) {k : Nat} (hk : k < n) :
    tt.read k < n := by
  obtain ⟨i, hi, rfl⟩ := place_surj ll8 hk
  rw [h i hi]
  exact hi

end Sys2Proof.Machine
end

