-- ==== Sys2Proof/Laws/Huffman.lean ====
section
/-! SUPPORT. What building a coding table gives (43_huffman_table_builder.md rules R205, R206) and what
decoding one code can answer (44_mtf_rle2_decoder.md rule R232). -/

namespace Sys2Proof

theorem foldl_min_le (ls : List Nat) (a : Nat) :
    ls.foldl min a ≤ a ∧ ∀ l ∈ ls, ls.foldl min a ≤ l := by
  induction ls generalizing a with
  | nil => simp
  | cons x xs ih =>
    obtain ⟨h1, h2⟩ := ih (min a x)
    refine ⟨h1.trans (min_le_left _ _), fun l hl => ?_⟩
    rcases List.mem_cons.1 hl with rfl | hl
    · exact h1.trans (min_le_right _ _)
    · exact h2 l hl

theorem foldl_min_mem (ls : List Nat) (a : Nat) : ls.foldl min a = a ∨ ls.foldl min a ∈ ls := by
  induction ls generalizing a with
  | nil => simp
  | cons x xs ih =>
    rw [List.foldl_cons]
    rcases ih (min a x) with h | h
    · rw [h]; rcases min_choice a x with h' | h' <;> simp [h']
    · simp [h]

theorem leastOf_le {ls : List Nat} {l : Nat} (h : l ∈ ls) : leastOf ls ≤ l := by
  cases ls with
  | nil => simp at h
  | cons x xs =>
    rcases List.mem_cons.1 h with rfl | h
    · exact (foldl_min_le xs _).1
    · exact (foldl_min_le xs _).2 l h

theorem leastOf_mem {ls : List Nat} (h : ls ≠ []) : leastOf ls ∈ ls := by
  cases ls with
  | nil => simp at h
  | cons x xs =>
    rcases foldl_min_mem xs x with h' | h'
    · simp [leastOf, h']
    · simp [leastOf, h']

theorem le_foldl_max (ls : List Nat) (a : Nat) :
    a ≤ ls.foldl max a ∧ ∀ l ∈ ls, l ≤ ls.foldl max a := by
  induction ls generalizing a with
  | nil => simp
  | cons x xs ih =>
    obtain ⟨h1, h2⟩ := ih (max a x)
    refine ⟨(le_max_left _ _).trans h1, fun l hl => ?_⟩
    rcases List.mem_cons.1 hl with rfl | hl
    · exact (le_max_right _ _).trans h1
    · exact h2 l hl

theorem foldl_max_mem (ls : List Nat) (a : Nat) : ls.foldl max a = a ∨ ls.foldl max a ∈ ls := by
  induction ls generalizing a with
  | nil => simp
  | cons x xs ih =>
    rw [List.foldl_cons]
    rcases ih (max a x) with h | h
    · rw [h]; rcases max_choice a x with h' | h' <;> simp [h']
    · simp [h]

theorem le_greatestOf {ls : List Nat} {l : Nat} (h : l ∈ ls) : l ≤ greatestOf ls :=
  (le_foldl_max ls 0).2 l h

theorem greatestOf_le {ls : List Nat} {b : Nat} (h : ∀ l ∈ ls, l ≤ b) : greatestOf ls ≤ b := by
  rcases foldl_max_mem ls 0 with h' | h'
  · simp [greatestOf, h']
  · exact h _ h'

theorem mem_lengthsFrom {a b l : Nat} : l ∈ lengthsFrom a b ↔ a ≤ l ∧ l ≤ b := by
  simp only [lengthsFrom, List.mem_range'_1]; omega

/-- The symbols listed are those whose length is in the range. -/
theorem mem_symbolsByLength {lens : List Nat} {a b i : Nat} :
    i ∈ symbolsByLength lens a b ↔ i < lens.length ∧ a ≤ lens.getD i 0 ∧ lens.getD i 0 ≤ b := by
  simp only [symbolsByLength, List.mem_flatMap, mem_lengthsFrom, List.mem_filter, List.mem_range,
    decide_eq_true_eq]
  constructor
  · rintro ⟨l, hl, hi, rfl⟩; exact ⟨hi, hl⟩
  · rintro ⟨hi, hl⟩; exact ⟨_, hl, hi, rfl⟩

/-- The order of rule R205: by length, and within a length by symbol value. -/
theorem pairwise_symbolsByLength (lens : List Nat) (a b : Nat) :
    (symbolsByLength lens a b).Pairwise fun i j =>
      lens.getD i 0 < lens.getD j 0 ∨ (lens.getD i 0 = lens.getD j 0 ∧ i < j) := by
  unfold symbolsByLength
  rw [List.pairwise_flatMap]
  refine ⟨fun l _ => ?_, ?_⟩
  · rw [List.pairwise_filter]
    refine List.pairwise_lt_range.imp ?_
    intro i j hij hi hj
    simp only [decide_eq_true_eq] at hi hj
    omega
  · refine (List.pairwise_lt_range' (n := _) (s := _)).imp ?_
    intro l l' hl i hi j hj
    simp only [List.mem_filter, decide_eq_true_eq] at hi hj
    omega

theorem nodup_symbolsByLength (lens : List Nat) (a b : Nat) : (symbolsByLength lens a b).Nodup :=
  (pairwise_symbolsByLength lens a b).imp fun {i j} h hij => by subst hij; omega

/-- With every length in the range, the list is a permutation of the symbols. -/
theorem perm_symbolsByLength {lens : List Nat} {a b : Nat} (h : ∀ l ∈ lens, a ≤ l ∧ l ≤ b) :
    (symbolsByLength lens a b).Perm (List.range lens.length) := by
  refine (List.perm_ext_iff_of_nodup (nodup_symbolsByLength _ _ _) List.nodup_range).2 fun i => ?_
  rw [mem_symbolsByLength, List.mem_range]
  refine ⟨fun hi => hi.1, fun hi => ⟨hi, ?_⟩⟩
  rw [List.getD_eq_getElem _ _ hi]
  exact h _ (List.getElem_mem hi)

theorem perm_symbolsByLength_self (lens : List Nat) :
    (symbolsByLength lens (leastOf lens) (greatestOf lens)).Perm (List.range lens.length) :=
  perm_symbolsByLength fun _ hl => ⟨leastOf_le hl, le_greatestOf hl⟩

theorem length_symbolsByLength_self (lens : List Nat) :
    (symbolsByLength lens (leastOf lens) (greatestOf lens)).length = lens.length := by
  simpa using (perm_symbolsByLength_self lens).length_eq

namespace HuffTable

@[simp] theorem length_lens (t : HuffTable) (n : Nat) : (t.lens n).length = n := by simp [lens]

theorem lens_getD (t : HuffTable) {n i : Nat} (h : i < n) : (t.lens n).getD i 0 = t.len.read i := by
  simp [lens, h, List.getD_eq_getElem?_getD]

@[simp] theorem lens_build (t : HuffTable) (n m : Nat) : (t.build n).lens m = t.lens m := rfl
@[simp] theorem build_len (t : HuffTable) (n : Nat) : (t.build n).len = t.len := rfl
@[simp] theorem build_minLen (t : HuffTable) (n : Nat) : (t.build n).minLen = leastOf (t.lens n) := rfl
@[simp] theorem build_maxLen (t : HuffTable) (n : Nat) : (t.build n).maxLen = greatestOf (t.lens n) := rfl

/-- The rank table: `perm[j]` is symbol number `j` of the list of rule R205. -/
theorem build_perm_read {t : HuffTable} (h : t.perm.wf) (n j : Nat) :
    (t.build n).perm.read j =
      (symbolsByLength (t.lens n) (leastOf (t.lens n)) (greatestOf (t.lens n))).getD j (t.perm.read j) := by
  simp [build, Mem.read_writeList h]

/-- Every rank below the alphabet size names a symbol of the alphabet. -/
theorem build_perm_lt {t : HuffTable} (h : t.perm.wf) {n j : Nat} (hj : j < n) :
    (t.build n).perm.read j < n := by
  have hlen := length_symbolsByLength_self (t.lens n)
  rw [length_lens] at hlen
  rw [build_perm_read h, List.getD_eq_getElem _ _ (by omega)]
  have := (mem_symbolsByLength.1 (List.getElem_mem (by omega :
    j < (symbolsByLength (t.lens n) (leastOf (t.lens n)) (greatestOf (t.lens n))).length))).1
  simpa using this

end HuffTable

/-- With legal lengths the shortest code is of 1 to 20 bits. -/
theorem leastOf_legal {lens : List Nat} (h : LegalLengths lens) (h0 : lens ≠ []) :
    1 ≤ leastOf lens ∧ leastOf lens ≤ maxCodeLen := h _ (leastOf_mem h0)

theorem greatestOf_legal {lens : List Nat} (h : LegalLengths lens) : greatestOf lens ≤ maxCodeLen :=
  greatestOf_le fun l hl => (h l hl).2

/-- The pass of one length keeps the arrays in their canonical form. -/
theorem LimitBase.pass_wf (l n : Nat) {r : LimitBase} (h : r.limit.wf ∧ r.base.wf) :
    (r.pass l n).limit.wf ∧ (r.pass l n).base.wf :=
  ⟨Mem.wf_write h.1 _ _, Mem.wf_write h.2 _ _⟩

theorem LimitBase.start_wf : LimitBase.start.limit.wf ∧ LimitBase.start.base.wf :=
  ⟨(Mem.wf_fromList _ _).1, (Mem.wf_fromList _ _).1⟩

theorem limitBaseOf_wf (lens : List Nat) (a b : Nat) :
    (limitBaseOf lens a b).limit.wf ∧ (limitBaseOf lens a b).base.wf := by
  unfold limitBaseOf
  generalize lengthsFrom a b = ls
  have : ∀ r : LimitBase, r.limit.wf ∧ r.base.wf →
      (ls.foldl (fun r l => r.pass l (lens.count l)) r).limit.wf ∧
      (ls.foldl (fun r l => r.pass l (lens.count l)) r).base.wf := by
    induction ls with
    | nil => exact fun _ h => h
    | cons l ls ih => exact fun r h => ih _ (r.pass_wf l _ h)
  exact this _ LimitBase.start_wf

/-- Building a table keeps its memories in their canonical form. -/
theorem HuffTable.build_wf {t : HuffTable} (n : Nat) (hl : t.len.wf) (hp : t.perm.wf) :
    (t.build n).len.wf ∧ (t.build n).limit.wf ∧ (t.build n).base.wf ∧ (t.build n).perm.wf :=
  ⟨hl, (limitBaseOf_wf _ _ _).1, (limitBaseOf_wf _ _ _).2, Mem.wf_writeList hp _ _⟩

/-- The end of `DecodeCode` answers a symbol of the table, or rejects by `SymbolOutOfRange`. -/
theorem resolveCode_cases {t : HuffTable} {n zn zvec : Nat} {c : BitCursor} (hn : n ≤ maxAlpha) :
    (∃ idx, idx < n ∧ (idx : Int) = zvec - t.base.read zn ∧
      resolveCode t n zn zvec c = .ok (t.perm.read idx) zn zvec c) ∨
    resolveCode t n zn zvec c = .reject .symbolOutOfRange c := by
  unfold resolveCode
  simp only
  split
  · exact Or.inr rfl
  · next h =>
    rw [if_neg (by omega)]
    exact Or.inl ⟨_, by omega, by omega, rfl⟩

/-- The loop of `DecodeCode`: a symbol of the table, a rejection, never a situation with no defined
behaviour; the cursor moves by the code's length. -/
theorem extendCode_cases {t : HuffTable} {n : Nat} (hn : n ≤ maxAlpha) (k zn zvec : Nat) (c : BitCursor) :
    (∃ idx zn' zvec' c' m, idx < n ∧ extendCode t n k zn zvec c = .ok (t.perm.read idx) zn' zvec' c' ∧
      c.Reads m c' ∧ c.bits.length = m + c'.bits.length) ∨
    (∃ f c' m, extendCode t n k zn zvec c = .reject f c' ∧ c.Reads m c' ∧
      (f = .invalidHuffmanCode ∨ f = .symbolOutOfRange ∨ f = .unexpectedEndOfInput)) := by
  induction k generalizing zn zvec c with
  | zero =>
    unfold extendCode
    split
    · exact Or.inr ⟨_, c, 0, rfl, .refl c, Or.inl rfl⟩
    · rcases resolveCode_cases (t := t) (zn := zn) (zvec := zvec) (c := c) hn with ⟨idx, h1, -, h2⟩ | h
      · exact Or.inl ⟨idx, _, _, c, 0, h1, h2, .refl c, by omega⟩
      · exact Or.inr ⟨_, c, 0, h, .refl c, Or.inr (Or.inl rfl)⟩
  | succ k ih =>
    unfold extendCode
    split
    · rcases BitCursor.readBits_cases (n := 1) c (by omega) (by omega) with
        ⟨bs, rest, c', hl, hb, h1, h2, h3⟩ | ⟨-, c', h1, -, h3⟩
      · rw [h1]
        rcases ih (zn + 1) (2 * zvec + bitsValue bs) c' with
          ⟨idx, zn', zvec', c'', m, h4, h5, h6, h7⟩ | ⟨f, c'', m, h4, h5, h6⟩
        · refine Or.inl ⟨idx, zn', zvec', c'', 1 + m, h4, h5, h3.trans h6, ?_⟩
          rw [hb, List.length_append, hl, ← h2, h7]; omega
        · exact Or.inr ⟨f, c'', 1 + m, h4, h3.trans h5, h6⟩
      · rw [h1]
        exact Or.inr ⟨_, c', _, rfl, h3, Or.inr (Or.inr rfl)⟩
    · rcases resolveCode_cases (t := t) (zn := zn) (zvec := zvec) (c := c) hn with ⟨idx, h1, -, h2⟩ | h
      · exact Or.inl ⟨idx, _, _, c, 0, h1, h2, .refl c, by omega⟩
      · exact Or.inr ⟨_, c, 0, h, .refl c, Or.inr (Or.inl rfl)⟩

/-- `DecodeCode` with a table whose shortest code is of 1 to 20 bits: a symbol of the table, or a
rejection; a symbol consumes at least one bit. -/
theorem decodeCode_cases {t : HuffTable} {n : Nat} (hn : n ≤ maxAlpha) (h1 : 1 ≤ t.minLen)
    (h20 : t.minLen ≤ maxCodeLen) (c : BitCursor) :
    (∃ idx zn zvec c' m, idx < n ∧ decodeCode t n c = .ok (t.perm.read idx) zn zvec c' ∧
      c.Reads m c' ∧ c.bits.length = m + c'.bits.length ∧ 1 ≤ m) ∨
    (∃ f c' m, decodeCode t n c = .reject f c' ∧ c.Reads m c' ∧
      (f = .invalidHuffmanCode ∨ f = .symbolOutOfRange ∨ f = .unexpectedEndOfInput)) := by
  have hm : maxCodeLen = 20 := rfl
  unfold decodeCode
  rw [if_neg (by simp only [limitSize]; omega)]
  rcases BitCursor.readBits_cases (n := t.minLen) c h1 (by omega) with
    ⟨bs, rest, c', hl, hb, h2, h3, h4⟩ | ⟨-, c', h2, -, h4⟩
  · rw [h2]
    rcases extendCode_cases (t := t) hn (maxCodeLen - t.minLen) t.minLen (bitsValue bs) c' with
      ⟨idx, zn', zvec', c'', m, h5, h6, h7, h8⟩ | ⟨f, c'', m, h5, h6, h7⟩
    · refine Or.inl ⟨idx, zn', zvec', c'', t.minLen + m, h5, h6, h4.trans h7, ?_, by omega⟩
      rw [hb, List.length_append, hl, ← h3, h8]; omega
    · exact Or.inr ⟨f, c'', _, h5, h4.trans h6, h7⟩
  · rw [h2]
    exact Or.inr ⟨_, c', _, rfl, h4, Or.inr (Or.inr rfl)⟩

end Sys2Proof
end

