-- ==== Sys2Proof/Laws/Decode.lean ====
section
/-! SUPPORT. What the decoder can answer in each place of the grammar: an element of that place, with at
least one bit consumed, or a rejection by a fault; never a situation with no defined behaviour. -/

namespace Sys2Proof

/-- A decoding of the next bits at `c` that answers an instruction with the property `P` and consumes at
least one bit, or rejects. -/
def Decoded.Answers (d : Decoded) (P : Instr → Prop) (c : BitCursor) : Prop :=
  (∃ i c' m, P i ∧ d = .ok i c' ∧ c.Reads m c' ∧ c.bits.length = m + c'.bits.length ∧ 1 ≤ m) ∨
  ∃ f c' m, d = .reject f c' ∧ c.Reads m c'

theorem Decoded.Answers.imp {d : Decoded} {P Q : Instr → Prop} {c : BitCursor} (h : d.Answers P c)
    (hpq : ∀ i, P i → Q i) : d.Answers Q c := by
  rcases h with ⟨i, c', m, hi, h⟩ | h
  · exact Or.inl ⟨i, c', m, hpq i hi, h⟩
  · exact Or.inr h

/-- A rejection after some bits. -/
theorem Decoded.answers_reject {P : Instr → Prop} {c c' : BitCursor} {m : Nat} (f : FaultCode)
    (h : c.Reads m c') : (Decoded.reject f c').Answers P c := Or.inr ⟨f, c', m, rfl, h⟩

/-- Bits are read, then the rest of the element is decoded. -/
theorem Decoded.Answers.after {d : Decoded} {P : Instr → Prop} {c c' : BitCursor} {m : Nat}
    (h : d.Answers P c') (hr : c.Reads m c') (hl : c.bits.length = m + c'.bits.length) :
    d.Answers P c := by
  rcases h with ⟨i, c'', k, hi, hd, hr', hl', hk⟩ | ⟨f, c'', k, hd, hr'⟩
  · exact Or.inl ⟨i, c'', m + k, hi, hd, hr.trans hr', by omega, by omega⟩
  · exact Or.inr ⟨f, c'', m + k, hd, hr.trans hr'⟩

/-- Every bit of the element has been read. -/
theorem Decoded.answers_ok {P : Instr → Prop} {c c' : BitCursor} {m : Nat} {i : Instr} (hi : P i)
    (hr : c.Reads m c') (hl : c.bits.length = m + c'.bits.length) (hm : 1 ≤ m) :
    (Decoded.ok i c').Answers P c := Or.inl ⟨i, c', m, hi, rfl, hr, hl, hm⟩

/-- One fixed-width read and what follows it. -/
theorem readBits_decoded {n : Nat} {c : BitCursor} {P : Instr → Prop} {k : Nat → BitCursor → Decoded}
    (h0 : 1 ≤ n) (h32 : n ≤ 32)
    (h : ∀ v c', v < 2 ^ n → c.Reads n c' → c.bits.length = n + c'.bits.length → (k v c').Answers P c) :
    ((c.readBits n).decoded k).Answers P c := by
  rcases c.readBits_cases h0 h32 with ⟨bs, rest, c', hl, hb, h1, h2, h3⟩ | ⟨-, c', h1, -, h3⟩
  · rw [h1]
    exact h _ _ (hl ▸ bitsValue_lt bs) h3 (by rw [hb, List.length_append, hl, h2])
  · rw [h1]
    exact Decoded.answers_reject _ h3

/-- Bytes read big-endian and what follows them. -/
theorem readBytes_decoded {n : Nat} {c : BitCursor} {P : Instr → Prop} {k : Nat → BitCursor → Decoded}
    (h : ∀ v c', c.Reads (8 * n) c' → c.bits.length = 8 * n + c'.bits.length → (k v c').Answers P c) :
    ((c.readBytes n 0).decoded k).Answers P c := by
  rcases BitCursor.readBytes_cases n 0 c with ⟨bs, rest, c', hl, hb, h1, h2, h3⟩ | ⟨-, c', h1, h3⟩
  · rw [h1]
    exact h _ _ h3 (by rw [hb, List.length_append, hl, h2])
  · rw [h1]
    exact Decoded.answers_reject _ h3

/-- The unary code of a selector (rule R203): at most `j + k` one-bits are legal. -/
theorem readUnary_answers (k j : Nat) (c : BitCursor) :
    (readUnary k j c).Answers (fun i => ∃ j', i = .selector j' ∧ j' ≤ j + k) c := by
  induction k generalizing j c with
  | zero =>
    refine readBits_decoded (by omega) (by omega) fun v c' _ hr hl => ?_
    split
    · exact Decoded.answers_ok ⟨j, rfl, by omega⟩ hr hl le_rfl
    · exact Decoded.answers_reject _ hr
  | succ k ih =>
    unfold readUnary
    rcases c.readBits_cases (n := 1) (by omega) (by omega) with
      ⟨bs, rest, c', hl, hb, h1, h2, h3⟩ | ⟨-, c', h1, -, h3⟩
    · have hlen : c.bits.length = 1 + c'.bits.length := by rw [hb, List.length_append, hl, h2]
      rw [h1]
      simp only
      split
      · exact Decoded.answers_ok ⟨j, rfl, by omega⟩ h3 hlen le_rfl
      · refine Decoded.Answers.after ((ih (j + 1) c').imp ?_) h3 hlen
        rintro i ⟨j', rfl, hj⟩
        exact ⟨j', rfl, by omega⟩
    · rw [h1]
      exact Decoded.answers_reject _ h3

/-- The instructions that may stand in each place of the grammar (30_encoding.md rule R104). -/
def Ctx.Allows : Ctx → Instr → Prop
  | .streamHdr, i => ∃ h3, i = .streamHdr h3 ∧ config.digit1 ≤ h3 ∧ h3 ≤ config.digit9
  | .marker, i => i = .blockMagic ∨ i = .endMagic
  | .blockCrc, i => ∃ c, i = .blockCrc c
  | .randomised, i => ∃ r, i = .randomised r
  | .origPtr, i => ∃ p, i = .origPtr p ∧ p < 2 ^ config.origPtrBits
  | .inUse16, i => ∃ u, i = .inUse16 u
  | .inUseRow, i => ∃ v, i = .inUseRow v
  | .nGroups, i => ∃ g, i = .nGroups g
  | .nSelectors, i => ∃ n, i = .nSelectors n
  | .selector n, i => ∃ j, i = .selector j ∧ j < max n 1
  | .startLen, i => ∃ l, i = .startLen l
  | .lenDelta, i => i = .lenStop ∨ i = .lenInc ∨ i = .lenDec
  | .symbol _ nInUse, i => i = .runA ∨ i = .runB ∨ i = .eob ∨ ∃ k, i = .mtfv k ∧ 2 ≤ k ∧ k ≤ nInUse
  | .combinedCrc, i => ∃ c, i = .combinedCrc c

/-- The symbol of a value below the alphabet size (rule R112). -/
theorem symbolInstr_allowed (t : HuffTable) {nInUse sym : Nat} (h : sym < nInUse + 2) :
    (Ctx.symbol t nInUse).Allows (symbolInstr nInUse sym) := by
  simp only [symbolInstr, Ctx.Allows]
  split
  · exact Or.inl rfl
  · split
    · exact Or.inr (Or.inl rfl)
    · split
      · exact Or.inr (Or.inr (Or.inl rfl))
      · exact Or.inr (Or.inr (Or.inr ⟨sym, rfl, by omega, by omega⟩))

theorem headerDigit_some {w : BitVec 32} {h3 : Byte} (h : headerDigit w = some h3) :
    config.digit1 ≤ h3 ∧ h3 ≤ config.digit9 := by
  unfold headerDigit at h
  simp only at h
  split at h
  · cases h; next h => exact ⟨h.2.2.2.1, h.2.2.2.2⟩
  · cases h

theorem markerInstr_some {m : BitVec 48} {i : Instr} (h : markerInstr m = some i) :
    i = .blockMagic ∨ i = .endMagic := by
  unfold markerInstr at h
  split at h
  · cases h; simp
  · split at h <;> cases h; simp

/-- Everywhere but in the symbol layer the decoder answers an element of the place, or rejects. -/
theorem decode_answers (ctx : Ctx) (c : BitCursor) (h : ∀ t n, ctx ≠ .symbol t n) :
    (decode ctx c).Answers ctx.Allows c := by
  cases ctx with
  | streamHdr =>
    refine readBytes_decoded fun v c' hr hl => ?_
    cases hd : headerDigit (BitVec.ofNat 32 v) with
    | none => exact Decoded.answers_reject _ hr
    | some h3 => exact Decoded.answers_ok ⟨h3, rfl, headerDigit_some hd⟩ hr hl (by omega)
  | marker =>
    refine readBytes_decoded fun v c' hr hl => ?_
    cases hd : markerInstr (BitVec.ofNat 48 v) with
    | none => exact Decoded.answers_reject _ hr
    | some i => exact Decoded.answers_ok (markerInstr_some hd) hr hl (by omega)
  | blockCrc =>
    exact readBits_decoded (by omega) (by omega) fun v c' _ hr hl =>
      Decoded.answers_ok ⟨_, rfl⟩ hr hl (by omega)
  | randomised =>
    exact readBits_decoded (by omega) (by omega) fun v c' _ hr hl =>
      Decoded.answers_ok ⟨_, rfl⟩ hr hl (by omega)
  | origPtr =>
    exact readBits_decoded (by decide) (by decide) fun v c' hv hr hl =>
      Decoded.answers_ok ⟨_, rfl, hv⟩ hr hl (by decide)
  | inUse16 =>
    exact readBits_decoded (by omega) (by omega) fun v c' _ hr hl =>
      Decoded.answers_ok ⟨_, rfl⟩ hr hl (by omega)
  | inUseRow =>
    exact readBits_decoded (by omega) (by omega) fun v c' _ hr hl =>
      Decoded.answers_ok ⟨_, rfl⟩ hr hl (by omega)
  | nGroups =>
    exact readBits_decoded (by omega) (by omega) fun v c' _ hr hl =>
      Decoded.answers_ok ⟨_, rfl⟩ hr hl (by omega)
  | nSelectors =>
    exact readBits_decoded (by omega) (by omega) fun v c' _ hr hl =>
      Decoded.answers_ok ⟨_, rfl⟩ hr hl (by omega)
  | selector n =>
    refine (readUnary_answers (n - 1) 0 c).imp ?_
    rintro i ⟨j, rfl, hj⟩
    exact ⟨j, rfl, by omega⟩
  | startLen =>
    exact readBits_decoded (by omega) (by omega) fun v c' _ hr hl =>
      Decoded.answers_ok ⟨_, rfl⟩ hr hl (by omega)
  | lenDelta =>
    refine readBits_decoded (by omega) (by omega) fun v c' _ hr hl => ?_
    split
    · exact Decoded.answers_ok (Or.inl rfl) hr hl le_rfl
    · refine Decoded.Answers.after (c' := c') ?_ hr hl
      refine readBits_decoded (by omega) (by omega) fun d c'' _ hr' hl' => ?_
      refine Decoded.answers_ok ?_ hr' hl' le_rfl
      split
      · exact Or.inr (Or.inl rfl)
      · exact Or.inr (Or.inr rfl)
  | symbol t n => exact absurd rfl (h t n)
  | combinedCrc =>
    exact readBytes_decoded fun v c' hr hl => Decoded.answers_ok ⟨_, rfl⟩ hr hl (by omega)

end Sys2Proof
end

