-- ==== Sys2Proof/Laws/State.lean ====
section
/-! SUPPORT. What each named update of the state does to each field, true by unfolding it once: responding,
raising a fault (60_exceptions.md rule R310), the checksum port (46_checksum_unit.md rule R300), the walk,
the block buffer, the set-ups of a block. -/

namespace Sys2Proof.Machine

namespace State

/-! ### `respond` -/

@[simp] theorem respond_cmds (r : Response) (s : State) : (s.respond r).cmds = s.cmds := rfl
@[simp] theorem respond_responses (r : Response) (s : State) :
    (s.respond r).responses = s.responses ++ [r] := rfl
@[simp] theorem respond_phase (r : Response) (s : State) : (s.respond r).phase = .idle := rfl
@[simp] theorem respond_bulk (r : Response) (s : State) : (s.respond r).bulk = none := rfl
@[simp] theorem respond_cur (r : Response) (s : State) : (s.respond r).cur = s.cur := rfl
@[simp] theorem respond_srcClosed (r : Response) (s : State) :
    (s.respond r).srcClosed = s.srcClosed := rfl
@[simp] theorem respond_blockClass (r : Response) (s : State) :
    (s.respond r).blockClass = s.blockClass := rfl
@[simp] theorem respond_ps (r : Response) (s : State) : (s.respond r).ps = s.ps := rfl
@[simp] theorem respond_streamEnd (r : Response) (s : State) :
    (s.respond r).streamEnd = s.streamEnd := rfl
@[simp] theorem respond_started (r : Response) (s : State) : (s.respond r).started = s.started := rfl
@[simp] theorem respond_closed (r : Response) (s : State) : (s.respond r).closed = s.closed := rfl
@[simp] theorem respond_fault (r : Response) (s : State) : (s.respond r).fault = s.fault := rfl
@[simp] theorem respond_crc (r : Response) (s : State) : (s.respond r).crc = s.crc := rfl
@[simp] theorem respond_hdr (r : Response) (s : State) : (s.respond r).hdr = s.hdr := rfl
@[simp] theorem respond_tab (r : Response) (s : State) : (s.respond r).tab = s.tab := rfl
@[simp] theorem respond_dec (r : Response) (s : State) : (s.respond r).dec = s.dec := rfl
@[simp] theorem respond_blk (r : Response) (s : State) : (s.respond r).blk = s.blk := rfl
@[simp] theorem respond_pull (r : Response) (s : State) : (s.respond r).pull = s.pull := rfl

/-! ### `raise` -/

@[simp] theorem raise_cmds (f : FaultCode) (s : State) : (s.raise f).cmds = s.cmds := rfl
@[simp] theorem raise_responses (f : FaultCode) (s : State) :
    (s.raise f).responses = s.responses ++ [.err f] := rfl
@[simp] theorem raise_phase (f : FaultCode) (s : State) : (s.raise f).phase = .idle := rfl
@[simp] theorem raise_bulk (f : FaultCode) (s : State) : (s.raise f).bulk = none := rfl
@[simp] theorem raise_cur (f : FaultCode) (s : State) : (s.raise f).cur = s.cur := rfl
@[simp] theorem raise_srcClosed (f : FaultCode) (s : State) : (s.raise f).srcClosed = s.srcClosed := rfl
@[simp] theorem raise_blockClass (f : FaultCode) (s : State) :
    (s.raise f).blockClass = s.blockClass := rfl
@[simp] theorem raise_ps (f : FaultCode) (s : State) : (s.raise f).ps = s.ps := rfl
@[simp] theorem raise_streamEnd (f : FaultCode) (s : State) : (s.raise f).streamEnd = s.streamEnd := rfl
@[simp] theorem raise_started (f : FaultCode) (s : State) : (s.raise f).started = s.started := rfl
@[simp] theorem raise_closed (f : FaultCode) (s : State) : (s.raise f).closed = s.closed := rfl
@[simp] theorem raise_fault (f : FaultCode) (s : State) : (s.raise f).fault = some f := rfl
@[simp] theorem raise_crc (f : FaultCode) (s : State) : (s.raise f).crc = s.crc := rfl
@[simp] theorem raise_hdr (f : FaultCode) (s : State) : (s.raise f).hdr = s.hdr := rfl
@[simp] theorem raise_tab (f : FaultCode) (s : State) : (s.raise f).tab = s.tab := rfl
@[simp] theorem raise_dec (f : FaultCode) (s : State) : (s.raise f).dec = s.dec := rfl
@[simp] theorem raise_blk (f : FaultCode) (s : State) : (s.raise f).blk = s.blk := rfl
@[simp] theorem raise_pull (f : FaultCode) (s : State) : (s.raise f).pull = s.pull := rfl

/-! ### `CrcReset()` and `CrcUpdate(b)` -/

@[simp] theorem crcReset_cmds (s : State) (cfg : Config) : (s.crcReset cfg).cmds = s.cmds := rfl
@[simp] theorem crcReset_responses (s : State) (cfg : Config) : (s.crcReset cfg).responses = s.responses := rfl
@[simp] theorem crcReset_phase (s : State) (cfg : Config) : (s.crcReset cfg).phase = s.phase := rfl
@[simp] theorem crcReset_bulk (s : State) (cfg : Config) : (s.crcReset cfg).bulk = s.bulk := rfl
@[simp] theorem crcReset_cur (s : State) (cfg : Config) : (s.crcReset cfg).cur = s.cur := rfl
@[simp] theorem crcReset_srcClosed (s : State) (cfg : Config) : (s.crcReset cfg).srcClosed = s.srcClosed := rfl
@[simp] theorem crcReset_blockClass (s : State) (cfg : Config) : (s.crcReset cfg).blockClass = s.blockClass := rfl
@[simp] theorem crcReset_ps (s : State) (cfg : Config) : (s.crcReset cfg).ps = s.ps := rfl
@[simp] theorem crcReset_streamEnd (s : State) (cfg : Config) : (s.crcReset cfg).streamEnd = s.streamEnd := rfl
@[simp] theorem crcReset_started (s : State) (cfg : Config) : (s.crcReset cfg).started = s.started := rfl
@[simp] theorem crcReset_closed (s : State) (cfg : Config) : (s.crcReset cfg).closed = s.closed := rfl
@[simp] theorem crcReset_fault (s : State) (cfg : Config) : (s.crcReset cfg).fault = s.fault := rfl
@[simp] theorem crcReset_crc (s : State) (cfg : Config) :
    (s.crcReset cfg).crc = { s.crc with crcAcc := cfg.crcInit } := rfl
@[simp] theorem crcReset_hdr (s : State) (cfg : Config) : (s.crcReset cfg).hdr = s.hdr := rfl
@[simp] theorem crcReset_tab (s : State) (cfg : Config) : (s.crcReset cfg).tab = s.tab := rfl
@[simp] theorem crcReset_dec (s : State) (cfg : Config) : (s.crcReset cfg).dec = s.dec := rfl
@[simp] theorem crcReset_blk (s : State) (cfg : Config) : (s.crcReset cfg).blk = s.blk := rfl
@[simp] theorem crcReset_pull (s : State) (cfg : Config) : (s.crcReset cfg).pull = s.pull := rfl
@[simp] theorem crcUpdate_cmds (b : Byte) (s : State) (cfg : Config) : (s.crcUpdate b cfg).cmds = s.cmds := rfl
@[simp] theorem crcUpdate_responses (b : Byte) (s : State) (cfg : Config) :
    (s.crcUpdate b cfg).responses = s.responses := rfl
@[simp] theorem crcUpdate_phase (b : Byte) (s : State) (cfg : Config) : (s.crcUpdate b cfg).phase = s.phase := rfl
@[simp] theorem crcUpdate_bulk (b : Byte) (s : State) (cfg : Config) : (s.crcUpdate b cfg).bulk = s.bulk := rfl
@[simp] theorem crcUpdate_cur (b : Byte) (s : State) (cfg : Config) : (s.crcUpdate b cfg).cur = s.cur := rfl
@[simp] theorem crcUpdate_srcClosed (b : Byte) (s : State) (cfg : Config) :
    (s.crcUpdate b cfg).srcClosed = s.srcClosed := rfl
@[simp] theorem crcUpdate_blockClass (b : Byte) (s : State) (cfg : Config) :
    (s.crcUpdate b cfg).blockClass = s.blockClass := rfl
@[simp] theorem crcUpdate_ps (b : Byte) (s : State) (cfg : Config) : (s.crcUpdate b cfg).ps = s.ps := rfl
@[simp] theorem crcUpdate_streamEnd (b : Byte) (s : State) (cfg : Config) :
    (s.crcUpdate b cfg).streamEnd = s.streamEnd := rfl
@[simp] theorem crcUpdate_started (b : Byte) (s : State) (cfg : Config) : (s.crcUpdate b cfg).started = s.started := rfl
@[simp] theorem crcUpdate_closed (b : Byte) (s : State) (cfg : Config) : (s.crcUpdate b cfg).closed = s.closed := rfl
@[simp] theorem crcUpdate_fault (b : Byte) (s : State) (cfg : Config) : (s.crcUpdate b cfg).fault = s.fault := rfl
@[simp] theorem crcUpdate_crc (b : Byte) (s : State) (cfg : Config) :
    (s.crcUpdate b cfg).crc = { s.crc with crcAcc := cfg.crcStep s.crc.crcAcc b } := rfl
@[simp] theorem crcUpdate_hdr (b : Byte) (s : State) (cfg : Config) : (s.crcUpdate b cfg).hdr = s.hdr := rfl
@[simp] theorem crcUpdate_tab (b : Byte) (s : State) (cfg : Config) : (s.crcUpdate b cfg).tab = s.tab := rfl
@[simp] theorem crcUpdate_dec (b : Byte) (s : State) (cfg : Config) : (s.crcUpdate b cfg).dec = s.dec := rfl
@[simp] theorem crcUpdate_blk (b : Byte) (s : State) (cfg : Config) : (s.crcUpdate b cfg).blk = s.blk := rfl
@[simp] theorem crcUpdate_pull (b : Byte) (s : State) (cfg : Config) : (s.crcUpdate b cfg).pull = s.pull := rfl

/-! ### The walk -/

@[simp] theorem advanceWalk_cmds (s : State) : (s.advanceWalk).cmds = s.cmds := rfl
@[simp] theorem advanceWalk_responses (s : State) : (s.advanceWalk).responses = s.responses := rfl
@[simp] theorem advanceWalk_phase (s : State) : (s.advanceWalk).phase = s.phase := rfl
@[simp] theorem advanceWalk_bulk (s : State) : (s.advanceWalk).bulk = s.bulk := rfl
@[simp] theorem advanceWalk_cur (s : State) : (s.advanceWalk).cur = s.cur := rfl
@[simp] theorem advanceWalk_srcClosed (s : State) : (s.advanceWalk).srcClosed = s.srcClosed := rfl
@[simp] theorem advanceWalk_blockClass (s : State) : (s.advanceWalk).blockClass = s.blockClass := rfl
@[simp] theorem advanceWalk_ps (s : State) : (s.advanceWalk).ps = s.ps := rfl
@[simp] theorem advanceWalk_streamEnd (s : State) : (s.advanceWalk).streamEnd = s.streamEnd := rfl
@[simp] theorem advanceWalk_started (s : State) : (s.advanceWalk).started = s.started := rfl
@[simp] theorem advanceWalk_closed (s : State) : (s.advanceWalk).closed = s.closed := rfl
@[simp] theorem advanceWalk_fault (s : State) : (s.advanceWalk).fault = s.fault := rfl
@[simp] theorem advanceWalk_crc (s : State) : (s.advanceWalk).crc = s.crc := rfl
@[simp] theorem advanceWalk_hdr (s : State) : (s.advanceWalk).hdr = s.hdr := rfl
@[simp] theorem advanceWalk_tab (s : State) : (s.advanceWalk).tab = s.tab := rfl
@[simp] theorem advanceWalk_dec (s : State) : (s.advanceWalk).dec = s.dec := rfl
@[simp] theorem advanceWalk_blk (s : State) : (s.advanceWalk).blk = s.blk := rfl
@[simp] theorem advanceWalk_pull (s : State) :
    (s.advanceWalk).pull = { s.pull with
      tPos := s.blk.tt.read s.pull.tPos, i2 := s.pull.i2 + 1, randBit := none } := rfl

/-! ### `respond BYTE(b)`, `respond EOD` and `Output(b)` inside a READ or a READ_BULK -/

/-- `respond BYTE(b)` touches the responses, the phase and the list of a READ_BULK, nothing else. -/
theorem respondByte_eq (b : Byte) (s : State) :
    s.respondByte b = { s with
      responses := (s.respondByte b).responses, phase := (s.respondByte b).phase
      bulk := (s.respondByte b).bulk } := by
  unfold respondByte
  split
  · rfl
  · split <;> rfl

/-- `respond EOD` touches the responses, the phase and the list of a READ_BULK, nothing else. -/
theorem respondEod_eq (s : State) :
    s.respondEod = { s with
      responses := s.respondEod.responses, phase := .idle, bulk := none } := by
  unfold respondEod
  split <;> rfl

@[simp] theorem respondByte_cmds (b : Byte) (s : State) : (s.respondByte b).cmds = s.cmds := by
  rw [respondByte_eq]
@[simp] theorem respondByte_cur (b : Byte) (s : State) : (s.respondByte b).cur = s.cur := by
  rw [respondByte_eq]
@[simp] theorem respondByte_srcClosed (b : Byte) (s : State) : (s.respondByte b).srcClosed = s.srcClosed := by
  rw [respondByte_eq]
@[simp] theorem respondByte_blockClass (b : Byte) (s : State) : (s.respondByte b).blockClass = s.blockClass := by
  rw [respondByte_eq]
@[simp] theorem respondByte_ps (b : Byte) (s : State) : (s.respondByte b).ps = s.ps := by
  rw [respondByte_eq]
@[simp] theorem respondByte_streamEnd (b : Byte) (s : State) : (s.respondByte b).streamEnd = s.streamEnd := by
  rw [respondByte_eq]
@[simp] theorem respondByte_started (b : Byte) (s : State) : (s.respondByte b).started = s.started := by
  rw [respondByte_eq]
@[simp] theorem respondByte_closed (b : Byte) (s : State) : (s.respondByte b).closed = s.closed := by
  rw [respondByte_eq]
@[simp] theorem respondByte_fault (b : Byte) (s : State) : (s.respondByte b).fault = s.fault := by
  rw [respondByte_eq]
@[simp] theorem respondByte_crc (b : Byte) (s : State) : (s.respondByte b).crc = s.crc := by
  rw [respondByte_eq]
@[simp] theorem respondByte_hdr (b : Byte) (s : State) : (s.respondByte b).hdr = s.hdr := by
  rw [respondByte_eq]
@[simp] theorem respondByte_tab (b : Byte) (s : State) : (s.respondByte b).tab = s.tab := by
  rw [respondByte_eq]
@[simp] theorem respondByte_dec (b : Byte) (s : State) : (s.respondByte b).dec = s.dec := by
  rw [respondByte_eq]
@[simp] theorem respondByte_blk (b : Byte) (s : State) : (s.respondByte b).blk = s.blk := by
  rw [respondByte_eq]
@[simp] theorem respondByte_pull (b : Byte) (s : State) : (s.respondByte b).pull = s.pull := by
  rw [respondByte_eq]
@[simp] theorem respondEod_cmds (s : State) : s.respondEod.cmds = s.cmds := by
  rw [respondEod_eq]
@[simp] theorem respondEod_cur (s : State) : s.respondEod.cur = s.cur := by
  rw [respondEod_eq]
@[simp] theorem respondEod_srcClosed (s : State) : s.respondEod.srcClosed = s.srcClosed := by
  rw [respondEod_eq]
@[simp] theorem respondEod_blockClass (s : State) : s.respondEod.blockClass = s.blockClass := by
  rw [respondEod_eq]
@[simp] theorem respondEod_ps (s : State) : s.respondEod.ps = s.ps := by
  rw [respondEod_eq]
@[simp] theorem respondEod_streamEnd (s : State) : s.respondEod.streamEnd = s.streamEnd := by
  rw [respondEod_eq]
@[simp] theorem respondEod_started (s : State) : s.respondEod.started = s.started := by
  rw [respondEod_eq]
@[simp] theorem respondEod_closed (s : State) : s.respondEod.closed = s.closed := by
  rw [respondEod_eq]
@[simp] theorem respondEod_fault (s : State) : s.respondEod.fault = s.fault := by
  rw [respondEod_eq]
@[simp] theorem respondEod_crc (s : State) : s.respondEod.crc = s.crc := by
  rw [respondEod_eq]
@[simp] theorem respondEod_hdr (s : State) : s.respondEod.hdr = s.hdr := by
  rw [respondEod_eq]
@[simp] theorem respondEod_tab (s : State) : s.respondEod.tab = s.tab := by
  rw [respondEod_eq]
@[simp] theorem respondEod_dec (s : State) : s.respondEod.dec = s.dec := by
  rw [respondEod_eq]
@[simp] theorem respondEod_blk (s : State) : s.respondEod.blk = s.blk := by
  rw [respondEod_eq]
@[simp] theorem respondEod_pull (s : State) : s.respondEod.pull = s.pull := by
  rw [respondEod_eq]
@[simp] theorem respondEod_phase (s : State) : s.respondEod.phase = .idle := by
  rw [respondEod_eq]
@[simp] theorem respondEod_bulk (s : State) : s.respondEod.bulk = none := by
  rw [respondEod_eq]

/-- In a READ the byte is the response. -/
theorem respondByte_of_single (b : Byte) {s : State} (h : s.bulk = none) :
    s.respondByte b = s.respond (.byte b) := by rw [respondByte, h]

/-- In a READ_BULK that wants more bytes the byte is gathered. -/
theorem respondByte_of_more (b : Byte) {s : State} {k : Bulk} (h : s.bulk = some k)
    (hk : k.got.length + 1 < k.wanted) :
    s.respondByte b = { s with phase := .pull, bulk := some { k with got := k.got ++ [b] } } := by
  rw [respondByte, h]
  simp [hk]

/-- The last byte a READ_BULK wants completes it. -/
theorem respondByte_of_last (b : Byte) {s : State} {k : Bulk} (h : s.bulk = some k)
    (hk : ¬ k.got.length + 1 < k.wanted) : s.respondByte b = s.respond (.data (k.got ++ [b])) := by
  rw [respondByte, h]
  simp [hk]

@[simp] theorem output_cmds (b : Byte) (s : State) (cfg : Config) : (s.output b cfg).cmds = s.cmds := by
  simp [output]
@[simp] theorem output_cur (b : Byte) (s : State) (cfg : Config) : (s.output b cfg).cur = s.cur := by
  simp [output]
@[simp] theorem output_srcClosed (b : Byte) (s : State) (cfg : Config) : (s.output b cfg).srcClosed = s.srcClosed := by
  simp [output]
@[simp] theorem output_blockClass (b : Byte) (s : State) (cfg : Config) : (s.output b cfg).blockClass = s.blockClass := by
  simp [output]
@[simp] theorem output_ps (b : Byte) (s : State) (cfg : Config) : (s.output b cfg).ps = s.ps := by
  simp [output]
@[simp] theorem output_streamEnd (b : Byte) (s : State) (cfg : Config) : (s.output b cfg).streamEnd = s.streamEnd := by
  simp [output]
@[simp] theorem output_started (b : Byte) (s : State) (cfg : Config) : (s.output b cfg).started = s.started := by
  simp [output]
@[simp] theorem output_closed (b : Byte) (s : State) (cfg : Config) : (s.output b cfg).closed = s.closed := by
  simp [output]
@[simp] theorem output_fault (b : Byte) (s : State) (cfg : Config) : (s.output b cfg).fault = s.fault := by
  simp [output]
@[simp] theorem output_hdr (b : Byte) (s : State) (cfg : Config) : (s.output b cfg).hdr = s.hdr := by
  simp [output]
@[simp] theorem output_tab (b : Byte) (s : State) (cfg : Config) : (s.output b cfg).tab = s.tab := by
  simp [output]
@[simp] theorem output_dec (b : Byte) (s : State) (cfg : Config) : (s.output b cfg).dec = s.dec := by
  simp [output]
@[simp] theorem output_blk (b : Byte) (s : State) (cfg : Config) : (s.output b cfg).blk = s.blk := by
  simp [output]
@[simp] theorem output_pull (b : Byte) (s : State) (cfg : Config) : (s.output b cfg).pull = s.pull := by
  simp [output]
@[simp] theorem output_crc (b : Byte) (s : State) (cfg : Config) :
    (s.output b cfg).crc = { s.crc with crcAcc := cfg.crcStep s.crc.crcAcc b } := by
  simp [output]

end State

end Sys2Proof.Machine
end

