-- ==== Sys2Proof/Laws/Ops.lean ====
section
/-! SUPPORT. What the shared operations of the meanings can do: the entry checks of a command, the move to
front, the block buffer, the flush of a run, the maps of the alphabet, the building of the tables. -/

namespace Sys2Proof.Machine

/-! ### Entry checks (40_host_commands.md rule R150) -/

/-- A latched fault answers every command but CLOSE. -/
theorem enter_of_fault {op : HostOp} {s : State} {f : FaultCode} (h : s.fault = some f) (hop : op ≠ .close)
    (body : State → State) : s.enter op body = .next (s.respond (.err f)) := by
  simp [State.enter, entryCheck, h, hop]

/-- A closed port with no fault latched rejects every command but CLOSE. -/
theorem enter_of_closed {op : HostOp} {s : State} (hf : s.fault = none) (hc : s.closed = true)
    (hop : op ≠ .close) (body : State → State) :
    s.enter op body = .next (s.raise .hostProtocolViolation) := by
  simp [State.enter, entryCheck, hf, hc, hop]

/-- CLOSE always runs. -/
theorem enter_close (s : State) (body : State → State) : s.enter .close body = .next (body s) := by
  simp [State.enter, entryCheck]

/-- Everything the entry checks can lead to. -/
theorem enter_cases (op : HostOp) (s : State) (body : State → State) :
    (∃ f, s.fault = some f ∧ s.enter op body = .next (s.respond (.err f))) ∨
    (s.fault = none ∧ ∃ f, s.enter op body = .next (s.raise f)) ∨
    (s.enter op body = .next (body s) ∧ (op = .close ∨ (s.fault = none ∧ s.closed = false ∧
      unsupported op = false ∧ (op = .start → s.started = false) ∧
      (op = .read ∨ op = .readBulk → s.started = true)))) := by
  by_cases hop : op = .close
  · subst hop; exact Or.inr (Or.inr ⟨enter_close s body, Or.inl rfl⟩)
  · cases hf : s.fault with
    | some f => exact Or.inl ⟨f, rfl, enter_of_fault hf hop body⟩
    | none =>
      right
      have hrun : ∀ e, entryCheck op s = e → s.enter op body =
          (match e with
            | .sticky f => .next (s.respond (.err f))
            | .violation f => .next (s.raise f)
            | .run => .next (body s)) := fun e he => by subst he; rfl
      by_cases hc : s.closed = true
      · exact Or.inl ⟨rfl, _, enter_of_closed hf hc hop body⟩
      by_cases hu : unsupported op = true
      · exact Or.inl ⟨rfl, _, hrun (.violation .unsupportedOperation) (by simp [entryCheck, *])⟩
      by_cases hs : op = .start ∧ s.started = true
      · exact Or.inl ⟨rfl, _, hrun (.violation .hostProtocolViolation) (by
          rw [entryCheck, if_neg hop, hf]
          simp only
          rw [if_neg hc, if_neg hu, if_pos hs])⟩
      by_cases hr : (op = .read ∨ op = .readBulk) ∧ ¬ s.started = true
      · exact Or.inl ⟨rfl, _, hrun (.violation .hostProtocolViolation) (by
          rw [entryCheck, if_neg hop, hf]
          simp only
          rw [if_neg hc, if_neg hu, if_neg hs, if_pos hr])⟩
      refine Or.inr ⟨hrun .run ?_, Or.inr ⟨rfl, by simpa using hc, by simpa using hu, fun ho => ?_, fun ho => ?_⟩⟩
      · rw [entryCheck, if_neg hop, hf]
        simp only
        rw [if_neg hc, if_neg hu, if_neg hs, if_neg hr]
      · simpa [ho] using hs
      · by_contra hne
        exact hr ⟨ho, hne⟩

/-! ### Move to front (rules R203, R235) -/

theorem moveToFront_eq {α : Type} {l : List α} {r : Nat} (h : r < l.length) :
    moveToFront l r = some (l[r], l[r] :: l.eraseIdx r) := by
  simp [moveToFront, h]

theorem length_moved {α : Type} {l : List α} {r : Nat} (h : r < l.length) :
    (l[r] :: l.eraseIdx r).length = l.length := by
  simp [List.length_eraseIdx, h]; omega

/-- The element at each position after the move: the moved one first, those before it one place on, the
others where they were. -/
theorem getElem?_moved {α : Type} {l : List α} {r : Nat} (h : r < l.length) (k : Nat) :
    (l[r] :: l.eraseIdx r)[k]? = if k = 0 then some l[r] else if k ≤ r then l[k - 1]? else l[k]? := by
  cases k with
  | zero => simp
  | succ k =>
    simp only [List.getElem?_cons_succ, List.getElem?_eraseIdx, Nat.succ_ne_zero, if_false,
      Nat.add_sub_cancel]
    split <;> split <;> first | rfl | omega

/-- Membership in the first `n` places, by position. -/
theorem mem_take_iff {α : Type} {l : List α} {n : Nat} {v : α} :
    v ∈ l.take n ↔ ∃ k < n, l[k]? = some v := by
  simp only [List.mem_iff_getElem?, List.getElem?_take]
  constructor
  · rintro ⟨k, hk⟩
    split at hk
    · exact ⟨k, ‹_›, hk⟩
    · cases hk
  · rintro ⟨k, hk, hv⟩
    exact ⟨k, by rw [if_pos hk, hv]⟩

/-- What stands in the first `n` places comes from the first `n` places. -/
theorem mem_take_moved {α : Type} {l : List α} {r n : Nat} (h : r < l.length) (hr : r < n) {v : α}
    (hv : v ∈ (l[r] :: l.eraseIdx r).take n) : v ∈ l.take n := by
  obtain ⟨k, hk, hget⟩ := mem_take_iff.1 hv
  rw [getElem?_moved h] at hget
  rw [mem_take_iff]
  split at hget
  · exact ⟨r, hr, by rw [← hget]; simp [h]⟩
  · split at hget
    · exact ⟨k - 1, by omega, hget⟩
    · exact ⟨k, hk, hget⟩

/-! ### The block buffer (rules R234, R235, R237) -/

@[simp] theorem append_last (n : Nat) (b : Byte) (m : BlockBuffer) : (m.append n b).last = m.last + n := rfl
@[simp] theorem append_ll8 (n : Nat) (b : Byte) (m : BlockBuffer) :
    (m.append n b).ll8 = Mem.writeRun n m.ll8 (m.last + 1).toNat b := rfl
@[simp] theorem append_unzftab (n : Nat) (b : Byte) (m : BlockBuffer) :
    (m.append n b).unzftab = m.unzftab.write b.toNat (m.unzftab.read b.toNat + n) := rfl
@[simp] theorem append_cftab (n : Nat) (b : Byte) (m : BlockBuffer) : (m.append n b).cftab = m.cftab := rfl
@[simp] theorem append_tt (n : Nat) (b : Byte) (m : BlockBuffer) : (m.append n b).tt = m.tt := rfl

/-- The counts of the bytes after `n` copies of one have been added at the end. -/
theorem occurrences_writeRun {ll8 : Mem Byte} (h : ll8.wf) (l n : Nat) (b : Byte) (v : Nat) :
    occurrences (Mem.writeRun n ll8 l b) (l + n) v =
      occurrences ll8 l v + if b.toNat = v then n else 0 := by
  have key : ∀ k ≤ n, occurrences (Mem.writeRun n ll8 l b) (l + k) v =
      occurrences ll8 l v + if b.toNat = v then k else 0 := by
    intro k hk
    induction k with
    | zero =>
      simp only [Nat.add_zero, ite_self]
      unfold occurrences
      congr 1
      refine List.filter_congr fun i hi => ?_
      rw [Mem.read_writeRun h, if_neg (by have := List.mem_range.1 hi; omega)]
    | succ k ih =>
      have hr : (Mem.writeRun n ll8 l b).read (l + k) = b := by
        rw [Mem.read_writeRun h, if_pos (by omega)]
      rw [← Nat.add_assoc, occurrences_succ, ih (by omega), hr]
      split <;> omega
  exact key n le_rfl

/-- Appending keeps the counts and the bounds. -/
theorem filling_append {s : State} (hf : s.FillingInv) (hm : s.MemoriesInv) {n : Nat} (b : Byte)
    (h : s.blk.last + 1 + n ≤ (s.capacity : Int)) :
    ({ s with blk := s.blk.append n b } : State).FillingInv := by
  have hb := hf.bounds
  refine ⟨⟨by simp; omega, by simpa [State.capacity, add_right_comm] using h⟩, fun v hv => ?_⟩
  have e : (s.blk.last + n + 1).toNat = (s.blk.last + 1).toNat + n := by omega
  simp only [append_unzftab, append_ll8, append_last, e]
  rw [occurrences_writeRun hm.ll8, Mem.read_write hm.unzftab]
  have hc := hf.counts v hv
  split
  · next he => subst he; simp [hc]
  · next he => rw [if_neg (fun h => he h.symm), hc]; omega

theorem memories_append {s : State} (hm : s.MemoriesInv) (n : Nat) (b : Byte) :
    ({ s with blk := s.blk.append n b } : State).MemoriesInv :=
  { hm with
    unzftab := Mem.wf_write hm.unzftab _ _
    ll8 := Mem.wf_writeRun hm.ll8 _ _ _ }

/-- The bytes fit: they are appended. -/
theorem emitRun_of_room {n : Nat} {b : Byte} {s : State} (h : s.blk.last + 1 + n ≤ (s.capacity : Int))
    (hc : s.capacity ≤ maxCapacity) : emitRun n b s = .go { s with blk := s.blk.append n b } := by
  rw [emitRun, if_neg (by omega), if_neg (by omega)]

/-- The bytes do not fit: `BlockOverrun`. -/
theorem emitRun_of_overrun {n : Nat} {b : Byte} {s : State} (h : (s.capacity : Int) < s.blk.last + 1 + n) :
    emitRun n b s = .ended (s.raise .blockOverrun) := by
  rw [emitRun, if_pos h]

theorem flushRun_of_none {s : State} (h : s.dec.runS = 0) : flushRun s = .go s := by
  rw [flushRun, if_pos h]

/-- A pending run is flushed: copies of the byte of the list's head are appended. -/
theorem flushRun_of_room {s : State} {y : Byte} {ys : List Byte} (h0 : s.dec.runS ≠ 0)
    (hy : s.dec.yy = y :: ys) (h : s.blk.last + 1 + s.dec.runS ≤ (s.capacity : Int))
    (hc : s.capacity ≤ maxCapacity) :
    flushRun s = .go { s with
      blk := s.blk.append s.dec.runS (s.tab.seqToUnseq.read y.toNat)
      dec := { s.dec with runS := 0, runN := 1 } } := by
  rw [flushRun, if_neg h0, hy]
  simp only
  rw [emitRun_of_room h hc]
  rfl

theorem flushRun_of_overrun {s : State} {y : Byte} {ys : List Byte} (h0 : s.dec.runS ≠ 0)
    (hy : s.dec.yy = y :: ys) (h : (s.capacity : Int) < s.blk.last + 1 + s.dec.runS) :
    flushRun s = .ended (s.raise .blockOverrun) := by
  rw [flushRun, if_neg h0, hy]
  simp only
  rw [emitRun_of_overrun h]
  rfl

/-! ### The maps of the alphabet (rules R200, R201) -/

theorem mem_usedBytes {inUse : Mem Bool} {b : Byte} : b ∈ usedBytes inUse ↔ inUse.read b.toNat = true := by
  simp only [usedBytes, List.mem_map, List.mem_filter, List.mem_range]
  constructor
  · rintro ⟨v, ⟨hv, hu⟩, rfl⟩
    have : v < 256 := hv
    simpa [Nat.mod_eq_of_lt this] using hu
  · exact fun h => ⟨b.toNat, ⟨b.isLt, h⟩, by simp⟩

/-- The used byte values are listed in increasing order. -/
theorem pairwise_usedBytes (inUse : Mem Bool) : (usedBytes inUse).Pairwise fun a b => a.toNat < b.toNat := by
  unfold usedBytes
  rw [List.pairwise_map]
  refine (List.Pairwise.filter _ List.pairwise_lt_range).imp_of_mem ?_
  intro a b ha hb hab
  have h1 : a < 256 := List.mem_range.1 (List.mem_filter.1 ha).1
  have h2 : b < 256 := List.mem_range.1 (List.mem_filter.1 hb).1
  simpa [Nat.mod_eq_of_lt h1, Nat.mod_eq_of_lt h2] using hab

theorem length_usedBytes_le (inUse : Mem Bool) : (usedBytes inUse).length ≤ byteValues := by
  simp only [usedBytes, List.length_map]
  exact (List.length_filter_le _ _).trans (by simp)

theorem writeRanks_wf {m : Mem Byte} (h : m.wf) (r : Nat) (bs : List Byte) : (writeRanks m r bs).wf := by
  induction bs generalizing m r with
  | nil => exact h
  | cons b bs ih => exact ih (Mem.wf_write h _ _) _

/-- The rank of each byte of a list with no repeats; the others keep theirs. -/
theorem writeRanks_read {m : Mem Byte} (h : m.wf) (r : Nat) {bs : List Byte} (hn : bs.Nodup) :
    (∀ k (hk : k < bs.length), (writeRanks m r bs).read bs[k].toNat = BitVec.ofNat 8 (r + k)) ∧
    ∀ j, (∀ b ∈ bs, b.toNat ≠ j) → (writeRanks m r bs).read j = m.read j := by
  induction bs generalizing m r with
  | nil => exact ⟨fun k hk => absurd hk (by simp), fun _ _ => rfl⟩
  | cons b bs ih =>
    obtain ⟨hb, hn⟩ := List.nodup_cons.1 hn
    obtain ⟨h1, h2⟩ := ih (m := m.write b.toNat (BitVec.ofNat 8 r)) (Mem.wf_write h _ _) (r + 1) hn
    refine ⟨fun k hk => ?_, fun j hj => ?_⟩
    · cases k with
      | zero =>
        rw [writeRanks, List.getElem_cons_zero, h2 _ fun b' hb' he => hb (by rwa [← BitVec.eq_of_toNat_eq he]),
          Mem.read_write_self h]
        rfl
      | succ k =>
        rw [writeRanks, List.getElem_cons_succ, h1 k (by simpa using hk)]
        congr 1
        omega
    · rw [writeRanks, h2 j fun b' hb' => hj b' (by simp [hb']),
        Mem.read_write_of_ne h _ (Ne.symm (hj b (by simp)))]

/-! ### The in-use bitmap (rule R200) -/

/-- The next group present, if there is one. -/
theorem nextGroup_some {u : BitVec 16} {g g' : Nat} (h : nextGroup u g = some g') :
    g ≤ g' ∧ g' < 16 ∧ u.getMsbD g' = true ∧ ∀ k, g ≤ k → k < g' → u.getMsbD k = false := by
  obtain ⟨hp, as, bs, he, hn⟩ := List.find?_eq_some_iff_append.1 h
  have hm : g' ∈ List.range' g (16 - g) := by rw [he]; simp
  have hr := List.mem_range'_1.1 hm
  refine ⟨hr.1, by omega, hp, fun k hk1 hk2 => ?_⟩
  have hk : k ∈ List.range' g (16 - g) := by rw [List.mem_range'_1]; omega
  rw [he] at hk
  rcases List.mem_append.1 hk with hk | hk
  · simpa using hn k hk
  · rcases List.mem_cons.1 hk with rfl | hk
    · omega
    · have hp := List.pairwise_lt_range' (s := g) (n := 16 - g)
      rw [he] at hp
      have := (List.pairwise_cons.1 (List.pairwise_append.1 hp).2.1).1 k hk
      omega

theorem nextGroup_none {u : BitVec 16} {g : Nat} (h : nextGroup u g = none) :
    ∀ k, g ≤ k → k < 16 → u.getMsbD k = false := by
  intro k h1 h2
  have := List.find?_eq_none.1 h k (by rw [List.mem_range'_1]; omega)
  simpa using this

theorem writeRow_wf {m : Mem Bool} (h : m.wf) (g : Nat) (v : BitVec 16) : (writeRow g v m).wf :=
  Mem.wf_writeList h _ _

/-- The sixteen elements of a row; the others keep theirs. -/
theorem writeRow_read {m : Mem Bool} (h : m.wf) (g : Nat) (v : BitVec 16) (k : Nat) :
    (writeRow g v m).read k = if 16 * g ≤ k ∧ k < 16 * g + 16 then v.getMsbD (k - 16 * g) else m.read k := by
  rw [writeRow, Mem.read_writeList h]
  split
  · split
    · rw [List.getD_eq_getElem _ _ (by simp; omega)]; simp
    · rw [List.getD_eq_default _ _ (by simp; omega)]
  · rw [if_neg (by omega)]

/-! ### Building every table (rules R205, R206) -/

/-- The tables of a list of distinct numbers are built; the others stay. -/
theorem buildTables_read {a : Nat} {ts : List Nat} (hn : ts.Nodup) {m : Mem HuffTable} (h : m.wf) :
    (buildTables a ts m).wf ∧ ∀ t, (buildTables a ts m).read t =
      if t ∈ ts then (m.read t).build a else m.read t := by
  unfold buildTables
  induction ts generalizing m with
  | nil => exact ⟨h, fun t => by simp⟩
  | cons x xs ih =>
    obtain ⟨hx, hn⟩ := List.nodup_cons.1 hn
    obtain ⟨h1, h2⟩ := ih hn (m := m.write x ((m.read x).build a)) (Mem.wf_write h _ _)
    refine ⟨h1, fun t => ?_⟩
    rw [List.foldl_cons, h2 t]
    by_cases ht : t = x
    · subst ht
      simp [hx, Mem.read_write_self h]
    · simp only [List.mem_cons, ht, false_or, Mem.read_write_of_ne h _ ht]

/-- What an element of the table memory can be: the blank table, or one listed. -/
theorem read_mem_or_blank {m : Mem HuffTable} (t : Nat) : m.read t = Mem.blank ∨ ∃ p ∈ m, m.read t = p.2 := by
  induction m with
  | nil => exact Or.inl rfl
  | cons p m ih =>
    rw [show p = (p.1, p.2) from rfl, Mem.read_cons]
    split
    · exact Or.inl rfl
    · split
      · exact Or.inr ⟨p, by simp, rfl⟩
      · rcases ih with h | ⟨q, hq, h⟩
        · exact Or.inl h
        · exact Or.inr ⟨q, by simp [hq], h⟩

/-- The four memories of a table are in their canonical form. -/
def TableWf (h : HuffTable) : Prop := h.len.wf ∧ h.limit.wf ∧ h.base.wf ∧ h.perm.wf

theorem tableWf_read {s : State} (hm : s.MemoriesInv) (t : Nat) : TableWf (s.tab.huff.read t) := by
  rcases read_mem_or_blank (m := s.tab.huff) t with h | ⟨p, hp, h⟩
  · rw [h]; exact ⟨Mem.wf_nil, Mem.wf_nil, Mem.wf_nil, Mem.wf_nil⟩
  · rw [h]; exact hm.tables p hp

/-- Entries of a memory written at one place. -/
theorem mem_write_entry {m : Mem HuffTable} {i : Nat} {v : HuffTable} {p : Nat × HuffTable}
    (hp : p ∈ m.write i v) : p ∈ m ∨ p.2 = v := by
  induction m with
  | nil =>
    simp only [Mem.write] at hp
    split at hp <;> simp_all
  | cons q m ih =>
    obtain ⟨a, w⟩ := q
    simp only [Mem.write] at hp
    split at hp
    · split at hp
      · exact Or.inl hp
      · rcases List.mem_cons.1 hp with rfl | hp
        · exact Or.inr rfl
        · exact Or.inl hp
    · split at hp
      · split at hp
        · exact Or.inl (by simp [hp])
        · rcases List.mem_cons.1 hp with rfl | hp
          · exact Or.inr rfl
          · exact Or.inl (by simp [hp])
      · rcases List.mem_cons.1 hp with rfl | hp
        · exact Or.inl (by simp)
        · rcases ih hp with h | h
          · exact Or.inl (by simp [h])
          · exact Or.inr h

/-- Building tables keeps every table's memories in their canonical form. -/
theorem buildTables_tables {a : Nat} {ts : List Nat} {m : Mem HuffTable} (h : ∀ p ∈ m, TableWf p.2) :
    ∀ p ∈ buildTables a ts m, TableWf p.2 := by
  unfold buildTables
  induction ts generalizing m with
  | nil => exact h
  | cons x xs ih =>
    refine ih fun p hp => ?_
    rcases mem_write_entry hp with hp | hp
    · exact h p hp
    · rw [hp]
      have hx : TableWf (m.read x) := by
        rcases read_mem_or_blank (m := m) x with h' | ⟨q, hq, h'⟩
        · rw [h']; exact ⟨Mem.wf_nil, Mem.wf_nil, Mem.wf_nil, Mem.wf_nil⟩
        · rw [h']; exact h q hq
      exact HuffTable.build_wf a hx.1 hx.2.2.2

end Sys2Proof.Machine
end

