-- ==== Sys2Proof/Laws/PerInstr.lean ====
section
/-! SUPPORT. A family of statements made per instruction: every well-formed instruction has an encoding in
some form of 30_encoding.md. -/

namespace Sys2Proof.Laws

namespace WellFormedEncodes

/-- A well-formed instruction is a host command with a command word (rule R101), a stream field with its bits
(rules R105 to R114), a symbol of some alphabet of 1 to 256 byte values (rule R112), a block-content byte (rule
R119), or the mask bit, which the unit produces and no word carries (rule R120). -/
def Statement (i : Instr) : Prop :=
  i.wellFormed = true →
    (encodeCommand i).isSome = true ∨ (encodeField i).isSome = true ∨
    (∃ nInUse, 1 ≤ nInUse ∧ nInUse ≤ byteValues ∧ (symbolValue nInUse i).isSome = true) ∨
    (∀ r, (encodeByte r i).isSome = true) ∨ ∃ r, i = .randMask r

theorem start (a : Word) : Statement (.start a) := fun _ => .inl rfl
theorem read (a : Word) : Statement (.read a) := fun _ => .inl rfl
theorem readBulk (n : Word) : Statement (.readBulk n) := fun _ => .inl rfl
theorem write (a : Word) : Statement (.write a) := fun _ => .inl rfl
theorem seek (a : Word) : Statement (.seek a) := fun _ => .inl rfl
theorem setLength (a : Word) : Statement (.setLength a) := fun _ => .inl rfl
theorem getLength (a : Word) : Statement (.getLength a) := fun _ => .inl rfl
theorem close (a : Word) : Statement (.close a) := fun _ => .inl rfl
theorem streamHdr (h3 : Byte) : Statement (.streamHdr h3) := fun _ => .inr (.inl rfl)
theorem blockMagic : Statement .blockMagic := fun _ => .inr (.inl rfl)
theorem endMagic : Statement .endMagic := fun _ => .inr (.inl rfl)
theorem blockCrc (c : Word) : Statement (.blockCrc c) := fun _ => .inr (.inl rfl)
theorem randomised (r : Bool) : Statement (.randomised r) := fun _ => .inr (.inl rfl)
theorem origPtr (p : Nat) : Statement (.origPtr p) := fun _ => .inr (.inl rfl)
theorem inUse16 (u : BitVec 16) : Statement (.inUse16 u) := fun _ => .inr (.inl rfl)
theorem inUseRow (v : BitVec 16) : Statement (.inUseRow v) := fun _ => .inr (.inl rfl)
theorem nGroups (g : BitVec 3) : Statement (.nGroups g) := fun _ => .inr (.inl rfl)
theorem nSelectors (n : BitVec 15) : Statement (.nSelectors n) := fun _ => .inr (.inl rfl)
theorem selector (j : Nat) : Statement (.selector j) := fun _ => .inr (.inl rfl)
theorem startLen (l : BitVec 5) : Statement (.startLen l) := fun _ => .inr (.inl rfl)
theorem lenStop : Statement .lenStop := fun _ => .inr (.inl rfl)
theorem lenInc : Statement .lenInc := fun _ => .inr (.inl rfl)
theorem lenDec : Statement .lenDec := fun _ => .inr (.inl rfl)
theorem combinedCrc (c : Word) : Statement (.combinedCrc c) := fun _ => .inr (.inl rfl)
theorem runA : Statement .runA := fun _ => .inr (.inr (.inl ⟨1, by decide, by decide, rfl⟩))
theorem runB : Statement .runB := fun _ => .inr (.inr (.inl ⟨1, by decide, by decide, rfl⟩))
theorem mtfv (k : Nat) : Statement (.mtfv k) := fun h => by
  have hk : 2 ≤ k ∧ k ≤ byteValues := by simpa [Instr.wellFormed] using h
  exact .inr (.inr (.inl ⟨k, by omega, hk.2, by simp [symbolValue, hk.1]⟩))
theorem eob : Statement .eob := fun _ => .inr (.inr (.inl ⟨1, by decide, by decide, rfl⟩))
theorem literal (v : Byte) : Statement (.literal v) := fun _ => .inr (.inr (.inr (.inl fun _ => rfl)))
theorem runCount (c : Byte) : Statement (.runCount c) := fun _ => .inr (.inr (.inr (.inl fun _ => rfl)))
theorem randMask (r : Bool) : Statement (.randMask r) := fun _ => .inr (.inr (.inr (.inr ⟨r, rfl⟩)))

end WellFormedEncodes

end Sys2Proof.Laws
end

