-- ==== Sys2Proof/Laws/Step.lean ====
section
/-! SUPPORT. Running step by step: what `run` does when a step answers a next state, and the way the
element due in a place of the grammar is fetched. -/

namespace Sys2Proof.Machine

/-- One step more, for any machine of the host's interface. -/
theorem hostRun_succ (M : Host.Core) {k : Nat} {s t : M.State} (h : M.step s = .next t) :
    M.run (k + 1) s = M.run k t := by
  rw [Host.Core.run, h]

theorem hostRun_succ_inv (M : Host.Core) {k : Nat} {s u : M.State} (h : M.run (k + 1) s = .next u) :
    ∃ t, M.step s = .next t ∧ M.run k t = .next u := by
  rw [Host.Core.run] at h
  split at h
  · exact ⟨_, ‹_›, h⟩
  · cases h
  · cases h

theorem hostRun_add (M : Host.Core) {a b : Nat} {s t : M.State} (h : M.run a s = .next t) :
    M.run (a + b) s = M.run b t := by
  induction a generalizing s with
  | zero =>
    rw [Host.Core.run] at h
    cases h
    rw [Nat.zero_add]
  | succ a ih =>
    obtain ⟨u, hu, hr⟩ := hostRun_succ_inv M h
    rw [show a + 1 + b = (a + b) + 1 by omega, hostRun_succ M hu, ih hr]

theorem run_zero (s : State) : run 0 s = .next s := rfl

/-- A run begins with a step. -/
theorem run_succ {k : Nat} {s t : State} (h : step s = .next t) : run (k + 1) s = run k t :=
  hostRun_succ core h

/-- A run that answers a next state began with a step that did. -/
theorem run_succ_inv {k : Nat} {s u : State} (h : run (k + 1) s = .next u) :
    ∃ t, step s = .next t ∧ run k t = .next u :=
  hostRun_succ_inv core h

/-- Two runs, one after the other. -/
theorem run_add {a b : Nat} {s t : State} (h : run a s = .next t) : run (a + b) s = run b t :=
  hostRun_add core h

/-- Outside the symbols and the length deltas the element due is fetched by its place in the grammar; a
length delta likewise while the current length is legal. -/
theorem fetch_of_ctx {s : State} {ctx : Ctx} (h : s.ctx = some ctx) (hs : s.phase ≠ .symbol)
    (hl : s.phase = .lenDelta → 1 ≤ s.tab.curr ∧ s.tab.curr ≤ maxCodeLen) : fetch s = fetchField ctx s := by
  unfold State.ctx at h
  unfold fetch
  cases hp : s.phase <;> rw [hp] at h <;> simp only at h ⊢
  case idle => cases h
  case pull =>
    split at h
    · next hps => cases h; simp [fetchPull, hps]
    · cases h
  case lenDelta =>
    cases h
    have := hl hp
    rw [fetchLenDelta, if_neg (by omega)]
  case symbol => exact absurd hp hs
  all_goals cases h; rfl

/-- The end of a block whose CRC is the stored one. -/
theorem endBlock_of_eq {s : State} (h : s.crcValue = s.crc.storedBlockCRC) :
    endBlock s = { s with
      crc := { s.crc with
        computedBlockCRC := s.crcValue
        computedCombinedCRC := rotl1 s.crc.computedCombinedCRC ^^^ s.crcValue }
      ps := .startBlock } := if_pos h

/-- The end of a block whose CRC is another. -/
theorem endBlock_of_ne {s : State} (h : s.crcValue ≠ s.crc.storedBlockCRC) :
    endBlock s = ({ s with crc := { s.crc with computedBlockCRC := s.crcValue } } : State).raise .blockCrcMismatch :=
  if_neg h

end Sys2Proof.Machine
end

