-- ==== Sys2Proof/Tests/Slice0.lean ====
section
/-! SUPPORT. The model's own tests. Expected values are those of spec/95_test_vectors.md (the vector is named
with each test) or worked out by hand from the rule named; a `witness_` theorem shows values that meet the
hypotheses of the obligation of that name, at the ends of its ranges. -/

namespace Sys2Proof.Tests

open Sys2Proof Sys2Proof.Machine

/-! ### Well-formedness: what has no encoding is refused -/

theorem test_wf_header_digit : (Instr.streamHdr 0x30#8).wellFormed = false ∧
    (Instr.streamHdr 0x3A#8).wellFormed = false ∧ (Instr.streamHdr 0x31#8).wellFormed = true ∧
    (Instr.streamHdr 0x39#8).wellFormed = true := by decide

theorem test_wf_orig_ptr : (Instr.origPtr (2 ^ 24)).wellFormed = false ∧
    (Instr.origPtr (2 ^ 24 - 1)).wellFormed = true := by decide

theorem test_wf_selector : (Instr.selector 6).wellFormed = false ∧ (Instr.selector 5).wellFormed = true := by
  decide

theorem test_wf_mtfv : (Instr.mtfv 1).wellFormed = false ∧ (Instr.mtfv 257).wellFormed = false ∧
    (Instr.mtfv 2).wellFormed = true ∧ (Instr.mtfv 256).wellFormed = true := by decide

/-! ### Decoding: words written out from the encodings of 30_encoding.md -/

/-- Rule R101. -/
theorem test_decode_commands :
    decodeCommand 0b00000000000000000000000000000000000#35 = .start 0 ∧
    decodeCommand 0b00100000000000000000000000000000001#35 = .read 1 ∧
    decodeCommand 0b01000000000000000000000000000000101#35 = .readBulk 5 ∧
    decodeCommand 0b01100000000000000000000000001000001#35 = .write 0x41 ∧
    decodeCommand 0b10000000000000000000000000000000111#35 = .seek 7 ∧
    decodeCommand 0b10110000000000000000000000000000000#35 = .setLength 0x80000000 ∧
    decodeCommand 0b11000000000000000000000000000000000#35 = .getLength 0 ∧
    decodeCommand 0b11111111111111111111111111111111111#35 = .close 0xFFFFFFFF := by decide

/-- Rule R105 and V2. -/
theorem test_decode_header :
    decodeTableWord 32 0b01000010010110100110100000110001 = some (.streamHdr 0x31#8) ∧
    decodeTableWord 32 0b01000010010110100110100000111001 = some (.streamHdr 0x39#8) := by decide

/-- V2: the four headers that are none, and the source that ends inside one. -/
theorem test_decode_bad_headers :
    [[0x42#8, 0x5A#8, 0x68#8, 0x30#8], [0x42#8, 0x5A#8, 0x68#8, 0x3A#8], [0x42#8, 0x5A#8, 0x48#8, 0x39#8],
      [0x62#8, 0x5A#8, 0x68#8, 0x39#8], [0x42#8, 0x5A#8, 0x68#8]].map
      (fun bs => match decode .streamHdr (BitCursor.ofBytes bs) with
        | .reject f c => some (faultCode f, c.srcPos)
        | _ => none) = [some (1, 4), some (1, 4), some (1, 4), some (1, 4), some (8, 3)] := by decide

/-- Rule R103: bit 8 of an answer is `eod` whatever the low bits; without it the low bits are the byte. -/
theorem test_source_answers :
    [0x100#9, 0x101#9, 0x1FF#9].map SrcAnswer.ofCode = [.eod, .eod, .eod] ∧
    [0x000#9, 0x041#9, 0x0FF#9].map SrcAnswer.ofCode = [.byte 0x00, .byte 0x41, .byte 0xFF] ∧
    (BitCursor.ofBytes [0xFF#8]).answer = 0x0FF#9 ∧ (BitCursor.ofBytes []).answer.getLsbD 8 = true := by decide

/-- Rule R7: the machine of another configuration, whose class digits are `a` to `i` and whose combined CRC starts
at 5. -/
def otherConfig : Config := { config with digit1 := 0x61, digit9 := 0x69, combinedInit := 5 }

theorem test_other_config_header :
    (decode .streamHdr (BitCursor.ofBytes [0x42#8, 0x5A#8, 0x68#8, 0x63#8]) otherConfig).instr =
      some (.streamHdr 0x63#8) ∧
    (decode .streamHdr (BitCursor.ofBytes [0x42#8, 0x5A#8, 0x68#8, 0x39#8]) otherConfig).instr = none ∧
    (Instr.streamHdr 0x63#8).wellFormed otherConfig = true := by decide

theorem test_other_config_step :
    (match stepWith otherConfig { State.resetWith [0x42#8, 0x5A#8, 0x68#8, 0x63#8] [] otherConfig with
        phase := .streamHdr } with
      | .next t => some (t.blockClass, t.started, t.crc.computedCombinedCRC)
      | _ => none) = some (3, true, 5#32) := by decide

/-- V3: the two markers, and their neighbours. -/
theorem test_decode_markers :
    decodeTableWord 48 0x314159265359 = some .blockMagic ∧
    decodeTableWord 48 0x177245385090 = some .endMagic ∧
    decodeTableWord 48 0x314159265358 = none ∧ decodeTableWord 48 0x177245385091 = none := by decide

/-- Rules R107, R108: the block header fields and the bitmaps. -/
theorem test_decode_block_header :
    (decode .blockCrc (BitCursor.ofBytes [0x02#8, 0xFE#8, 0x01#8, 0xAA#8])).instr =
      some (.blockCrc 0x02FE01AA#32) ∧
    (decode .randomised (BitCursor.ofBytes [0b10000000#8])).instr = some (.randomised true) ∧
    (decode .randomised (BitCursor.ofBytes [0b01111111#8])).instr = some (.randomised false) ∧
    (decode .origPtr (BitCursor.ofBytes [0x80#8, 0x00#8, 0x03#8])).instr = some (.origPtr 0x800003) ∧
    (decode .inUse16 (BitCursor.ofBytes [0b10001000#8, 0#8])).instr =
      some (.inUse16 0b1000100000000000#16) ∧
    (decode .inUseRow (BitCursor.ofBytes [0b01000000#8, 0#8])).instr =
      some (.inUseRow 0b0100000000000000#16) := by decide

/-- Rules R109, R110, R113, R114. -/
theorem test_decode_table_section :
    (decode .nGroups (BitCursor.ofBytes [0b11000000#8])).instr = some (.nGroups 6#3) ∧
    (decode .nSelectors (BitCursor.ofBytes [0b00000000#8, 0b00000010#8])).instr =
      some (.nSelectors 1#15) ∧
    (decode (.selector 6) (BitCursor.ofBytes [0b11111000#8])).instr = some (.selector 5) ∧
    (decode (.selector 3) (BitCursor.ofBytes [0b01111111#8])).instr = some (.selector 0) ∧
    (decode .startLen (BitCursor.ofBytes [0b10100000#8])).instr = some (.startLen 20#5) ∧
    (decode .lenDelta (BitCursor.ofBytes [0b01111111#8])).instr = some .lenStop ∧
    (decode .lenDelta (BitCursor.ofBytes [0b10111111#8])).instr = some .lenInc ∧
    (decode .lenDelta (BitCursor.ofBytes [0b11000000#8])).instr = some .lenDec ∧
    (decode .combinedCrc (BitCursor.ofBytes [0x02#8, 0xFE#8, 0x01#8, 0xAA#8])).instr =
      some (.combinedCrc 0x02FE01AA#32) := by decide

/-- F15: the second one-bit of `110` with two tables. -/
theorem test_decode_selector_out_of_range :
    (match decode (.selector 2) (BitCursor.ofBytes [0b11000000#8]) with
      | .reject f c => some (faultCode f, c.pos)
      | _ => none) = some (13, 2) := by decide

/-- A table with the given code lengths. -/
def tableOf (lens : List Nat) : HuffTable := { (default : HuffTable) with len := Mem.fromList 0 lens }

/-- The element the bits of one byte decode to, with the table of the given lengths. -/
def symbolOf (lens : List Nat) (b : Byte) : Option Instr :=
  (decode (.symbol ((tableOf lens).build lens.length) (lens.length - 2)) (BitCursor.ofBytes [b])).instr

/-- V6, first line: the codes of the lengths `[1,3,3,3,4,4]`. -/
theorem test_decode_symbols :
    symbolOf [1, 3, 3, 3, 4, 4] 0b00000000#8 = some .runA ∧
    symbolOf [1, 3, 3, 3, 4, 4] 0b10000000#8 = some .runB ∧
    symbolOf [1, 3, 3, 3, 4, 4] 0b10100000#8 = some (.mtfv 2) ∧
    symbolOf [1, 3, 3, 3, 4, 4] 0b11000000#8 = some (.mtfv 3) ∧
    symbolOf [1, 3, 3, 3, 4, 4] 0b11100000#8 = some (.mtfv 4) ∧
    symbolOf [1, 3, 3, 3, 4, 4] 0b11110000#8 = some .eob := by decide

/-- V6, second line: symbol 0 has the longer code. -/
theorem test_decode_symbols_unsorted :
    symbolOf [3, 1, 3, 2] 0b00000000#8 = some .runB ∧ symbolOf [3, 1, 3, 2] 0b10000000#8 = some .eob ∧
    symbolOf [3, 1, 3, 2] 0b11000000#8 = some .runA ∧ symbolOf [3, 1, 3, 2] 0b11100000#8 = some (.mtfv 2) := by
  decide

/-- V6: codes 0 and 5 of the first line as an encoder writes them. -/
theorem test_encode_symbols :
    encode (.symbol (tableOf [1, 3, 3, 3, 4, 4]) 4) .runA = some [false] ∧
    encode (.symbol (tableOf [1, 3, 3, 3, 4, 4]) 4) .eob = some [true, true, true, true] ∧
    encode (.symbol (tableOf [3, 1, 3, 2]) 2) .runA = some [true, true, false] := by decide

/-- The bare words the host asks about: the rest of the table's widths. -/
theorem test_decode_table_words :
    decodeTableWord 40 0x700000000 = some (.close 0) ∧ decodeTableWord 24 0x000003 = some (.origPtr 3) ∧
    decodeTableWord 16 0x8000 = some (.inUse16 0x8000#16) ∧ decodeTableWord 8 1 = some (.randomised true) ∧
    decodeTableWord 8 0x41 = some (.literal 0x41#8) ∧
    decodeTableWord 32 0x02FE01AA = some (.blockCrc 0x02FE01AA#32) := by decide

/-! ### The bit reader -/

/-- The values of successive `readBits`, with `srcPos` and `bsLive` after each; the last entry is `none` where the
source ends. -/
def reads : List Nat → BitCursor → List (Option (Nat × Nat × Nat))
  | [], _ => []
  | n :: ns, c =>
    match c.readBits n with
    | .ok v c' => some (v, c'.srcPos, c'.bsLive) :: reads ns c'
    | .eod _ => [none]
    | .badWidth _ => []

/-- V1 (a). -/
theorem test_read_bits : reads [3, 5, 1, 7, 8] (BitCursor.ofBytes [0xA2#8, 0xF8#8, 0x4F#8]) =
    [some (5, 1, 5), some (2, 1, 0), some (1, 2, 7), some (0x78, 2, 0), some (0x4F, 3, 0)] := by decide

/-- V1 (b): a 32-bit read over five bytes. -/
theorem test_read_bits_straddling :
    reads [4, 32, 4] (BitCursor.ofBytes [0x12#8, 0x34#8, 0x56#8, 0x78#8, 0x9A#8]) =
      [some (1, 1, 4), some (0x23456789, 5, 4), some (0xA, 5, 0)] := by decide

/-- V1 (e): the end of the source. -/
theorem test_read_bits_at_end : reads [8, 1] (BitCursor.ofBytes [0xFF#8]) = [some (0xFF, 1, 0), none] ∧
    reads [9] (BitCursor.ofBytes [0xFF#8]) = [none] ∧ reads [1] (BitCursor.ofBytes []) = [none] := by decide

/-! ### The checksum unit -/

/-- 46_checksum_unit.md rules R301, R303: check values. -/
theorem test_crc : config.crcFinal ((List.replicate 10 0x41#8).foldl config.crcStep config.crcInit) =
      0xA2F84F0E#32 ∧
    config.crcFinal ((List.replicate 3 0x5A#8).foldl config.crcStep config.crcInit) = 0x02FE01AA#32 ∧
    rotl1 0x80000001#32 = 0x00000003#32 := by decide +kernel

/-! ### One step of each instruction -/

/-- After a START that read the class digit `1`. -/
def opened : State := { State.reset with started := true, blockClass := 1 }

theorem test_start : ∃ t, exec (.start 0) State.reset = .next t ∧ t.phase = .streamHdr := ⟨_, rfl, rfl⟩

/-- F20: a second START. -/
theorem test_start_twice : ∃ t, exec (.start 0) opened = .next t ∧ t.fault = some .hostProtocolViolation ∧
    t.responses = [.err .hostProtocolViolation] := ⟨_, rfl, rfl, rfl⟩

theorem test_read_before_start : ∃ t, exec (.read 0) State.reset = .next t ∧
    t.fault = some .hostProtocolViolation := ⟨_, rfl, rfl⟩

theorem test_read_after_end : ∃ t, exec (.read 0) { opened with streamEnd := true } = .next t ∧
    t.responses = [.eod] := ⟨_, rfl, rfl⟩

theorem test_read_bulk_of_none : ∃ t, exec (.readBulk 0) opened = .next t ∧ t.responses = [.data []] ∧
    t.phase = .idle := ⟨_, rfl, rfl, rfl⟩

theorem test_read_bulk : ∃ t, exec (.readBulk 3) opened = .next t ∧
    t.bulk = some { wanted := 3, got := [] } ∧ t.phase = .pull := ⟨_, rfl, rfl, rfl⟩

theorem test_write : ∃ t, exec (.write 0x41) opened = .next t ∧ t.responses = [.err .unsupportedOperation] :=
  ⟨_, rfl, rfl⟩

theorem test_seek : ∃ t, exec (.seek 0) opened = .next t ∧ t.fault = some .unsupportedOperation := ⟨_, rfl, rfl⟩

theorem test_set_length : ∃ t, exec (.setLength 0) State.reset = .next t ∧
    t.fault = some .unsupportedOperation := ⟨_, rfl, rfl⟩

theorem test_get_length : ∃ t, exec (.getLength 0) opened = .next t ∧ t.fault = some .unsupportedOperation :=
  ⟨_, rfl, rfl⟩

/-- Rule R158: CLOSE answers `OK` with a fault latched, and keeps it. -/
theorem test_close : ∃ t, exec (.close 0) { opened with fault := some .blockOverrun } = .next t ∧
    t.responses = [.ok] ∧ t.srcClosed = true ∧ t.closed = true ∧ t.fault = some .blockOverrun :=
  ⟨_, rfl, rfl, rfl, rfl, rfl⟩

/-- Rule R314: the latched fault answers. -/
theorem test_sticky_fault : ∃ t, exec (.write 0) { opened with fault := some .blockOverrun } = .next t ∧
    t.responses = [.err .blockOverrun] := ⟨_, rfl, rfl⟩

/-- V2. -/
theorem test_stream_hdr : ∃ t, exec (.streamHdr 0x35#8) State.reset = .next t ∧ t.blockClass = 5 ∧
    t.capacity = 500000 ∧ t.responses = [.ok] := ⟨_, rfl, rfl, rfl, rfl⟩

theorem test_markers : (∃ t, exec .blockMagic opened = .next t ∧ t.phase = .blockCrc) ∧
    ∃ t, exec .endMagic opened = .next t ∧ t.phase = .combinedCrc := ⟨⟨_, rfl, rfl⟩, _, rfl, rfl⟩

theorem test_block_header : (∃ t, exec (.blockCrc 0x02FE01AA#32) opened = .next t ∧
      t.crc.storedBlockCRC = 0x02FE01AA#32 ∧ t.phase = .randomised) ∧
    (∃ t, exec (.randomised true) opened = .next t ∧ t.hdr.blockRandomised = true ∧ t.phase = .origPtr) ∧
    ∃ t, exec (.origPtr 3) opened = .next t ∧ t.hdr.origPtr = 3 ∧ t.phase = .inUse16 :=
  ⟨⟨_, rfl, rfl, rfl⟩, ⟨_, rfl, rfl, rfl⟩, _, rfl, rfl, rfl⟩

theorem test_combined_crc : (∃ t, exec (.combinedCrc 0) opened = .next t ∧ t.streamEnd = true ∧
      t.responses = [.eod]) ∧
    ∃ t, exec (.combinedCrc 1) opened = .next t ∧ t.streamEnd = false ∧ t.fault = some .combinedCrcMismatch :=
  ⟨⟨_, rfl, rfl, rfl⟩, _, rfl, rfl, rfl⟩

/-- V4, first line and last but one. -/
theorem test_in_use16 : (∃ t, exec (.inUse16 0b1000100000000000#16) opened = .next t ∧ t.tab.rowI = 0 ∧
      t.phase = .inUseRow) ∧
    ∃ t, exec (.inUse16 0) opened = .next t ∧ t.fault = some .emptyAlphabet :=
  ⟨⟨_, rfl, rfl, rfl⟩, _, rfl, rfl⟩

/-- V4: the row of group 6 that marks 61, 62, 6E, as the last row. -/
theorem test_in_use_row : ∃ t, exec (.inUseRow 0b0110000000000010#16)
      { opened with tab := { opened.tab with used16 := 0b0000001000000000#16, rowI := 6 } } = .next t ∧
    t.tab.nInUse = 3 ∧ (List.range 3).map t.tab.seqToUnseq.read = [0x61#8, 0x62#8, 0x6E#8] ∧
    t.tab.unseqToSeq.read 0x6E = 2 ∧ t.phase = .nGroups := by
  refine ⟨_, rfl, ?_⟩
  decide +kernel

theorem test_counts : (∃ t, exec (.nGroups 7) opened = .next t ∧ t.fault = some .groupCountOutOfRange) ∧
    (∃ t, exec (.nGroups 6) opened = .next t ∧ t.tab.nGroups = 6 ∧ t.phase = .nSelectors) ∧
    (∃ t, exec (.nSelectors 18003) opened = .next t ∧ t.fault = some .selectorCountOutOfRange) ∧
    ∃ t, exec (.nSelectors 18002) { opened with tab := { opened.tab with nGroups := 3 } } = .next t ∧
      t.tab.selPos.take 3 = [0, 1, 2] ∧ t.tab.selPos.length = 6 ∧ t.phase = .selector :=
  ⟨⟨_, rfl, rfl⟩, ⟨_, rfl, rfl, rfl⟩, ⟨_, rfl, rfl⟩, _, rfl, rfl, rfl, rfl⟩

/-- V5, second paragraph: the first two selectors. -/
theorem test_selector :
    ∃ t u, exec (.selector 5) { opened with
        tab := { opened.tab with nGroups := 6, nSelectors := 5, selPos := [0, 1, 2, 3, 4, 5] } } = .next t ∧
      t.tab.selPos = [5, 0, 1, 2, 3, 4] ∧ exec (.selector 5) t = .next u ∧
      u.tab.selPos = [4, 5, 0, 1, 2, 3] ∧ [u.tab.selector.read 0, u.tab.selector.read 1] = [5, 4] ∧
      u.tab.selI = 2 ∧ u.phase = .selector := ⟨_, _, rfl, rfl, rfl, rfl, rfl, rfl, rfl⟩

/-- V7: 5, 6, 5. -/
theorem test_lengths : ∃ t, execList [.startLen 5, .lenInc, .lenDec, .lenStop]
      { opened with tab := { opened.tab with nInUse := 1, nGroups := 2 } } = .next t ∧
    (t.tab.huff.read 0).len.read 0 = 5 ∧ t.tab.lenI = 1 ∧ t.phase = .lenDelta := ⟨_, rfl, rfl, rfl, rfl⟩

/-- The length that ends a table section of two tables with an alphabet of three symbols: V6, `[2,2,2]`. -/
theorem test_last_length : ∃ t, exec .lenStop { opened with tab := { opened.tab with
        nInUse := 1, nGroups := 2, lenT := 1, lenI := 2, curr := 2
        huff := [(0, tableOf [2, 2, 2]), (1, tableOf [2, 2])] } } = .next t ∧
    (t.tab.huff.read 1).minLen = 2 ∧ (t.tab.huff.read 1).limit.read 2 = 2 ∧ t.phase = .symbol ∧
    t.dec.runN = 1 ∧ t.blk.last = -1 := by
  refine ⟨_, rfl, ?_⟩
  decide +kernel

/-- V10: the alphabet `61 62 6E` with the list `[0,1,2]`, an empty block of class 1. -/
def filling : State := { opened with
  phase := .symbol
  tab := { opened.tab with nInUse := 3, seqToUnseq := [(0, 0x61#8), (1, 0x62#8), (2, 0x6E#8)] }
  dec := { opened.dec with yy := (List.range byteValues).map (BitVec.ofNat 8), runN := 1 }
  blk := { opened.blk with last := -1 } }

/-- V9: `B A` is 4. -/
theorem test_run_digits : ∃ t, execList [.runB, .runA] filling = .next t ∧ t.dec.runS = 4 ∧ t.dec.runN = 4 :=
  ⟨_, rfl, rfl, rfl⟩

/-- V10, first line. -/
theorem test_mtfv : ∃ t, exec (.mtfv 3) filling = .next t ∧ t.dec.yy.take 3 = [2#8, 0#8, 1#8] ∧
    t.blk.ll8.read 0 = 0x6E#8 ∧ t.blk.unzftab.read 0x6E = 1 ∧ t.blk.last = 0 := by
  refine ⟨_, rfl, ?_⟩
  decide +kernel

/-- V10, third line: the pending run of one `n`, then `b`. -/
theorem test_mtfv_flushes : ∃ t, execList [.mtfv 3, .runA, .mtfv 3] filling = .next t ∧
    (List.range 3).map t.blk.ll8.read = [0x6E#8, 0x6E#8, 0x62#8] ∧ t.dec.yy.take 3 = [1#8, 2#8, 0#8] ∧
    t.dec.runS = 0 := by
  refine ⟨_, rfl, ?_⟩
  decide +kernel

/-- V10 and V11: EOB of `nnbaaa` with origPtr 3. -/
theorem test_eob : ∃ t, exec .eob { filling with
      hdr := { blockRandomised := false, origPtr := 3 }
      dec := { filling.dec with runS := 2 }
      blk := { filling.blk with
        last := 3, unzftab := [(0x61, 1), (0x62, 1), (0x6E, 2)]
        ll8 := [(0, 0x6E#8), (1, 0x6E#8), (2, 0x62#8), (3, 0x61#8)] } } = .next t ∧
    (List.range 6).map t.blk.tt.read = [3, 4, 5, 2, 0, 1] ∧ t.pull.tPos = 2 ∧ t.blk.last = 5 ∧
    t.ps = .noRandA ∧ t.crc.crcAcc = 0xFFFFFFFF#32 := by
  refine ⟨_, rfl, ?_⟩
  decide +kernel

/-- V11: origPtr 1 with one byte. -/
theorem test_eob_orig_ptr : ∃ t, exec .eob { filling with
      hdr := { blockRandomised := false, origPtr := 1 }
      blk := { filling.blk with last := 0, unzftab := [(0x61, 1)], ll8 := [(0, 0x61#8)] } } = .next t ∧
    t.fault = some .origPtrOutOfRange := ⟨_, rfl, rfl⟩

/-- V11, second paragraph: `41 41 41 41 06` at the start of its walk. -/
def walking : State := { opened with
  phase := .pull
  ps := .noRandA
  crc := { opened.crc with crcAcc := config.crcInit }
  blk := { opened.blk with
    last := 4, ll8 := [(0, 0x41#8), (1, 0x41#8), (2, 0x41#8), (3, 0x41#8), (4, 0x06#8)]
    tt := [(0, 4), (2, 1), (3, 2), (4, 3)] }
  pull := { opened.pull with tPos := 3 } }

/-- Rule R266, and the CRC of one `A` (46_checksum_unit.md). -/
theorem test_literal : ∃ t, step walking = .next t ∧ t.responses = [.byte 0x41#8] ∧ t.pull.tPos = 2 ∧
    t.pull.i2 = 1 ∧ t.ps = .noRandB ∧ t.crc.crcAcc = 0x7E4FD274#32 := by
  refine ⟨_, rfl, ?_⟩
  decide +kernel

/-- R119: after the fourth `41` the byte `06` is the count. -/
theorem test_run_count : ∃ t, step { walking with
      ps := .noRandB
      pull := { walking.pull with
        tPos := 4, i2 := 4, ch2 := some 0x41#8, chPrev := some 0x41#8, count := 3 } } = .next t ∧
    t.pull.z = 6 ∧ t.pull.count = 4 ∧ t.ps = .noRandC ∧ t.responses = [] := ⟨_, rfl, rfl, rfl, rfl, rfl⟩

/-- Rule R267 with entry 0 of the table (619): the bit is 1 when the count-down comes to 1. -/
theorem test_rand_mask : (∃ t, step { walking with ps := .randA } = .next t ∧ t.pull.rNToGo = 618 ∧
      t.pull.rTPos = 1 ∧ t.pull.randBit = some false) ∧
    ∃ t, step { walking with ps := .randA, pull := { walking.pull with rNToGo := 2, rTPos := 1 } } = .next t ∧
      t.pull.rNToGo = 1 ∧ t.pull.randBit = some true := ⟨⟨_, rfl, rfl, rfl, rfl⟩, _, rfl, rfl, rfl⟩

/-- Rule R268: a masked `40` with the mask bit 1 is `41`. -/
theorem test_masked_literal : ∃ t, step { walking with
      ps := .randA
      pull := { walking.pull with tPos := 1, randBit := some true }
      blk := { walking.blk with ll8 := [(1, 0x40#8)] } } = .next t ∧ t.responses = [.byte 0x41#8] ∧
    t.ps = .randB ∧ t.pull.randBit = none := ⟨_, rfl, rfl, rfl, rfl⟩

/-- The four bytes `42 5A 68 31` and a START, from reset: two steps (V2). -/
theorem test_start_run : ∃ t, run 2 (State.resetWith [0x42#8, 0x5A#8, 0x68#8, 0x31#8] [0x0#35]) = .next t ∧
    t.started = true ∧ t.blockClass = 1 ∧ t.ps = .startBlock ∧ t.cur.srcPos = 4 ∧ t.cur.bsLive = 0 ∧
    t.responses = [.ok] := ⟨_, rfl, rfl, rfl, rfl, rfl, rfl, rfl⟩

/-- `withFetchWord` places the word for the very next step. -/
theorem test_fetch_word : (∃ t, step (State.reset.withFetchWord 40 0x700000000) = .next t ∧
      t.responses = [.ok] ∧ t.closed = true) ∧
    (∃ t, step (State.reset.withFetchWord 48 0x314159265359) = .next t ∧ t.phase = .blockCrc) ∧
    ∃ t, step (State.reset.withFetchWord 8 0x41) = .next t ∧ t.responses = [.byte 0x41#8] :=
  ⟨⟨_, rfl, rfl, rfl⟩, ⟨_, rfl, rfl⟩, _, rfl, rfl⟩

/-! ### Witnesses: values that meet the hypotheses of each obligation -/

/-- A state whose byte source stands at the first of the given bytes. -/
def bitsAt (bs : List Byte) (s : State) : State := { s with cur := BitCursor.ofBytes bs }

theorem ofBytes_wf (bs : List Byte) : (BitCursor.ofBytes bs).Wf :=
  ⟨Nat.zero_le _, Nat.zero_le _, fun _ h => absurd h (Nat.not_lt_zero _)⟩

/-- Every memory of `walking` is canonical, whatever its scalar registers. -/
theorem walking_memories : walking.MemoriesInv := by
  constructor <;> decide +kernel

/-- A state in the middle of a block, at the start of its walk, inside a READ. -/
theorem walking_inv : walking.Inv where
  cursor := ofBytes_wf []
  life := by constructor <;> decide +kernel
  memories := walking_memories
  tables := by
    constructor <;> first | decide +kernel | (intro h; exact absurd h (by decide))
  filling := by intro h; exact absurd h (by decide)
  pulling _ := by constructor <;> decide +kernel

/-- The same inside a READ_BULK. -/
def walkingBulk : State := { walking with bulk := some { wanted := 4294967295, got := [] } }

theorem walkingBulk_inv : walkingBulk.Inv where
  cursor := ofBytes_wf []
  life := by constructor <;> decide +kernel
  memories := by constructor <;> decide +kernel
  tables := by
    constructor <;> first | decide +kernel | (intro h; exact absurd h (by decide))
  filling := by intro h; exact absurd h (by decide)
  pulling _ := by constructor <;> decide +kernel

/-- At rest after a fault, a CLOSE and everything else that can latch, a command pending. -/
def latched : State := { opened with
  cmds := [0x1FFFFFFFF#35], fault := some .blockOverrun, streamEnd := true, closed := true, srcClosed := true }

theorem latched_inv : latched.Inv where
  cursor := ofBytes_wf []
  life := by constructor <;> decide +kernel
  memories := by constructor <;> decide
  tables := by
    constructor <;> first | decide +kernel | (intro h; exact absurd h (by decide))
  filling := by intro h; exact absurd h (by decide)
  pulling h := absurd rfl h

theorem witness_ResetStateOfTheSpec : ∃ (src : List Byte) (cmds : List CmdWord) (s : State),
    s = State.resetWith src cmds config ∧ src ≠ [] ∧ cmds ≠ [] :=
  ⟨[0x42#8], [0x0#35], _, rfl, by decide, by decide⟩

theorem witness_StepKeepsInvariant : ∃ s t : State, s.Inv ∧ step s = .next t := ⟨walking, _, walking_inv, rfl⟩

theorem witness_StepAlwaysAnswersNext : ∃ s : State, s.Inv ∧ s.phase = .pull := ⟨walking, walking_inv, rfl⟩

theorem witness_StepKeepsMemoriesCanonical : ∃ s t : State, s.MemoriesInv ∧ step s = .next t :=
  ⟨walking, _, walking_memories, rfl⟩

theorem witness_EveryCommandCompletes : ∃ (s : State) (w : CmdWord) (ws : List CmdWord),
    s.Inv ∧ s.phase = .idle ∧ s.cmds = w :: ws := ⟨latched, _, _, latched_inv, rfl, rfl⟩

theorem witness_ResponsesOnlyAppended : (∃ s t : State, step s = .next t ∧ t.responses = s.responses) ∧
    ∃ (s t : State) (r : Response), step s = .next t ∧ t.responses = s.responses ++ [r] :=
  ⟨⟨State.reset, _, rfl, rfl⟩, walking, _, _, rfl, rfl⟩

theorem witness_LatchesAreNeverCleared : ∃ s t : State, s.Inv ∧ step s = .next t ∧
    s.fault = some .blockOverrun ∧ s.streamEnd = true ∧ s.started = true ∧ s.closed = true ∧
    s.srcClosed = true := ⟨latched, _, latched_inv, rfl, rfl, rfl, rfl, rfl, rfl⟩

theorem witness_CursorOnlyMovesForward : ∃ s t : State, step s = .next t ∧ s.cur.Wf ∧ t.cur.srcPos = 1 :=
  ⟨bitsAt [0x80#8] { opened with phase := .randomised }, _, rfl, ofBytes_wf _, rfl⟩

theorem witness_CommandWordsRoundTrip : ∃ (i : Instr) (w : CmdWord), encodeCommand i = some w ∧
    w = 0x7FFFFFFFF#35 := ⟨.close 0xFFFFFFFF#32, _, rfl, by decide⟩

/-- The longest selector of six tables, with bits behind it. -/
theorem witness_StreamElementRoundTrip : ∃ (ctx : Ctx) (i : Instr) (bits rest : List Bool) (c : BitCursor),
    (∀ t n, ctx ≠ .symbol t n) ∧ i.wellFormed = true ∧ encode ctx i = some bits ∧ c.bits = bits ++ rest ∧
    i = .selector 5 :=
  ⟨.selector 6, .selector 5, _, [true, true], BitCursor.ofBytes [0b11111011#8],
    fun _ _ h => Ctx.noConfusion h, by decide, rfl, by decide, rfl⟩

theorem witness_DecodedElementWasItsEncoding : ∃ (ctx : Ctx) (i : Instr) (c c' : BitCursor),
    (∀ t n, ctx ≠ .symbol t n) ∧ (∀ n, ctx = .selector n → 1 ≤ n ∧ n ≤ nGroupsMax) ∧
    decode ctx c = .ok i c' ∧ i = .selector 5 :=
  ⟨.selector 6, .selector 5, BitCursor.ofBytes [0b11111011#8], _,
    (fun _ _ h => Ctx.noConfusion h), (fun n h => by cases h; decide), rfl, rfl⟩

/-- V8: a code of twenty bits. -/
theorem witness_CanonicalCodeRoundTrip : ∃ (t : HuffTable) (nInUse : Nat) (i : Instr) (code rest : List Bool)
    (c : BitCursor), 1 ≤ nInUse ∧ nInUse ≤ byteValues ∧ t.perm.wf ∧ LegalLengths (t.lens (nInUse + 2)) ∧
    KraftHolds (t.lens (nInUse + 2)) ∧
    encode (.symbol (t.build (nInUse + 2)) nInUse) i = some code ∧ c.bits = code ++ rest ∧
    code.length = 20 := by
  refine ⟨tableOf [1, 20, 20], 1, .eob, true :: (List.replicate 18 false ++ [true]), [true, true, true, true],
    BitCursor.ofBytes [0x80#8, 0x00#8, 0x1F#8], ?_⟩
  exact ⟨by decide, by decide, by decide, by unfold LegalLengths; decide, by unfold KraftHolds; decide,
    by decide +kernel, by decide +kernel, by decide⟩

/-- V1 (b): 32 bits over five bytes, up to four bits before the end. -/
theorem witness_ReadBitsGivesNextBits : ∃ (c : BitCursor) (n : Nat), c.Wf ∧ 1 ≤ n ∧ n ≤ 32 ∧
    c.pos + n ≤ 8 * c.src.length ∧ n = 32 :=
  ⟨BitCursor.ofBytes [0x12#8, 0x34#8, 0x56#8, 0x78#8], 32, ofBytes_wf _, by decide, by decide, by decide, rfl⟩

theorem witness_ReadBitsFailsAtEndOfInput : ∃ (c c' : BitCursor) (n : Nat), c.Wf ∧ 1 ≤ n ∧ n ≤ 32 ∧
    c.readBits n = .eod c' ∧ 8 * c.src.length < c.pos + n :=
  ⟨BitCursor.ofBytes [0xFF#8], _, 9, ofBytes_wf _, by decide, by decide, rfl, by decide⟩

theorem witness_ReadBitsChunksAgree : ∃ (c c1 c2 : BitCursor) (a b x y v : Nat), 1 ≤ a ∧ 1 ≤ b ∧ a + b ≤ 32 ∧
    c.readBits a = .ok x c1 ∧ c1.readBits b = .ok y c2 ∧ c.readBits (a + b) = .ok v c2 ∧ a + b = 32 :=
  ⟨BitCursor.ofBytes [0x80#8, 0x00#8, 0x00#8, 0x01#8], _, _, 24, 8, 0x800000, 1, 0x80000001, by decide,
    by decide, by decide, rfl, rfl, rfl, rfl⟩

theorem witness_StepRunsTheCommandAtRest : (∃ (s : State) (w : CmdWord) (ws : List CmdWord),
    s.phase = .idle ∧ s.cmds = w :: ws) ∧ ∃ s : State, s.phase = .idle ∧ s.cmds = [] :=
  ⟨⟨latched, _, _, rfl, rfl⟩, State.reset, rfl, rfl⟩

/-- Length deltas at both ends of the range, and another element. -/
theorem witness_StepRunsTheStreamElement :
    (∀ l ∈ [1, 20], ∃ (s : State) (ctx : Ctx) (i : Instr) (c' : BitCursor), s.ctx = some ctx ∧
      s.phase ≠ .symbol ∧ s.phase = .lenDelta ∧ s.tab.curr = l ∧ decode ctx s.cur = .ok i c') ∧
    ∃ (s : State) (ctx : Ctx) (i : Instr) (c' : BitCursor), s.ctx = some ctx ∧ s.phase ≠ .symbol ∧
      s.phase ≠ .lenDelta ∧ decode ctx s.cur = .ok i c' := by
  refine ⟨fun l hl => ?_,
    bitsAt [0x80#8] { opened with phase := .randomised }, _, _, _, rfl, by decide, by decide, rfl⟩
  simp only [List.mem_cons, List.not_mem_nil, or_false] at hl
  rcases hl with rfl | rfl
  all_goals exact ⟨bitsAt [0x80#8] { opened with phase := .lenDelta, tab := { opened.tab with curr := _ } }, _,
    .lenInc, _, rfl, by decide, rfl, rfl, rfl⟩

/-- Symbol number 49 of the only group: the last the selector covers. -/
def lastSymbol : State := bitsAt [0x80#8] { filling with
  tab := { filling.tab with
    nInUse := 1, nGroups := 2, nSelectors := 1, huff := [(0, (tableOf [2, 2, 2]).build 3)] }
  dec := { filling.dec with symIdx := 49 } }

theorem witness_StepRunsTheSymbol : ∃ (s : State) (g sym zn zvec : Nat) (c' : BitCursor), s.phase = .symbol ∧
    g = s.dec.symIdx / 50 ∧ g < s.tab.nSelectors ∧ s.tab.nSelectors ≤ config.selCap ∧
    s.tab.selector.read g < nGroupsMax ∧
    decodeCode (s.tab.huff.read (s.tab.selector.read g)) (s.tab.nInUse + 2) s.cur = .ok sym zn zvec c' :=
  ⟨lastSymbol, 0, 2, 2, 2, _, rfl, rfl, by decide, by decide, by decide, rfl⟩

/-- `walking` at the fourth equal byte, in `XB` of either family, with or without a mask bit. -/
def atCount (rand : Bool) (bit : Option Bool) : State := { walking with
  ps := if rand then .randB else .noRandB
  pull := { walking.pull with
    tPos := 4, i2 := 4, ch2 := some 0x41#8, chPrev := some 0x41#8, count := 3, rTPos := 511, randBit := bit } }

theorem witness_StepRunsTheWalkByte :
    (∀ s ∈ [walking, { walking with ps := .randA, pull := { walking.pull with randBit := some true } },
        { walking with ps := .randA }, atCount false none, atCount true (some false), atCount true none],
      s.phase = .pull ∧ (s.pull.i2 : Int) ≤ s.blk.last ∧ s.pull.tPos < maxCapacity ∧
        s.pull.rTPos < randSize) ∧
    (∀ s ∈ [atCount false none, atCount true (some false), atCount true none],
      s.pull.ch2 = s.pull.chPrev ∧ 4 ≤ s.pull.count + 1) := by decide +kernel

theorem witness_RejectedElementRaises :
    (∃ c', (bitsAt [0#8, 0#8, 0#8, 0#8, 0#8, 0#8] { opened with phase := .pull }).ctx = some .marker ∧
      decode .marker (BitCursor.ofBytes [0#8, 0#8, 0#8, 0#8, 0#8, 0#8]) =
        .reject .corruptBlockHeader c') ∧
    (∃ c', ({ opened with phase := .lenDelta, tab := { opened.tab with curr := 20 } } : State).ctx =
        some .lenDelta ∧
      decode .lenDelta opened.cur = .reject .unexpectedEndOfInput c') ∧
    ∃ (ctx : Ctx) (c' : BitCursor), (bitsAt [0xFF#8, 0xFF#8, 0xFF#8] lastSymbol).ctx = some ctx ∧
      lastSymbol.dec.symIdx / 50 < lastSymbol.tab.nSelectors ∧ lastSymbol.tab.nSelectors ≤ config.selCap ∧
      lastSymbol.tab.selector.read (lastSymbol.dec.symIdx / 50) < nGroupsMax ∧
      decode ctx (BitCursor.ofBytes [0xFF#8, 0xFF#8, 0xFF#8]) = .reject .invalidHuffmanCode c' :=
  ⟨⟨_, rfl, rfl⟩, ⟨_, rfl, rfl⟩, _, _, rfl, by decide, by decide, by decide, rfl⟩

theorem witness_RaisedBeforeAnyBitIsRead :
    (∀ l ∈ [0, 21], ∃ s : State, s.phase = .lenDelta ∧ s.tab.curr = l) ∧
    ∃ s : State, s.phase = .symbol ∧ 50 * s.tab.nSelectors = s.dec.symIdx ∧ s.tab.nSelectors = 1 :=
  ⟨fun l _ => ⟨{ opened with phase := .lenDelta, tab := { opened.tab with curr := l } }, rfl, rfl⟩,
    { lastSymbol with dec := { lastSymbol.dec with symIdx := 50 } }, rfl, rfl, rfl⟩

theorem witness_LatchedFaultAnswersEveryCommand : ∃ (s : State) (f : FaultCode) (i : Instr) (w : CmdWord),
    s.fault = some f ∧ encodeCommand i = some w ∧ ∀ a, i ≠ .close a :=
  ⟨latched, _, .read 0, _, rfl, rfl, fun _ h => by cases h⟩

theorem witness_LifecycleViolationsRaise :
    (∃ (s : State) (i : Instr) (w : CmdWord), s.fault = none ∧ s.closed = true ∧ encodeCommand i = some w ∧
      ∀ a, i ≠ .close a) ∧
    (∃ s : State, s.fault = none ∧ s.started = true) ∧
    ∃ s : State, s.fault = none ∧ s.closed = false ∧ s.started = false :=
  ⟨⟨{ opened with closed := true }, .read 0, _, rfl, rfl, rfl, fun _ h => by cases h⟩, ⟨opened, rfl, rfl⟩,
    State.reset, rfl, rfl, rfl⟩

/-- Every operation, with its latched fault, on a closed port and on an open one. -/
theorem witness_UnsupportedOperationsRaise :
    (∀ p ∈ [(3#3, Instr.write 0xFF#32), (4#3, .seek 0xFF#32), (5#3, .setLength 0xFF#32),
        (6#3, .getLength 0xFF#32)], ∃ arg, p ∈ [(3#3, Instr.write arg), (4#3, .seek arg),
        (5#3, .setLength arg), (6#3, .getLength arg)]) ∧
    (∃ (s : State) (j : Instr) (w : CmdWord), s.fault = none ∧ s.closed = false ∧ encodeCommand j = some w ∧
      ∀ a, j ≠ .close a) ∧
    (∃ (s : State) (f : FaultCode), s.fault = some f) ∧ ∃ s : State, s.fault = none ∧ s.closed = true :=
  ⟨fun p hp => ⟨0xFF#32, hp⟩, ⟨opened, .read 0, _, rfl, rfl, rfl, fun _ h => by cases h⟩, ⟨latched, _, rfl⟩,
    { opened with closed := true }, rfl, rfl⟩

theorem witness_StartConsumesTheHeader : ∀ h3 ∈ [0x31#8, 0x39#8],
    ∃ (s : State) (rest : List Bool), s.phase = .idle ∧ s.bulk = none ∧ s.fault = none ∧ s.closed = false ∧
      s.started = false ∧ 0x31#8 ≤ h3 ∧ h3 ≤ 0x39#8 ∧
      s.cur.bits = byteBits 0x42#8 ++ byteBits 0x5A#8 ++ byteBits 0x68#8 ++ byteBits h3 ++ rest := by
  intro h3 h
  refine ⟨bitsAt [0x42#8, 0x5A#8, 0x68#8, h3] State.reset, [], rfl, rfl, rfl, rfl, rfl, ?_⟩
  revert h3
  decide +kernel

theorem witness_StartRejectsABadHeader : ∀ h3 ∈ [0x30#8, 0x3A#8],
    ∃ (s : State) (rest : List Bool), s.phase = .idle ∧ s.bulk = none ∧ s.fault = none ∧ s.closed = false ∧
      s.started = false ∧
      s.cur.bits = byteBits 0x42#8 ++ byteBits 0x5A#8 ++ byteBits 0x68#8 ++ byteBits h3 ++ rest ∧
      ¬ (0x31#8 ≤ h3 ∧ h3 ≤ 0x39#8) := by
  intro h3 h
  refine ⟨bitsAt [0x42#8, 0x5A#8, 0x68#8, h3] State.reset, [], rfl, rfl, rfl, rfl, rfl, ?_⟩
  revert h3
  decide +kernel

theorem witness_ReadsBeginOrEnd :
    (∃ s : State, s.fault = none ∧ s.closed = false ∧ s.started = true ∧ s.streamEnd = true) ∧
    ∃ s : State, s.fault = none ∧ s.closed = false ∧ s.started = true ∧ s.streamEnd = false :=
  ⟨⟨{ opened with streamEnd := true }, rfl, rfl, rfl, rfl⟩, opened, rfl, rfl, rfl, rfl⟩

/-- The four answers of a step: none, a byte (the list then short of, or at, the length wanted), the end, a fault. -/
theorem witness_BulkReadRepeatsRead :
    (∃ s t : State, s.bulk = none ∧ s.phase ≠ .idle ∧ s.phase ≠ .streamHdr ∧ step s = .next t ∧
      t.responses = s.responses) ∧
    (∃ (s t : State) (b : Byte), s.bulk = none ∧ s.phase ≠ .idle ∧ s.phase ≠ .streamHdr ∧
      step s = .next t ∧ t.responses = s.responses ++ [.byte b]) ∧
    (∃ s t : State, s.bulk = none ∧ s.phase ≠ .idle ∧ s.phase ≠ .streamHdr ∧ step s = .next t ∧
      t.responses = s.responses ++ [.eod]) ∧
    (∃ (s t : State) (f : FaultCode), s.bulk = none ∧ s.phase ≠ .idle ∧ s.phase ≠ .streamHdr ∧
      step s = .next t ∧ t.responses = s.responses ++ [.err f]) ∧
    (∃ k : Bulk, k.got.length + 1 < k.wanted) ∧ ∃ k : Bulk, k.got.length + 1 = k.wanted :=
  ⟨⟨atCount false none, _, rfl, by decide, by decide, rfl, rfl⟩,
    ⟨walking, _, _, rfl, by decide, by decide, rfl, rfl⟩,
    ⟨bitsAt [0#8, 0#8, 0#8, 0#8] { opened with phase := .combinedCrc }, _, rfl, by decide, by decide, rfl,
      rfl⟩,
    ⟨{ opened with phase := .combinedCrc }, _, _, rfl, by decide, by decide, rfl, rfl⟩,
    ⟨{ wanted := 2, got := [] }, by decide⟩, { wanted := 1, got := [] }, by decide⟩

theorem witness_CloseAlwaysWorks : ∃ (s : State) (i : Instr) (w : CmdWord), encodeCommand i = some w ∧
    (∀ b, i ≠ .close b) ∧ s.fault = some .blockOverrun ∧ opened.fault = none :=
  ⟨latched, .write 0, _, rfl, (fun _ h => by cases h), rfl, rfl⟩

theorem witness_StreamHeaderSetsTheClass :
    ∀ h3 ∈ [0x31#8, 0x39#8], (Instr.streamHdr h3).wellFormed = true := by decide

theorem witness_TrailerEndsTheStream : (∃ (s : State) (c : Word), c = s.crc.computedCombinedCRC ∧
      s.bulk = none) ∧
    (∃ (s : State) (k : Bulk) (c : Word), c = s.crc.computedCombinedCRC ∧ s.bulk = some k) ∧
    ∃ (s : State) (c : Word), c ≠ s.crc.computedCombinedCRC :=
  ⟨⟨opened, _, rfl, rfl⟩, ⟨walkingBulk, _, _, rfl, rfl⟩, opened, 1, by decide⟩

theorem witness_GroupMapMakesFirstRowDue :
    ∀ p ∈ [(0, 0x8000#16), (0, 0xFFFF#16), (15, 0x0001#16)], p.1 < 16 ∧ p.2.getMsbD p.1 = true ∧
      ∀ k < p.1, p.2.getMsbD k = false := by decide

/-- A next group right behind and far behind the row's group; none. -/
theorem witness_RowMarksItsGroup :
    (∀ p ∈ [(0, 0xC000#16, 1), (0, 0x8001#16, 15), (14, 0x0003#16, 15)], ∃ s : State, s.tab.inUse.wf ∧
      s.tab.rowI = p.1 ∧ s.tab.rowI < 16 ∧ s.tab.rowI < p.2.2 ∧ p.2.2 < 16 ∧
      s.tab.used16.getMsbD p.2.2 = true ∧
      ∀ k < 16, s.tab.rowI < k → k < p.2.2 → s.tab.used16.getMsbD k = false) ∧
    ∃ s : State, s.tab.inUse.wf ∧ s.tab.rowI = 15 ∧
      ∀ k, s.tab.rowI < k → k < 16 → s.tab.used16.getMsbD k = false := by
  refine ⟨fun p hp => ⟨{ opened with tab := { opened.tab with rowI := p.1, used16 := p.2.1 } }, ?_⟩,
    { opened with tab := { opened.tab with rowI := 15, used16 := 1 } }, by decide, rfl, ?_⟩
  · revert p
    decide
  · intro k h1 h2
    exact absurd h1 (by have : k ≤ 15 := by omega
                        exact Nat.not_lt.mpr this)

/-- All 256 byte values in use. -/
def allUsed : State := { opened with tab := { opened.tab with inUse := (List.range 256).map fun b => (b, true) } }

theorem witness_MapsListTheUsedBytes :
    (∃ s t : State, s.tab.seqToUnseq.wf ∧ s.tab.unseqToSeq.wf ∧ t = makeMaps s ∧ t.tab.nInUse = 256 ∧
      s.tab.inUse.read 255 = true) ∧
    ∃ s t : State, s.tab.seqToUnseq.wf ∧ s.tab.unseqToSeq.wf ∧ t = makeMaps s ∧ t.tab.nInUse = 0 :=
  ⟨⟨allUsed, makeMaps allUsed, by decide, by decide, rfl, by decide +kernel, by decide +kernel⟩,
    opened, makeMaps opened, by decide, by decide, rfl, by decide +kernel⟩

theorem witness_CountsAreKeptAndChecked :
    (∀ g ∈ [2#3, 6#3], 2 ≤ g.toNat ∧ g.toNat ≤ 6) ∧ (∀ g ∈ [1#3, 7#3], ¬ (2 ≤ g.toNat ∧ g.toNat ≤ 6)) ∧
    (∀ n ∈ [1#15, 18002#15], 1 ≤ n.toNat ∧ n.toNat ≤ config.selCap) ∧
    ∀ n ∈ [0#15, 18003#15], ¬ (1 ≤ n.toNat ∧ n.toNat ≤ config.selCap) :=
  ⟨by decide, by decide, by simp [config, defaultSelCap], by simp [config, defaultSelCap]⟩

/-- The last table of six for the last selector of the longest list, and for the one before it. -/
theorem witness_SelectorMovesToFront : ∀ p ∈ [(5, 18000), (5, 18001), (0, 0)],
    ∃ s : State, s.tab.selPos.length = 6 ∧ s.tab.nGroups ≤ 6 ∧ p.1 < s.tab.nGroups ∧
      s.tab.selI = p.2 ∧ s.tab.selI < config.selCap ∧ s.tab.selector.wf ∧ s.tab.nSelectors = 18002 := by
  intro p hp
  refine ⟨{ opened with tab := { opened.tab with
    nGroups := 6, nSelectors := 18002, selPos := [0, 1, 2, 3, 4, 5], selI := p.2 } }, ?_⟩
  revert p
  decide

/-- The last length of a table, of the last table, and one before. -/
theorem witness_LengthIsKeptForItsSymbol : ∀ p ∈ [(5, 256), (4, 257), (5, 257)],
    ∃ s : State, s.tab.lenT = p.1 ∧ s.tab.lenI = p.2 ∧ s.tab.lenT < 6 ∧ s.tab.lenI < 258 ∧
      s.tab.huff.wf ∧ (s.tab.huff.read s.tab.lenT).len.wf ∧ s.tab.nInUse = 256 ∧ s.tab.nGroups = 6 := by
  intro p hp
  refine ⟨{ opened with tab := { opened.tab with
    nInUse := 256, nGroups := 6, lenT := p.1, lenI := p.2, huff := [(5, tableOf [2, 2])] } }, ?_⟩
  revert p
  decide

theorem witness_RankTableIsSorted : ∃ (t : HuffTable) (n : Nat), 1 ≤ n ∧ t.perm.wf ∧ n = 4 :=
  ⟨tableOf [3, 1, 3, 2], 4, by decide, by decide, rfl⟩

/-- V8: lengths at both ends of the range. -/
theorem witness_LimitAndBaseOfTheLengths : ∃ (t h : HuffTable) (n : Nat), 1 ≤ n ∧
    LegalLengths (t.lens n) ∧ h = t.build n ∧ h.minLen = 1 ∧ h.maxLen = 20 :=
  ⟨tableOf [1, 20, 20], _, 3, by decide, by unfold LegalLengths; decide, rfl, by decide, by decide⟩

/-- The three answers of the decoder. -/
theorem witness_DecodedCodeHasItsSymbolsLength :
    ∃ t : HuffTable, t.perm.wf ∧ LegalLengths (t.lens 3) ∧
      (∃ c', decodeCode (t.build 3) 3 (BitCursor.ofBytes [0x80#8]) = .ok 2 2 2 c') ∧
      (∃ c', decodeCode (t.build 3) 3 (BitCursor.ofBytes [0xFF#8, 0xFF#8, 0xFF#8]) =
        .reject .invalidHuffmanCode c') ∧
      ∃ c', decodeCode (t.build 3) 3 (BitCursor.ofBytes [0xFF#8, 0xFF#8]) =
        .reject .unexpectedEndOfInput c' :=
  ⟨tableOf [2, 2, 2], by decide, by unfold LegalLengths; decide, ⟨_, rfl⟩, ⟨_, rfl⟩, _, rfl⟩

theorem witness_RunDigitsAccumulate : ∃ s : State, s.dec.runS = 0 ∧ s.dec.runN = 1 := ⟨filling, rfl, rfl⟩

/-- A run that fills a block of class 1 exactly, and one byte more. -/
theorem witness_RunIsRepeatedEmit : ∃ s : State, s.blk.ll8.wf ∧ s.blk.unzftab.wf ∧ -1 ≤ s.blk.last ∧
    s.blk.last + 1 ≤ (s.capacity : Int) ∧ s.capacity ≤ maxCapacity ∧
    s.blk.last + 1 + 100000 ≤ (s.capacity : Int) ∧ (s.capacity : Int) < s.blk.last + 1 + 100001 :=
  ⟨filling, by decide⟩

/-- The first and the last rank of the list, in the last place of a block of class 1. -/
theorem witness_MtfvAppendsItsByte : ∀ k ∈ [2, 256], ∃ (s : State) (m : Nat) (f b : Byte), 2 ≤ k ∧ k ≤ 256 ∧
    s.dec.yy.length = 256 ∧ s.blk.ll8.wf ∧ s.blk.unzftab.wf ∧ s.blk.last + 1 = (m : Int) ∧
    m + s.dec.runS + 1 = s.capacity ∧ s.capacity ≤ maxCapacity ∧
    (∀ y, s.dec.yy[0]? = some y → f = s.tab.seqToUnseq.read y.toNat) ∧
    (∀ y, s.dec.yy[k - 1]? = some y → b = s.tab.seqToUnseq.read y.toNat) := by
  intro k hk
  refine ⟨{ filling with blk := { filling.blk with last := 99998 } }, 99999, 0x61#8,
    filling.tab.seqToUnseq.read (filling.dec.yy[k - 1]?.getD 0).toNat, ?_, ?_, by decide +kernel, by decide,
    by decide, by decide, by decide, by decide, ?_, ?_⟩
  · revert k; decide
  · revert k; decide
  · intro y h
    cases h
    decide +kernel
  · intro y h
    have h' : filling.dec.yy[k - 1]? = some y := h
    rw [h']; rfl

theorem witness_OverrunRaisesBlockOverrun : (∀ k ∈ [2, 256], 2 ≤ k ∧ k ≤ 256) ∧
    ∃ s : State, s.dec.yy.length = 256 ∧ s.capacity ≤ maxCapacity ∧ s.dec.runS ≠ 0 ∧
      (s.capacity : Int) < s.blk.last + 1 + s.dec.runS + 1 ∧ (s.capacity : Int) < s.blk.last + 1 + s.dec.runS :=
  ⟨by decide, { filling with
    dec := { filling.dec with runS := 1 }, blk := { filling.blk with last := 99999 } }, by decide +kernel,
    by decide, by decide, by decide, by decide⟩

/-- The block `a` of V10's alphabet with a run of two more pending: the pointer's last legal value and the first
illegal one. -/
theorem witness_EobSetsThePullMachineUp : ∀ p ∈ [2, 3], ∃ (s : State) (m : Nat) (f : Byte),
    s.dec.yy.length = 256 ∧ s.MemoriesInv ∧ s.FillingInv ∧ s.blk.last + 1 = (m : Int) ∧
    m + s.dec.runS ≤ s.capacity ∧ s.capacity ≤ maxCapacity ∧ s.hdr.origPtr = p ∧ m + s.dec.runS = 3 ∧
    ∀ y, s.dec.yy[0]? = some y → f = s.tab.seqToUnseq.read y.toNat := by
  intro p hp
  simp only [List.mem_cons, List.not_mem_nil, or_false] at hp
  rcases hp with rfl | rfl
  all_goals
    refine ⟨{ filling with
      hdr := { blockRandomised := true, origPtr := _ }
      dec := { filling.dec with runS := 2 }
      blk := { filling.blk with last := 0, ll8 := [(0, 0x61#8)], unzftab := [(0x61, 1)] } }, 1, 0x61#8,
      by decide +kernel, ?_, ?_, by decide, by decide, by decide, rfl, rfl, ?_⟩
    · constructor <;> decide +kernel
    · constructor <;> decide +kernel
    · intro y h
      cases h
      decide +kernel

/-- V11: `nnbaaa`. -/
def banana : Mem Byte := [(0, 0x6E#8), (1, 0x6E#8), (2, 0x62#8), (3, 0x61#8), (4, 0x61#8), (5, 0x61#8)]

theorem witness_CumulativeTableCountsSmaller : ∃ (unzftab : Mem Nat) (ll8 : Mem Byte) (n : Nat),
    (∀ v < 256, unzftab.read v = occurrences ll8 n v) ∧ n = 6 :=
  ⟨[(0x61, 3), (0x62, 1), (0x6E, 2)], banana, 6, by decide +kernel, rfl⟩

theorem witness_TransformVectorIsSorted : ∃ (s : State) (n : Nat), s.MemoriesInv ∧
    s.blk.last + 1 = (n : Int) ∧ n ≤ maxCapacity ∧
    (∀ v < 256, s.blk.unzftab.read v = occurrences s.blk.ll8 n v) ∧ n = 6 := by
  refine ⟨{ filling with blk := { filling.blk with
    last := 5, ll8 := banana, unzftab := [(0x61, 3), (0x62, 1), (0x6E, 2)] } }, 6, ?_, by decide, by decide,
    by decide +kernel, rfl⟩
  constructor <;> decide +kernel

/-- A READ; a READ_BULK that still wants more; one that wants this byte alone. -/
theorem witness_LiteralGivesItsByte :
    (∃ s : State, s.pull.tPos < maxCapacity ∧ s.bulk = none) ∧
    (∃ (s : State) (k : Bulk), s.pull.tPos < maxCapacity ∧ s.bulk = some k ∧
      k.got.length + 1 < k.wanted) ∧
    ∃ (s : State) (k : Bulk), s.pull.tPos = maxCapacity - 1 ∧ s.bulk = some k ∧
      k.wanted ≤ k.got.length + 1 :=
  ⟨⟨walking, by decide, rfl⟩, ⟨walkingBulk, _, by decide, rfl, by decide⟩,
    { walking with
      bulk := some { wanted := 1, got := [] }, pull := { walking.pull with tPos := 899999 } }, _, rfl, rfl,
    by decide⟩

theorem witness_CountByteAndMaskBit : (∃ s : State, s.pull.tPos < maxCapacity) ∧
    (∃ s : State, 0 < s.pull.rNToGo) ∧ (∃ s : State, s.pull.rNToGo = 0 ∧ s.pull.rTPos = 510) ∧
    ∃ s : State, s.pull.rNToGo = 0 ∧ s.pull.rTPos = 511 :=
  ⟨⟨walking, by decide⟩, ⟨{ walking with pull := { walking.pull with rNToGo := 1 } }, by decide⟩,
    ⟨{ walking with pull := { walking.pull with rTPos := 510 } }, rfl, rfl⟩,
    { walking with pull := { walking.pull with rTPos := 511 } }, rfl, rfl⟩

/-- The first mask bit of a block is number 617 (`T[0] - 2`), in both directions of the statement. -/
theorem witness_MaskBitsAtRunningSums : ∃ n m q : Nat, m < n ∧ (maskBits n 0 0)[m]? = some true ∧
    m + 2 = ((List.range (q + 1)).map fun i => config.randTable.getD (i % 512) 0).sum :=
  ⟨618, 617, 0, by decide, by decide +kernel, by decide +kernel⟩

theorem witness_RunDetectionTransitions :
    (∃ s : State, s.phase = .pull ∧ s.ps = .noRandB ∧ s.pull.ch2 ≠ s.pull.chPrev) ∧
    (∃ s : State, s.phase = .pull ∧ s.ps = .noRandB ∧ s.pull.ch2 = s.pull.chPrev ∧ s.pull.count + 1 = 3) ∧
    (∃ s : State, s.phase = .pull ∧ s.ps = .noRandB ∧ s.pull.ch2 = s.pull.chPrev ∧ s.pull.count + 1 = 4 ∧
      s.blk.last < (s.pull.i2 : Int)) ∧
    (∃ (s : State) (b : Byte), s.phase = .pull ∧ s.ps = .randC ∧ s.pull.j2 < s.pull.z ∧
      s.pull.ch2 = some b) ∧
    ∃ s : State, s.phase = .pull ∧ s.ps = .randC ∧ s.pull.z = s.pull.j2 :=
  ⟨⟨{ atCount false none with pull := { walking.pull with ch2 := some 0#8 } }, rfl, rfl, by decide⟩,
    ⟨{ atCount false none with pull := { walking.pull with count := 2 } }, rfl, rfl, rfl, rfl⟩,
    ⟨{ atCount false none with pull := { (atCount false none).pull with i2 := 5 } }, rfl, rfl, rfl, rfl,
      by decide⟩,
    ⟨{ walking with ps := .randC, pull := { walking.pull with z := 255, j2 := 254, ch2 := some 0#8 } }, _,
      rfl, rfl, by decide, rfl⟩,
    { walking with ps := .randC, pull := { walking.pull with z := 255, j2 := 255 } }, rfl, rfl, rfl⟩

theorem witness_EndOfBlockChecksItsCrc :
    (∃ s : State, s.phase = .pull ∧ s.ps = .randA ∧ s.blk.last + 1 = (s.pull.i2 : Int) ∧
      config.crcFinal s.crc.crcAcc = s.crc.storedBlockCRC) ∧
    ∃ s : State, s.phase = .pull ∧ s.ps = .noRandA ∧ s.blk.last + 1 = (s.pull.i2 : Int) ∧
      config.crcFinal s.crc.crcAcc ≠ s.crc.storedBlockCRC :=
  ⟨⟨{ walking with ps := .randA, pull := { walking.pull with i2 := 5 } }, rfl, rfl, by decide, by decide⟩,
    { walking with
      crc := { walking.crc with storedBlockCRC := 1 }, pull := { walking.pull with i2 := 5 } }, rfl, rfl,
    by decide, by decide⟩

/-- The byte of a READ, one of a READ_BULK, and the last of a READ_BULK. -/
theorem witness_EveryByteGivenUpdatesTheChecksum :
    (∃ (s t : State) (b : Byte), step s = .next t ∧ t.responses = s.responses ++ [.byte b]) ∧
    (∃ (s t : State) (b : Byte) (k : Bulk), step s = .next t ∧ s.bulk = some k ∧ s.phase ≠ .idle ∧
      t.bulk = some { k with got := k.got ++ [b] }) ∧
    ∃ (s t : State) (b : Byte) (k : Bulk), step s = .next t ∧ s.bulk = some k ∧ s.phase ≠ .idle ∧
      t.responses = s.responses ++ [.data (k.got ++ [b])] :=
  ⟨⟨walking, _, _, rfl, rfl⟩, ⟨walkingBulk, _, 0x41#8, _, rfl, rfl, by decide, rfl⟩,
    { walking with bulk := some { wanted := 1, got := [] } }, _, 0x41#8, _, rfl, rfl, by decide, rfl⟩

theorem witness_OutputPhaseTouchesNoStream : ∃ s t : State, s.phase = .pull ∧ s.ps ≠ .startBlock ∧
    step s = .next t := ⟨walking, _, rfl, by decide, rfl⟩

/-- Ten bytes: four equal ones and six repeats. -/
theorem witness_BlockOutputIsItsExpansion : ∃ (s : State) (k : Bulk) (out : List Byte) (short : Bool), s.Inv ∧
    s.phase = .pull ∧ s.ps = .noRandA ∧ s.pull.randBit = none ∧ s.bulk = some k ∧
    (out, short) = expandRuns (s.content (s.blk.last + 1 - s.pull.i2).toNat) s.pull.ch2 s.pull.count ∧
    k.got.length + out.length < k.wanted ∧ out.length = 10 ∧ short = false :=
  ⟨walkingBulk, _, List.replicate 10 0x41#8, false, walkingBulk_inv, rfl, rfl, rfl, rfl, by decide +kernel,
    by decide, by decide, rfl⟩

end Sys2Proof.Tests
end

section
/-! PROOFS. The scope statements on the bit reader and the host port (00_scope.md rules R10 to R12): what
`readBits` gives, and how every part of a command stands to the responses. -/

section ReadBits

open Sys2Proof

/-- Settles O15: the bits left are the stream's bits from the position on, and a well-formed cursor has requested
exactly the bytes up to its position. -/
theorem readBitsGivesNextBits : Obligations.ReadBitsGivesNextBits := by
  intro c n hw h1 h32 hlen
  rcases c.readBits_cases h1 h32 with ⟨bs, rest, c', hl, hbits, hread, -, hreads⟩ | ⟨hshort, -⟩
  · obtain ⟨hw', hpos⟩ := hreads.wf hw
    obtain ⟨hsrc, hlive⟩ := hw'.srcPos_eq
    refine ⟨c', bs, hread, hl, fun k hk => ?_, hreads.src, hw', hpos, hpos ▸ hsrc, hpos ▸ hlive⟩
    rw [← hw.getElem?_bits, hbits, List.getElem?_append_left (by omega)]
  · rw [hw.length_bits] at hshort
    omega

end ReadBits

namespace Sys2Proof.Machine

/-! ### A part of a command and the host -/

/-- What the host side of a command sees or has given: commands to come, the bit cursor, responses. -/
def State.hostSide (s : State) : List CmdWord × BitCursor × List Response := (s.cmds, s.cur, s.responses)

/-- A part of a command, from `s` to `t`: commands and cursor are left, and either the command goes on with
nothing answered or one response ends it (rules R10, R12). -/
structure Exchange (s t : State) : Prop where
  cmds : t.cmds = s.cmds
  cur : t.cur = s.cur
  answer : (t.responses = s.responses ∧ t.phase ≠ .idle) ∨
    ∃ r, t.responses = s.responses ++ [r] ∧ t.phase = .idle ∧ t.bulk = none

namespace Exchange

variable {s t u : State}

theorem goesOn (h : t.hostSide = s.hostSide) (hp : t.phase ≠ .idle) : Exchange s t := by
  obtain ⟨hcmds, hcur, hresp⟩ : _ ∧ _ ∧ _ := by simpa [State.hostSide] using h
  exact ⟨hcmds, hcur, .inl ⟨hresp, hp⟩⟩

theorem respond {r : Response} (h : u.hostSide = s.hostSide) : Exchange s (u.respond r) := by
  obtain ⟨hcmds, hcur, hresp⟩ : _ ∧ _ ∧ _ := by simpa [State.hostSide] using h
  exact ⟨hcmds, hcur, .inr ⟨r, by simp [hresp], rfl, rfl⟩⟩

theorem raise {f : FaultCode} (h : u.hostSide = s.hostSide) : Exchange s (u.raise f) :=
  respond (u := { u with fault := some f }) h

theorem respondEod (h : u.hostSide = s.hostSide) : Exchange s u.respondEod := by
  unfold State.respondEod
  split
  · exact respond h
  · exact respond h

/-- A byte given ends a READ, and a READ_BULK that wants no more (rule R153). -/
theorem output {b : Byte} (h : u.hostSide = s.hostSide) : Exchange s (u.output b) := by
  have hu : (u.crcUpdate b).hostSide = s.hostSide := h
  unfold State.output State.respondByte
  split
  · exact respond hu
  · split
    · exact goesOn hu (by simp)
    · exact respond hu

end Exchange

/-- What a part of the symbol layer ends with: `P` where it goes on, `Q` where it has ended the command, and
whether (`stops`) it may meet a situation with no defined behaviour. -/
def Act.Ends (stops : Prop) (P Q : State → Prop) : Act → Prop
  | .go s => P s
  | .ended s => Q s
  | .stop _ => stops

theorem Act.Ends.andThen {stops : Prop} {P P' Q : State → Prop} {a : Act} {k : State → Act}
    (h : a.Ends stops P Q) (hk : ∀ s, P s → (k s).Ends stops P' Q) : (a.andThen k).Ends stops P' Q := by
  cases a with
  | go s => exact hk s h
  | ended s => exact h
  | stop u => exact h

/-- A part that may stop, as a step: only where it does not is there a next state. -/
theorem Act.Ends.of_result {P Q : State → Prop} {a : Act} {t : State} (h : a.Ends True P Q)
    (ht : a.result = .next t) : P t ∨ Q t := by
  cases a with
  | go s => cases ht; exact .inl h
  | ended s => cases ht; exact .inr h
  | stop u => cases u <;> cases ht

/-- A part that never stops, as a step. -/
theorem Act.Ends.result_next {P Q : State → Prop} {a : Act} (h : a.Ends False P Q) :
    ∃ t, a.result = .next t ∧ (P t ∨ Q t) := by
  cases a with
  | go s => exact ⟨s, rfl, .inl h⟩
  | ended s => exact ⟨s, rfl, .inr h⟩
  | stop u => exact h.elim

/-! ### The meanings -/

section Symbols

variable {s u : State}

/-- `u` is inside the command that `s` is inside, with nothing taken from the host and nothing answered. -/
def Quiet (s u : State) : Prop := u.hostSide = s.hostSide ∧ u.phase = s.phase

theorem emitRun_exchanges {n : Nat} {b : Byte} (h : Quiet s u) :
    (emitRun n b u).Ends True (Quiet s) (Exchange s) := by
  unfold emitRun
  split
  · exact Exchange.raise h.1
  · split
    · trivial
    · exact h

theorem flushRun_exchanges (h : Quiet s u) : (flushRun u).Ends True (Quiet s) (Exchange s) := by
  unfold flushRun
  split
  · exact h
  · split
    · trivial
    · exact (emitRun_exchanges h).andThen fun _ hv => hv

theorem moveSymbol_exchanges {k : Nat} (h : Quiet s u) : (moveSymbol k u).Ends True (Quiet s) (Exchange s) := by
  unfold moveSymbol
  split
  · trivial
  · exact emitRun_exchanges h

theorem checkOrigPtr_exchanges (h : Quiet s u) : (checkOrigPtr u).Ends True (Quiet s) (Exchange s) := by
  unfold checkOrigPtr
  split
  · exact Exchange.raise h.1
  · exact h

theorem buildTT_exchanges (h : Quiet s u) : (buildTT u).Ends True (Quiet s) (Exchange s) := by
  unfold buildTT
  split
  · trivial
  · split
    · trivial
    · exact h

theorem execMtfv_exchange {t : State} {k : Nat} (hs : s.phase ≠ .idle) (h : execMtfv k s = .next t) :
    Exchange s t := by
  have ha := (flushRun_exchanges ⟨rfl, rfl⟩).andThen fun u (hu : Quiet s u) =>
    moveSymbol_exchanges (k := k) hu
  rcases ha.of_result h with ht | ht
  · exact .goesOn ht.1 (ht.2 ▸ hs)
  · exact ht

theorem execEob_exchange {t : State} (h : execEob s = .next t) : Exchange s t := by
  have ha := ((flushRun_exchanges ⟨rfl, rfl⟩).andThen fun u (hu : Quiet s u) =>
    checkOrigPtr_exchanges (u := u.crcReset) hu).andThen fun u hu => buildTT_exchanges hu
  have hb := ha.andThen (P' := fun t => t.hostSide = s.hostSide ∧ t.phase = .pull)
    (k := fun s => .go (initPull s)) fun u hu => ⟨hu.1, rfl⟩
  rcases hb.of_result h with ht | ht
  · exact .goesOn ht.1 (by simp [ht.2])
  · exact ht

end Symbols

section Meanings

variable {s t u : State}

/-- A command answers a latched fault, raises one, or does what its body does. -/
theorem enter_exchange {op : HostOp} {body : State → State} (hb : Exchange s (body s))
    (h : s.enter op body = .next t) : Exchange s t := by
  rcases enter_cases op s body with ⟨f, -, he⟩ | ⟨-, f, he⟩ | ⟨he, -⟩ <;> rw [he] at h <;> cases h
  · exact .respond rfl
  · exact .raise rfl
  · exact hb

theorem execStart_exchange {a : Word} (h : execStart a s = .next t) : Exchange s t :=
  enter_exchange (.goesOn rfl (by simp)) h

theorem execRead_exchange {a : Word} (h : execRead a s = .next t) : Exchange s t := by
  refine enter_exchange ?_ h
  split
  · exact .respond rfl
  · exact .goesOn rfl (by simp)

theorem execReadBulk_exchange {n : Word} (h : execReadBulk n s = .next t) : Exchange s t := by
  refine enter_exchange ?_ h
  split
  · exact .respond rfl
  · exact .goesOn rfl (by simp)

theorem execClose_exchange {a : Word} (h : execClose a s = .next t) : Exchange s t :=
  enter_exchange (body := fun s => ({ s with srcClosed := true, closed := true } : State).respond .ok)
    (.respond rfl) h

theorem makeMaps_exchange (h : u.hostSide = s.hostSide) : Exchange s (makeMaps u) := by
  unfold makeMaps
  simp only
  split
  · exact .raise h
  · exact .goesOn h (by simp)

theorem rowsFrom_exchange {g : Nat} (h : u.hostSide = s.hostSide) : Exchange s (rowsFrom g u) := by
  unfold rowsFrom
  split
  · exact .goesOn h (by simp)
  · exact makeMaps_exchange h

theorem execSelector_exchange {j : Nat} (h : execSelector j s = .next t) : Exchange s t := by
  unfold execSelector at h
  simp only at h
  split at h
  · cases h; exact .raise rfl
  · split at h
    · cases h
    · split at h
      · cases h
      · cases h
        split
        · exact .goesOn rfl (by simp)
        · exact .goesOn rfl (by simp)

theorem execLenStop_exchange (h : execLenStop s = .next t) : Exchange s t := by
  unfold execLenStop at h
  split at h
  · cases h
  · cases h
    simp only
    split
    · exact .goesOn rfl (by simp)
    · split
      · exact .goesOn rfl (by simp)
      · exact .goesOn rfl (by simp [finishTables, initDecode])

theorem execNGroups_exchange {g : BitVec 3} (h : execNGroups g s = .next t) : Exchange s t := by
  unfold execNGroups at h
  cases h
  split
  · exact .raise rfl
  · exact .goesOn rfl (by simp)

theorem execNSelectors_exchange {n : BitVec 15} (h : execNSelectors n s = .next t) : Exchange s t := by
  unfold execNSelectors at h
  cases h
  split
  · exact .raise rfl
  · exact .goesOn rfl (by simp)

theorem execCombinedCrc_exchange {c : Word} (h : execCombinedCrc c s = .next t) : Exchange s t := by
  unfold execCombinedCrc at h
  cases h
  split
  · exact .respondEod rfl
  · exact .raise rfl

theorem execLiteral_exchange {v : Byte} (h : execLiteral v s = .next t) : Exchange s t := by
  unfold execLiteral at h
  split at h
  · cases h
  · cases h; exact .output rfl

theorem execRunCount_exchange {c : Byte} (hs : s.phase ≠ .idle) (h : execRunCount c s = .next t) :
    Exchange s t := by
  unfold execRunCount at h
  split at h
  · cases h
  · cases h; exact .goesOn rfl hs

theorem execRandMask_exchange {r : Bool} (hs : s.phase ≠ .idle) (h : execRandMask r s = .next t) :
    Exchange s t := by
  unfold execRandMask at h
  split at h
  · cases h
  · cases h; exact .goesOn rfl hs

/-- Every instruction that is due inside a command goes on with it or answers it; a host command does so at rest
too. -/
theorem exec_exchange {i : Instr} (hs : s.phase ≠ .idle ∨ (encodeCommand i).isSome) (h : exec i s = .next t) :
    Exchange s t := by
  cases i with
  | start a => exact execStart_exchange (a := a) h
  | read a => exact execRead_exchange (a := a) h
  | readBulk n => exact execReadBulk_exchange h
  | write a => exact enter_exchange (op := .write) (.raise rfl) h
  | seek a => exact enter_exchange (op := .seek) (.raise rfl) h
  | setLength a => exact enter_exchange (op := .setLength) (.raise rfl) h
  | getLength a => exact enter_exchange (op := .getLength) (.raise rfl) h
  | close a => exact execClose_exchange (a := a) h
  | streamHdr h3 => cases h; exact .respond rfl
  | blockMagic | endMagic | blockCrc _ | randomised _ | origPtr _ | startLen _ | lenInc | lenDec =>
    cases h; exact .goesOn rfl (by simp)
  | inUse16 _ | inUseRow _ => cases h; exact rowsFrom_exchange rfl
  | nGroups g => exact execNGroups_exchange h
  | nSelectors n => exact execNSelectors_exchange h
  | selector j => exact execSelector_exchange h
  | lenStop => exact execLenStop_exchange h
  | combinedCrc c => exact execCombinedCrc_exchange h
  | runA | runB => cases h; exact .goesOn rfl (hs.resolve_right (by simp [encodeCommand]))
  | mtfv k => exact execMtfv_exchange (hs.resolve_right (by simp [encodeCommand])) h
  | eob => exact execEob_exchange h
  | literal v => exact execLiteral_exchange h
  | runCount c => exact execRunCount_exchange (hs.resolve_right (by simp [encodeCommand])) h
  | randMask r => exact execRandMask_exchange (hs.resolve_right (by simp [encodeCommand])) h

end Meanings

/-! ### What is due -/

section Due

variable {s : State}

/-- A decoded command is a host command. -/
theorem encodeCommand_decodeCommand_isSome (w : CmdWord) : (encodeCommand (decodeCommand w)).isSome := by
  unfold decodeCommand
  split <;> rfl

theorem step_of_command {w : CmdWord} {ws : List CmdWord} (hp : s.phase = .idle) (hc : s.cmds = w :: ws) :
    step s = exec (decodeCommand w) { s with cmds := ws } := by
  simp [step, fetch, hp, fetchCommand, hc, Fetched.outcome]

theorem step_of_rest (hp : s.phase = .idle) (hc : s.cmds = []) : step s = .next s := by
  simp [step, fetch, hp, fetchCommand, hc, Fetched.outcome]

/-- What a fetch inside a command can find: an instruction, with the cursor moved and nothing answered, or the whole
effect of a part of the command after the cursor has moved. -/
def Fetched.Exchanges (s : State) : Fetched → Prop
  | .instr _ u => ∃ c, Quiet { s with cur := c } u
  | .done t => ∃ c, Exchange { s with cur := c } t
  | .stop _ | .noByte => True

theorem fetchField_exchanges (ctx : Ctx) : (fetchField ctx s).Exchanges s := by
  unfold fetchField
  split
  · exact ⟨_, rfl, rfl⟩
  · exact ⟨_, .raise rfl⟩
  · trivial

theorem fetchLenDelta_exchanges : (fetchLenDelta s).Exchanges s := by
  unfold fetchLenDelta
  split
  · exact ⟨s.cur, .raise rfl⟩
  · exact fetchField_exchanges _

theorem fetchSymbol_exchanges : (fetchSymbol s).Exchanges s := by
  unfold fetchSymbol
  simp only
  split
  · exact ⟨s.cur, .raise rfl⟩
  · split
    · trivial
    · split
      · trivial
      · split
        · exact ⟨_, rfl, rfl⟩
        · exact ⟨_, .raise rfl⟩
        · trivial

theorem fetchWalk_exchanges (mk : Byte → Instr) : (fetchWalk mk s).Exchanges s := by
  unfold fetchWalk
  split
  · split
    · trivial
    · exact ⟨s.cur, rfl, rfl⟩
  · split
    · trivial
    · exact ⟨s.cur, rfl, rfl⟩

theorem endBlock_exchange (hp : s.phase ≠ .idle) : Exchange s (endBlock s) := by
  unfold endBlock
  simp only
  split
  · exact .goesOn rfl hp
  · exact .raise rfl

theorem fetchPull_exchanges (hp : s.phase ≠ .idle) : (fetchPull s).Exchanges s := by
  have hA : (fetchA s).Exchanges s := by
    unfold fetchA
    split
    · exact fetchWalk_exchanges _
    · exact ⟨s.cur, endBlock_exchange hp⟩
  have hB : (fetchB s).Exchanges s := by
    unfold fetchB
    split
    · exact ⟨s.cur, .goesOn rfl hp⟩
    · split
      · exact ⟨s.cur, .goesOn rfl hp⟩
      · split
        · exact ⟨s.cur, .raise rfl⟩
        · exact fetchWalk_exchanges _
  have hC : (fetchC s).Exchanges s := by
    unfold fetchC
    split
    · split
      · exact ⟨s.cur, .output rfl⟩
      · trivial
    · exact ⟨s.cur, .goesOn rfl hp⟩
  unfold fetchPull
  split
  · exact fetchField_exchanges _
  · exact hA
  · exact hA
  · exact hB
  · exact hB
  · exact hC
  · exact hC

theorem fetch_exchanges (hp : s.phase ≠ .idle) : (fetch s).Exchanges s := by
  unfold fetch
  cases hph : s.phase with
  | idle => exact absurd hph hp
  | pull => exact fetchPull_exchanges hp
  | lenDelta => exact fetchLenDelta_exchanges
  | symbol => exact fetchSymbol_exchanges
  | _ => exact fetchField_exchanges _

/-- A step inside a command moves the cursor, and then goes on with the command or answers it. -/
theorem step_exchange {t : State} (hp : s.phase ≠ .idle) (h : step s = .next t) :
    ∃ c, Exchange { s with cur := c } t := by
  have hf := fetch_exchanges hp
  unfold step at h
  cases hd : fetch s with
  | instr i u =>
    rw [hd] at h hf
    obtain ⟨c, hhost, hphase⟩ := hf
    obtain ⟨hcmds, hcur, hresp⟩ : _ ∧ _ ∧ _ := by simpa [State.hostSide] using hhost
    have hx : Exchange u t := exec_exchange (.inl (hphase ▸ hp)) h
    exact ⟨c, hx.cmds.trans hcmds, hx.cur.trans hcur, hresp ▸ hx.answer⟩
  | done u => rw [hd] at h hf; cases h; exact hf
  | stop u => rw [hd] at h; cases u <;> cases h
  | noByte => rw [hd] at h; cases h

end Due

end Sys2Proof.Machine

section Responses

open Sys2Proof Sys2Proof.Machine

/-- Settles O7: at rest a step holds the state or runs a command, inside a command it goes on or answers. -/
theorem responsesOnlyAppended : Obligations.ResponsesOnlyAppended := by
  intro s t h
  by_cases hp : s.phase = .idle
  · cases hc : s.cmds with
    | nil => rw [step_of_rest hp hc] at h; cases h; exact .inl rfl
    | cons w ws =>
      rw [step_of_command hp hc] at h
      exact (exec_exchange (.inr (encodeCommand_decodeCommand_isSome w)) h).answer.imp_left And.left
  · obtain ⟨c, hx⟩ := step_exchange hp h
    exact hx.answer.imp_left And.left

end Responses
end

section
/-! PROOFS. The invariant of a run along every step. It is cut into a part that does not depend on the position in the
pseudocode (`State.BaseInv`) and the ranges of the position reached; each meaning is then a lemma that builds the
second part only. -/

namespace Sys2Proof.Machine

/-! ### The parts of the invariant -/

namespace State

variable {s t : State}

/-- A READ or READ_BULK is in progress. -/
def Reading (s : State) : Prop := s.phase ≠ .idle ∧ s.phase ≠ .streamHdr

/-- What the lifecycle part of the invariant is about, the position apart. -/
def lifecycle (s : State) : Option Bulk × Bool × Nat × Bool × Bool × Bool × Option FaultCode :=
  (s.bulk, s.srcClosed, s.blockClass, s.streamEnd, s.started, s.closed, s.fault)

/-- What no element of the stream part of a READ changes while the READ goes on. -/
def held (s : State) :
    BitCursor × PullState × Option Bulk × Bool × Nat × Bool × Bool × Bool × Option FaultCode :=
  (s.cur, s.ps, s.lifecycle)

theorem LifeInv.of_lifecycle (h : s.LifeInv) (hs : s.Reading) (ht : t.Reading) (hl : t.lifecycle = s.lifecycle) :
    t.LifeInv := by
  simp only [lifecycle, Prod.mk.injEq] at hl
  obtain ⟨hbulk, hsrc, hclass, hend, hstart, hclosed, hfault⟩ := hl
  exact {
    restBulk := fun hp => absurd hp ht.1
    busy := fun _ => by rw [hfault, hclosed, hend]; exact h.busy hs.1
    header := fun hp => absurd hp ht.2
    reading := fun _ _ => hstart ▸ h.reading hs.1 hs.2
    wanting := hbulk ▸ h.wanting
    cls := by rw [hstart, hclass]; exact h.cls
    ended := by rw [hstart, hend]; exact h.ended
    closed := by rw [hclosed, hsrc]; exact h.closed }

theorem LifeInv.respond (h : s.LifeInv) (r : Response) : (s.respond r).LifeInv where
  restBulk _ := rfl
  busy hp := absurd rfl hp
  header hp := by cases hp
  reading hp := absurd rfl hp
  wanting k hk := by cases hk
  cls := h.cls
  ended := h.ended
  closed := h.closed

/-- The capacity of a started stream is within the memories (rules R22, R84). -/
theorem LifeInv.capacity_le (h : s.LifeInv) (hs : s.started = true) : s.capacity ≤ maxCapacity := by
  have := (h.cls hs).2
  simp only [capacity, baseBlock, maxCapacity, classMax] at *
  omega

theorem MemoriesInv.congr (h : s.MemoriesInv) (htab : t.tab = s.tab) (hblk : t.blk = s.blk) : t.MemoriesInv :=
  ⟨htab ▸ h.inUse, htab ▸ h.seqToUnseq, htab ▸ h.unseqToSeq, htab ▸ h.selector, htab ▸ h.cnt, htab ▸ h.huff,
    htab ▸ h.tables, hblk ▸ h.unzftab, hblk ▸ h.cftab, hblk ▸ h.ll8, hblk ▸ h.tt⟩

/-- The ranges of the table registers up to the selectors: those of the tables themselves are not due yet. -/
theorem TablesInv.of_stage_le_three (hp : s.phase.stage ≤ 3) (hlist : s.tab.selPos.length = nGroupsMax)
    (hranks : s.dec.yy.length = byteValues) (hrow : s.phase = .inUseRow → s.tab.rowI < 16)
    (hal : 1 ≤ s.phase.stage → 1 ≤ s.tab.nInUse ∧ s.tab.nInUse ≤ byteValues)
    (hgr : 2 ≤ s.phase.stage → 2 ≤ s.tab.nGroups ∧ s.tab.nGroups ≤ nGroupsMax)
    (hct : 3 ≤ s.phase.stage → 1 ≤ s.tab.nSelectors ∧ s.tab.nSelectors ≤ config.selCap)
    (hsel : s.phase = .selector → s.tab.selI < s.tab.nSelectors ∧
      (∀ v ∈ s.tab.selPos.take s.tab.nGroups, v < s.tab.nGroups) ∧
      ∀ g < s.tab.selI, s.tab.selector.read g < s.tab.nGroups) : s.TablesInv where
  listLength := hlist
  ranks := hranks
  row := hrow
  alphabet := hal
  groups := hgr
  counts := hct
  selecting := hsel
  selectors := fun h4 => by omega
  lengths := fun h4 => by omega
  deltas := fun hph => by simp [hph, Phase.stage] at hp
  built := fun hph => by simp [hph, Phase.stage] at hp

/-- The part of the invariant that does not depend on the place in the table section or the symbols. -/
structure BaseInv (s : State) : Prop where
  cursor : s.cur.Wf
  life : s.LifeInv
  memories : s.MemoriesInv
  listLength : s.tab.selPos.length = nGroupsMax
  ranks : s.dec.yy.length = byteValues
  pulling : s.ps ≠ .startBlock → s.PullingInv

theorem Inv.base (h : s.Inv) : s.BaseInv :=
  ⟨h.cursor, h.life, h.memories, h.tables.listLength, h.tables.ranks, h.pulling⟩

namespace BaseInv

/-- Before NGROUPS is due and after the last symbol the tables have no ranges to keep but the row due. -/
theorem inv_of_stage_zero (h : s.BaseInv) (hp : s.phase.stage = 0)
    (hrow : s.phase = .inUseRow → s.tab.rowI < 16) : s.Inv where
  cursor := h.cursor
  life := h.life
  memories := h.memories
  tables := .of_stage_le_three (by omega) h.listLength h.ranks hrow (fun h1 => by omega) (fun h2 => by omega)
    (fun h3 => by omega) (fun hph => by simp [hph, Phase.stage] at hp)
  filling := fun hph => by simp [hph, Phase.stage] at hp
  pulling := h.pulling

/-- A response given: between two commands of a block the next pull step is not that of `XA`. -/
theorem respond (h : s.BaseInv) (hrest : s.ps ≠ .startBlock → s.fault = none →
    s.ps ≠ .randA ∧ s.ps ≠ .noRandA ∧ s.pull.randBit = none) (r : Response) : (s.respond r).Inv :=
  inv_of_stage_zero {
    cursor := h.cursor
    life := h.life.respond r
    memories := h.memories.congr rfl rfl
    listLength := h.listLength
    ranks := h.ranks
    pulling := fun hps => { h.pulling hps with place := .inl rfl, rest := fun _ => hrest hps } } rfl
    (fun hp => by cases hp)

/-- A fault raised. -/
theorem raise (h : s.BaseInv) (f : FaultCode) : (s.raise f).Inv :=
  inv_of_stage_zero {
    cursor := h.cursor
    life := { h.life.respond (.err f) with busy := fun hp => absurd rfl hp }
    memories := h.memories.congr rfl rfl
    listLength := h.listLength
    ranks := h.ranks
    pulling := fun hps => { h.pulling hps with place := .inl rfl, rest := fun _ hf => by cases hf } } rfl
    (fun hp => by cases hp)

end BaseInv

/-- The same inside the stream part of a READ: no block is being given. -/
structure ParseInv (s : State) : Prop extends s.BaseInv where
  reading : s.Reading
  startBlock : s.ps = .startBlock

theorem Inv.parse (h : s.Inv) (hs : s.Reading) (hpull : s.phase ≠ .pull ∨ s.ps = .startBlock) : s.ParseInv where
  toBaseInv := h.base
  reading := hs
  startBlock := by
    by_contra hps
    exact (h.pulling hps).place.elim hs.1 (hpull.resolve_right hps)

namespace ParseInv

/-- A part of such a step. -/
theorem of_held (h : s.ParseInv) (ht : t.Reading) (hheld : t.held = s.held) (hm : t.MemoriesInv)
    (hlist : t.tab.selPos.length = nGroupsMax) (hranks : t.dec.yy.length = byteValues) : t.ParseInv := by
  simp only [held, Prod.mk.injEq] at hheld
  obtain ⟨hcur, hps, hlife⟩ := hheld
  have hstart : t.ps = .startBlock := hps.trans h.startBlock
  exact {
    cursor := hcur ▸ h.cursor
    life := h.life.of_lifecycle h.reading ht hlife
    memories := hm
    listLength := hlist
    ranks := hranks
    pulling := fun hn => absurd hstart hn
    reading := ht
    startBlock := hstart }

/-- Such a step goes on, at a position whose ranges hold. -/
theorem inv (h : s.ParseInv) (ht : t.Reading) (hheld : t.held = s.held) (hm : t.MemoriesInv) (htab : t.TablesInv)
    (hfill : t.phase = .symbol → t.FillingInv) : t.Inv :=
  have hp := h.of_held ht hheld hm htab.listLength htab.ranks
  ⟨hp.cursor, hp.life, hm, htab, hfill, hp.pulling⟩

/-- Such a step raises a fault. -/
theorem raise (h : s.ParseInv) {f : FaultCode} (hphase : t.phase = s.phase) (hheld : t.held = s.held)
    (hm : t.MemoriesInv) (hlist : t.tab.selPos.length = nGroupsMax) (hranks : t.dec.yy.length = byteValues) :
    (t.raise f).Inv :=
  (h.of_held (by rw [Reading, hphase]; exact h.reading) hheld hm hlist hranks).toBaseInv.raise f

end ParseInv

theorem Inv.moveCursor (h : s.Inv) {c : BitCursor} (hc : c.Wf) : ({ s with cur := c } : State).Inv where
  cursor := hc
  life := { h.life with }
  memories := h.memories.congr rfl rfl
  tables := { h.tables with }
  filling := fun hp => { h.filling hp with }
  pulling := fun hps => { h.pulling hps with }

end State

/-- A meaning answers a next state, and keeps the invariant. -/
def Keeps (r : Result) : Prop := ∃ t, r = .next t ∧ t.Inv

end Sys2Proof.Machine
end

section
/-! PROOFS. The header fields, the table section and the trailer keep the invariant. -/

namespace Sys2Proof.Machine

variable {s u : State}

/-! ### Header fields and trailer (rules R180 to R185) -/

/-- From one position to another before NGROUPS is due, with registers changed that no range speaks of. -/
theorem inv_of_header_step (h : s.ParseInv) (ht : u.Reading) (hheld : u.held = s.held) (htab : u.tab = s.tab)
    (hdec : u.dec = s.dec) (hblk : u.blk = s.blk) (hstage : u.phase.stage = 0) (hrow : u.phase ≠ .inUseRow) :
    u.Inv :=
  (h.of_held ht hheld (h.memories.congr htab hblk) (htab ▸ h.listLength)
    (hdec ▸ h.ranks)).inv_of_stage_zero hstage fun hp => absurd hp hrow

theorem execStreamHdr_keeps (h : s.Inv) (hp : s.phase = .streamHdr) {h3 : Byte} (h9 : h3 ≤ config.digit9) :
    Keeps (execStreamHdr h3 s) := by
  obtain ⟨hstarted, hbulk⟩ := h.life.header hp
  obtain ⟨hfault, hclosed, hend⟩ := h.life.busy (by simp [hp])
  have hclass : h3.toNat - config.digit1.toNat + 1 ≤ 9 := by
    have hd : config.digit9.toNat = config.digit1.toNat + 8 := by decide
    have := BitVec.le_def.1 h9
    omega
  refine ⟨_, rfl, State.BaseInv.inv_of_stage_zero ?_ rfl nofun⟩
  exact {
    cursor := h.cursor
    life := {
      restBulk := fun _ => rfl
      busy := fun hn => absurd rfl hn
      header := nofun
      reading := fun hn => absurd rfl hn
      wanting := nofun
      cls := fun _ => ⟨Nat.succ_le_succ (Nat.zero_le _), hclass⟩
      ended := fun _ => rfl
      closed := h.life.closed }
    memories := h.memories.congr rfl rfl
    listLength := h.tables.listLength
    ranks := h.tables.ranks
    pulling := fun hn => by simpa [hp] using (h.pulling hn).place }

theorem execCombinedCrc_keeps (h : s.ParseInv) (c : Word) : Keeps (execCombinedCrc c s) := by
  refine ⟨_, rfl, ?_⟩
  split
  · have hend : ∀ r, (({ s with
        crc := { s.crc with storedCombinedCRC := c }, streamEnd := true } : State).respond r).Inv := fun r =>
      State.BaseInv.inv_of_stage_zero {
        cursor := h.cursor
        life := { h.life.respond r with
          ended := fun _ => h.life.reading h.reading.1 h.reading.2, busy := fun hn => absurd rfl hn }
        memories := h.memories.congr rfl rfl
        listLength := h.listLength
        ranks := h.ranks
        pulling := fun hn => absurd h.startBlock hn } rfl nofun
    unfold State.respondEod
    split
    · exact hend _
    · exact hend _
  · exact h.raise rfl rfl (h.memories.congr rfl rfl) h.listLength h.ranks

/-! ### The in-use bitmap (rules R200, R201) -/

theorem makeMaps_inv (h : u.ParseInv) : (makeMaps u).Inv := by
  have hseq := Mem.wf_writeList h.memories.seqToUnseq 0 (usedBytes u.tab.inUse)
  have hunseq := writeRanks_wf h.memories.unseqToSeq 0 (usedBytes u.tab.inUse)
  unfold makeMaps
  simp only
  split
  · exact h.raise rfl rfl { h.memories with seqToUnseq := hseq, unseqToSeq := hunseq } h.listLength h.ranks
  · next hne =>
    exact h.inv ⟨nofun, nofun⟩ rfl { h.memories with seqToUnseq := hseq, unseqToSeq := hunseq }
      (.of_stage_le_three (by simp [Phase.stage]) h.listLength h.ranks nofun
        (fun _ => ⟨List.length_pos_iff.2 hne, length_usedBytes_le _⟩) (by simp [Phase.stage])
        (by simp [Phase.stage]) nofun) nofun

theorem rowsFrom_inv (h : u.ParseInv) (g : Nat) : (rowsFrom g u).Inv := by
  unfold rowsFrom
  split
  · next g' hg =>
    exact h.inv ⟨nofun, nofun⟩ rfl { h.memories with }
      (.of_stage_le_three (by simp [Phase.stage]) h.listLength h.ranks (fun _ => (nextGroup_some hg).2.1)
        (by simp [Phase.stage]) (by simp [Phase.stage]) (by simp [Phase.stage]) nofun) nofun
  · exact makeMaps_inv h

/-- Group map and bitmap may hold anything while the rows are read. -/
theorem parseInv_bitmap (h : s.ParseInv) (v : BitVec 16) {m : Mem Bool} (hm : m.wf) :
    ({ s with tab := { s.tab with used16 := v, inUse := m } } : State).ParseInv :=
  h.of_held ⟨h.reading.1, h.reading.2⟩ rfl { h.memories with inUse := hm } h.listLength h.ranks

theorem execInUse16_keeps (h : s.ParseInv) (v : BitVec 16) : Keeps (execInUse16 v s) :=
  ⟨_, rfl, rowsFrom_inv (parseInv_bitmap h v Mem.wf_nil) _⟩

theorem execInUseRow_keeps (h : s.ParseInv) (v : BitVec 16) : Keeps (execInUseRow v s) :=
  ⟨_, rfl, rowsFrom_inv (parseInv_bitmap h s.tab.used16 (writeRow_wf h.memories.inUse _ v)) _⟩

/-! ### Counts and selectors (rules R202, R203) -/

theorem execNGroups_keeps (h : s.ParseInv) (ht : s.TablesInv) (hp : s.phase = .nGroups) (g : BitVec 3) :
    Keeps (execNGroups g s) := by
  have hal := ht.alphabet (by rw [hp]; decide)
  refine ⟨_, rfl, ?_⟩
  split
  · exact h.raise rfl rfl { h.memories with } h.listLength h.ranks
  · next hg =>
    have hgr : 2 ≤ g.toNat ∧ g.toNat ≤ nGroupsMax := by omega
    exact h.inv ⟨nofun, nofun⟩ rfl { h.memories with }
      (.of_stage_le_three (by simp [Phase.stage]) h.listLength h.ranks nofun (fun _ => hal)
        (fun _ => hgr) (by simp [Phase.stage]) nofun) nofun

theorem execNSelectors_keeps (h : s.ParseInv) (ht : s.TablesInv) (hp : s.phase = .nSelectors) (n : BitVec 15) :
    Keeps (execNSelectors n s) := by
  have hal := ht.alphabet (by rw [hp]; decide)
  have hgr := ht.groups (by rw [hp]; decide)
  have hlen : (List.range s.tab.nGroups ++ s.tab.selPos.drop s.tab.nGroups).length = nGroupsMax := by
    rw [List.length_append, List.length_range, List.length_drop, h.listLength]
    omega
  refine ⟨_, rfl, ?_⟩
  split
  · exact h.raise rfl rfl { h.memories with } h.listLength h.ranks
  · next hn =>
    have hct : 1 ≤ n.toNat ∧ n.toNat ≤ config.selCap := by omega
    exact h.inv ⟨nofun, nofun⟩ rfl { h.memories with }
      (.of_stage_le_three (by simp [Phase.stage]) hlen h.ranks nofun (fun _ => hal) (fun _ => hgr)
        (fun _ => hct)
        (fun _ => ⟨hct.1, by simp, fun g hg => absurd hg (Nat.not_lt_zero g)⟩)) nofun

theorem execSelector_keeps (h : s.ParseInv) (ht : s.TablesInv) (hp : s.phase = .selector) {j : Nat}
    (hj : j < s.tab.nGroups) : Keeps (execSelector j s) := by
  have hal := ht.alphabet (by rw [hp]; decide)
  have hgr := ht.groups (by rw [hp]; decide)
  have hct := ht.counts (by rw [hp]; decide)
  obtain ⟨hi, hlist, hdone⟩ := ht.selecting hp
  have hlt : j < s.tab.selPos.length := by rw [h.listLength]; omega
  have htmp : s.tab.selPos[j] < s.tab.nGroups := hlist _ (mem_take_iff.2 ⟨j, hj, by simp [hlt]⟩)
  have hsel : ∀ g < s.tab.selI + 1,
      (s.tab.selector.write s.tab.selI s.tab.selPos[j]).read g < s.tab.nGroups := fun g hg => by
    rw [Mem.read_write h.memories.selector]
    split
    · exact htmp
    · exact hdone g (by omega)
  have hlen : (s.tab.selPos[j] :: s.tab.selPos.eraseIdx j).length = nGroupsMax :=
    (length_moved hlt).trans h.listLength
  have hw := Mem.wf_write h.memories.selector s.tab.selI s.tab.selPos[j]
  unfold execSelector
  simp only
  rw [if_neg (by omega), if_neg (by omega), moveToFront_eq hlt]
  refine ⟨_, rfl, ?_⟩
  split
  · next hmore =>
    exact h.inv ⟨nofun, nofun⟩ rfl { h.memories with selector := hw }
      (.of_stage_le_three (by simp [Phase.stage]) hlen h.ranks nofun (fun _ => hal) (fun _ => hgr) (fun _ => hct)
        (fun _ => ⟨hmore, fun v hv => hlist v (mem_take_moved hlt hj hv), hsel⟩)) nofun
  · next hlast =>
    exact h.inv ⟨nofun, nofun⟩ rfl { h.memories with selector := hw } {
      listLength := hlen
      ranks := h.ranks
      row := nofun
      alphabet := fun _ => hal
      groups := fun _ => hgr
      counts := fun _ => hct
      selecting := nofun
      selectors := fun _ g hg => hsel g (by simp only at hlast hg; omega)
      lengths := fun _ _ => ⟨by simp only; omega, fun t ht => absurd ht (Nat.not_lt_zero t)⟩
      deltas := nofun
      built := nofun } nofun

end Sys2Proof.Machine
end

section
/-! PROOFS. The code lengths, the building of the tables and the symbols keep the invariant. -/

namespace Sys2Proof

/-- A legal length more. -/
theorem LegalLengths.snoc {t : HuffTable} {i l : Nat} (h : LegalLengths (t.lens i)) (hw : t.len.wf) (h1 : 1 ≤ l)
    (h20 : l ≤ maxCodeLen) : LegalLengths (({ t with len := t.len.write i l } : HuffTable).lens (i + 1)) := by
  intro x hx
  simp only [HuffTable.lens, List.range_succ, List.map_append, List.mem_append, List.mem_map, List.mem_range,
    List.map_cons, List.map_nil, List.mem_singleton] at hx
  rcases hx with ⟨k, hk, rfl⟩ | rfl
  · rw [Mem.read_write_of_ne hw _ (by omega)]
    exact h _ (List.mem_map.2 ⟨k, List.mem_range.2 hk, rfl⟩)
  · rw [Mem.read_write_self hw]
    exact ⟨h1, h20⟩

namespace Machine

variable {s u : State}

/-- The ranges of the table registers from the code lengths on. -/
theorem State.TablesInv.of_four_le_stage (hp : 4 ≤ s.phase.stage) (hlist : s.tab.selPos.length = nGroupsMax)
    (hranks : s.dec.yy.length = byteValues) (hal : 1 ≤ s.tab.nInUse ∧ s.tab.nInUse ≤ byteValues)
    (hgr : 2 ≤ s.tab.nGroups ∧ s.tab.nGroups ≤ nGroupsMax)
    (hct : 1 ≤ s.tab.nSelectors ∧ s.tab.nSelectors ≤ config.selCap)
    (hsel : ∀ g < s.tab.nSelectors, s.tab.selector.read g < s.tab.nGroups)
    (hlen : s.phase.stage ≤ 5 → s.tab.lenT < s.tab.nGroups ∧
      ∀ t < s.tab.lenT, LegalLengths ((s.tab.huff.read t).lens s.alphaSize))
    (hdelta : s.phase = .lenDelta → s.tab.lenI < s.alphaSize ∧ s.tab.curr ≤ 31 ∧
      LegalLengths ((s.tab.huff.read s.tab.lenT).lens s.tab.lenI))
    (hbuilt : s.phase = .symbol → ∀ t < s.tab.nGroups, ∃ h : HuffTable,
      LegalLengths (h.lens s.alphaSize) ∧ h.perm.wf ∧ s.tab.huff.read t = h.build s.alphaSize) :
    s.TablesInv where
  listLength := hlist
  ranks := hranks
  row := fun hph => by simp [hph, Phase.stage] at hp
  alphabet := fun _ => hal
  groups := fun _ => hgr
  counts := fun _ => hct
  selecting := fun hph => by simp [hph, Phase.stage] at hp
  selectors := fun _ => hsel
  lengths := fun _ => hlen
  deltas := hdelta
  built := hbuilt

/-! ### Code lengths (rule R204) -/

theorem execStartLen_keeps (h : s.ParseInv) (ht : s.TablesInv) (hp : s.phase = .startLen) (l : BitVec 5) :
    Keeps (execStartLen l s) := by
  have hal := ht.alphabet (by rw [hp]; decide)
  have hgr := ht.groups (by rw [hp]; decide)
  have hct := ht.counts (by rw [hp]; decide)
  have hsel := ht.selectors (by rw [hp]; decide)
  have hlen := ht.lengths (by rw [hp]; decide) (by rw [hp]; decide)
  have hl : l.toNat ≤ 31 := by have := l.isLt; omega
  exact ⟨_, rfl, h.inv ⟨nofun, nofun⟩ rfl { h.memories with }
    (.of_four_le_stage (by simp [Phase.stage]) h.listLength h.ranks hal hgr hct hsel (fun _ => hlen)
      (fun _ => ⟨Nat.succ_pos _, hl, fun _ hx => by simp [HuffTable.lens] at hx⟩) nofun) nofun⟩

/-- Another current length of at most 31. -/
theorem inv_of_curr (h : s.ParseInv) (ht : s.TablesInv) (hp : s.phase = .lenDelta) {c : Nat} (hc : c ≤ 31) :
    ({ s with tab := { s.tab with curr := c }, phase := .lenDelta } : State).Inv := by
  have hal := ht.alphabet (by rw [hp]; decide)
  have hgr := ht.groups (by rw [hp]; decide)
  have hct := ht.counts (by rw [hp]; decide)
  have hsel := ht.selectors (by rw [hp]; decide)
  have hlen := ht.lengths (by rw [hp]; decide) (by rw [hp]; decide)
  obtain ⟨hi, -, hlegal⟩ := ht.deltas hp
  exact h.inv ⟨nofun, nofun⟩ rfl { h.memories with }
    (.of_four_le_stage (by simp [Phase.stage]) h.listLength h.ranks hal hgr hct hsel (fun _ => hlen)
      (fun _ => ⟨hi, hc, hlegal⟩) nofun) nofun

theorem execLenInc_keeps (h : s.ParseInv) (ht : s.TablesInv) (hp : s.phase = .lenDelta)
    (hc : s.tab.curr ≤ maxCodeLen) : Keeps (execLenInc s) :=
  ⟨_, rfl, inv_of_curr h ht hp (by simp only [maxCodeLen] at hc; omega)⟩

theorem execLenDec_keeps (h : s.ParseInv) (ht : s.TablesInv) (hp : s.phase = .lenDelta) : Keeps (execLenDec s) :=
  ⟨_, rfl, inv_of_curr h ht hp (by have := (ht.deltas hp).2.1; omega)⟩

/-! ### The end of the table section (rules R205, R206, R230) -/

/-- With every table's lengths legal the tables are built and the symbols are due. -/
theorem finishTables_inv (h : u.ParseInv) (hal : 1 ≤ u.tab.nInUse ∧ u.tab.nInUse ≤ byteValues)
    (hgr : 2 ≤ u.tab.nGroups ∧ u.tab.nGroups ≤ nGroupsMax)
    (hct : 1 ≤ u.tab.nSelectors ∧ u.tab.nSelectors ≤ config.selCap)
    (hsel : ∀ g < u.tab.nSelectors, u.tab.selector.read g < u.tab.nGroups)
    (hlen : ∀ t < u.tab.nGroups, LegalLengths ((u.tab.huff.read t).lens u.alphaSize)) : (finishTables u).Inv := by
  obtain ⟨hbw, hbr⟩ := buildTables_read (a := u.alphaSize) (List.nodup_range (n := u.tab.nGroups)) h.memories.huff
  have hyy : ((List.range byteValues).map (BitVec.ofNat 8)).length = byteValues := by simp
  refine h.inv ⟨nofun, nofun⟩ rfl ?_ ?_ ?_
  · exact { h.memories with
      huff := hbw
      tables := buildTables_tables h.memories.tables
      cnt := (Mem.wf_fromList _ _).1
      unzftab := Mem.wf_nil }
  · refine .of_four_le_stage (by simp [finishTables, initDecode, Phase.stage]) h.listLength hyy hal hgr hct hsel
      (by simp [finishTables, initDecode, Phase.stage]) nofun fun _ t ht => ?_
    exact ⟨u.tab.huff.read t, hlen t ht, (tableWf_read h.memories t).2.2.2,
      (hbr t).trans (if_pos (List.mem_range.2 ht))⟩
  · exact fun _ => ⟨⟨le_rfl, Int.natCast_nonneg _⟩, fun v _ => rfl⟩

/-- The code length memory after LEN_STOP (rule R204). -/
def State.keptLength (s : State) : Mem HuffTable :=
  s.tab.huff.write s.tab.lenT
    { s.tab.huff.read s.tab.lenT with len := (s.tab.huff.read s.tab.lenT).len.write s.tab.lenI s.tab.curr }

/-- What follows a length kept in the memory `m`: the next symbol, the next table, or the end of the section. -/
def State.afterLength (s : State) (m : Mem HuffTable) : State :=
  if s.tab.lenI + 1 < s.alphaSize then
    { s with tab := { s.tab with huff := m, lenI := s.tab.lenI + 1 }, phase := .lenDelta }
  else if s.tab.lenT + 1 < s.tab.nGroups then
    { s with tab := { s.tab with huff := m, lenI := s.tab.lenI + 1, lenT := s.tab.lenT + 1 }, phase := .startLen }
  else finishTables
    { s with tab := { s.tab with huff := m, lenI := s.tab.lenI + 1, lenT := s.tab.lenT + 1 } }

theorem execLenStop_eq (hT : s.tab.lenT < nGroupsMax) (hI : s.tab.lenI < maxAlpha) :
    execLenStop s = .next (s.afterLength s.keptLength) := by
  rw [execLenStop, if_neg (by omega)]
  rfl

theorem afterLength_inv (h : s.ParseInv) (ht : s.TablesInv) (hp : s.phase = .lenDelta) {m : Mem HuffTable}
    (hm : m.wf) (htables : ∀ p ∈ m, TableWf p.2)
    (hnew : LegalLengths ((m.read s.tab.lenT).lens (s.tab.lenI + 1)))
    (hold : ∀ t < s.tab.lenT, LegalLengths ((m.read t).lens s.alphaSize)) : (s.afterLength m).Inv := by
  have hal := ht.alphabet (by rw [hp]; decide)
  have hgr := ht.groups (by rw [hp]; decide)
  have hct := ht.counts (by rw [hp]; decide)
  have hsel := ht.selectors (by rw [hp]; decide)
  obtain ⟨hT, -⟩ := ht.lengths (by rw [hp]; decide) (by rw [hp]; decide)
  obtain ⟨hI, hcurr, -⟩ := ht.deltas hp
  unfold State.afterLength
  split
  · next hmore =>
    exact h.inv ⟨nofun, nofun⟩ rfl { h.memories with huff := hm, tables := htables }
      (.of_four_le_stage (by simp [Phase.stage]) h.listLength h.ranks hal hgr hct hsel (fun _ => ⟨hT, hold⟩)
        (fun _ => ⟨hmore, hcurr, hnew⟩) nofun) nofun
  · next hlast =>
    have hfull : s.alphaSize = s.tab.lenI + 1 := by omega
    have hall : ∀ t < s.tab.lenT + 1, LegalLengths ((m.read t).lens s.alphaSize) := fun t hlt => by
      rcases Nat.lt_succ_iff_lt_or_eq.1 hlt with hlt | rfl
      · exact hold t hlt
      · exact hfull ▸ hnew
    split
    · next hmore =>
      exact h.inv ⟨nofun, nofun⟩ rfl { h.memories with huff := hm, tables := htables }
        (.of_four_le_stage (by simp [Phase.stage]) h.listLength h.ranks hal hgr hct hsel
          (fun _ => ⟨hmore, hall⟩) nofun nofun) nofun
    · next hlast =>
      refine finishTables_inv ?_ hal hgr hct hsel fun t hlt => hall t (by simp only at hlt; omega)
      exact h.of_held ⟨h.reading.1, h.reading.2⟩ rfl { h.memories with huff := hm, tables := htables } h.listLength
        h.ranks

theorem execLenStop_keeps (h : s.ParseInv) (ht : s.TablesInv) (hp : s.phase = .lenDelta) (hc1 : 1 ≤ s.tab.curr)
    (hc20 : s.tab.curr ≤ maxCodeLen) : Keeps (execLenStop s) := by
  obtain ⟨hI, -, hlegal⟩ := ht.deltas hp
  obtain ⟨hT, hdone⟩ := ht.lengths (by rw [hp]; decide) (by rw [hp]; decide)
  have hal := ht.alphabet (by rw [hp]; decide)
  have hgr := ht.groups (by rw [hp]; decide)
  have halpha : s.alphaSize ≤ maxAlpha := by
    simp only [State.alphaSize, maxAlpha, byteValues] at *
    omega
  obtain ⟨hlen, hlimit, hbase, hperm⟩ := tableWf_read h.memories s.tab.lenT
  refine ⟨_, execLenStop_eq (by omega) (by omega), afterLength_inv h ht hp ?_ ?_ ?_ ?_⟩
  · exact Mem.wf_write h.memories.huff _ _
  · intro p hmem
    rcases mem_write_entry hmem with hmem | heq
    · exact h.memories.tables p hmem
    · rw [heq]
      exact ⟨Mem.wf_write hlen _ _, hlimit, hbase, hperm⟩
  · rw [State.keptLength, Mem.read_write_self h.memories.huff]
    exact hlegal.snoc hlen hc1 hc20
  · intro t hlt
    rw [State.keptLength, Mem.read_write_of_ne h.memories.huff _ (by omega)]
    exact hdone t hlt

/-! ### Symbols (rules R233 to R237) -/

/-- In the symbols of a block. -/
structure SymbolInv (s : State) : Prop where
  inv : s.Inv
  phase : s.phase = .symbol

namespace SymbolInv

theorem parse (h : SymbolInv s) : s.ParseInv :=
  h.inv.parse ⟨by simp [h.phase], by simp [h.phase]⟩ (.inl (by simp [h.phase]))

theorem capacity_le (h : SymbolInv s) : s.capacity ≤ maxCapacity :=
  h.inv.life.capacity_le (h.inv.life.reading h.parse.reading.1 h.parse.reading.2)

/-- The decode cursors may hold anything, the rank list any 256 numbers. -/
theorem setDec (h : SymbolInv s) {d : DecodeRegs} (hd : d.yy.length = byteValues) :
    SymbolInv { s with dec := d } where
  inv := h.parse.inv ⟨by simp [h.phase], by simp [h.phase]⟩ rfl { h.inv.memories with }
    { h.inv.tables with ranks := hd } fun _ => { h.inv.filling h.phase with }
  phase := h.phase

theorem crcReset (h : SymbolInv s) : SymbolInv s.crcReset where
  inv := h.parse.inv ⟨by simp [h.phase], by simp [h.phase]⟩ rfl { h.inv.memories with }
    { h.inv.tables with } fun _ => { h.inv.filling h.phase with }
  phase := h.phase

theorem append (h : SymbolInv s) {n : Nat} (b : Byte) (hroom : s.blk.last + 1 + n ≤ (s.capacity : Int)) :
    SymbolInv { s with blk := s.blk.append n b } where
  inv := h.parse.inv ⟨by simp [h.phase], by simp [h.phase]⟩ rfl (memories_append h.inv.memories n b)
    { h.inv.tables with } fun _ => filling_append (h.inv.filling h.phase) h.inv.memories b hroom
  phase := h.phase

end SymbolInv

theorem emitRun_ends (h : SymbolInv u) (n : Nat) (b : Byte) :
    (emitRun n b u).Ends False SymbolInv State.Inv := by
  by_cases hroom : u.blk.last + 1 + n ≤ (u.capacity : Int)
  · rw [emitRun_of_room hroom h.capacity_le]
    exact h.append b hroom
  · rw [emitRun_of_overrun (by omega)]
    exact h.inv.base.raise _

theorem flushRun_ends (h : SymbolInv u) : (flushRun u).Ends False SymbolInv State.Inv := by
  unfold flushRun
  split
  · exact h
  · split
    · next hnil => simpa [hnil, byteValues] using h.inv.tables.ranks
    · exact (emitRun_ends h _ _).andThen fun v hv => hv.setDec hv.inv.tables.ranks

theorem moveSymbol_ends (h : SymbolInv u) {k : Nat} (hk : k ≤ byteValues) (h1 : 1 ≤ k) :
    (moveSymbol k u).Ends False SymbolInv State.Inv := by
  have hlt : k - 1 < u.dec.yy.length := by rw [h.inv.tables.ranks]; omega
  unfold moveSymbol
  rw [moveToFront_eq hlt]
  exact emitRun_ends (h.setDec ((length_moved hlt).trans h.inv.tables.ranks)) _ _

theorem execMtfv_keeps (h : SymbolInv s) {k : Nat} (h2 : 2 ≤ k) (hk : k ≤ byteValues) : Keeps (execMtfv k s) := by
  obtain ⟨t, ht, hinv⟩ := ((flushRun_ends h).andThen fun u hu =>
    moveSymbol_ends hu hk (by omega)).result_next
  exact ⟨t, ht, hinv.elim SymbolInv.inv id⟩

/-! ### The set-up of a block (rules R260 to R263) -/

theorem checkOrigPtr_ends (h : SymbolInv u) : (checkOrigPtr u).Ends False
    (fun v => SymbolInv v ∧ (v.hdr.origPtr : Int) < v.blk.last + 1) State.Inv := by
  unfold checkOrigPtr
  split
  · exact h.inv.base.raise _
  · next hptr => exact ⟨h, by omega⟩

/-- A pull state that is one of two is no other. -/
theorem PullState.ne_of_or {p a b q : PullState} (h : p = a ∨ p = b) (ha : a ≠ q := by decide)
    (hb : b ≠ q := by decide) : p ≠ q := by
  rcases h with rfl | rfl
  · exact ha
  · exact hb

theorem initPull_ps_cases (s : State) : (initPull s).ps = .randA ∨ (initPull s).ps = .noRandA := by
  simp only [initPull]
  split
  · exact .inl rfl
  · exact .inr rfl

theorem buildTT_ends (h : SymbolInv u) (hptr : (u.hdr.origPtr : Int) < u.blk.last + 1) :
    (buildTT u).Ends False (fun v => (initPull v).Inv) State.Inv := by
  have hfill := h.inv.filling h.phase
  have hstart := h.inv.life.reading h.parse.reading.1 h.parse.reading.2
  have hcap := h.capacity_le
  have hbounds := hfill.bounds
  obtain ⟨cftab, tt, heq, hcw, htw, -, -, hplace, -⟩ := buildTT_spec h.inv.memories
    (n := (u.blk.last + 1).toNat) (by omega) (by omega) hfill.counts
  have hlinks : ∀ k < (u.blk.last + 1).toNat, tt.read k < (u.blk.last + 1).toNat := fun k hk =>
    links_lt u.blk.ll8 hplace hk
  rw [heq]
  refine State.BaseInv.inv_of_stage_zero ?_ rfl nofun
  exact {
    cursor := h.inv.cursor
    life := h.inv.life.of_lifecycle h.parse.reading ⟨nofun, nofun⟩ rfl
    memories := { h.inv.memories with cftab := hcw, tt := htw }
    listLength := h.inv.tables.listLength
    ranks := h.inv.tables.ranks
    pulling := fun _ => {
      place := .inr rfl
      started := hstart
      bounds := ⟨by simp only [initPull]; omega, hbounds.2⟩
      links := hlinks
      cursor := hlinks _ (by omega)
      taken := by simp only [initPull]; omega
      mask := Nat.succ_pos _
      latch := fun hn => absurd rfl hn
      produced := fun hA hN => ((initPull_ps_cases _).elim hA hN).elim
      short := fun _ _ => Nat.zero_le _
      full := fun hC => (hC.elim (PullState.ne_of_or (initPull_ps_cases _))
        (PullState.ne_of_or (initPull_ps_cases _))).elim
      rest := nofun } }

theorem execEob_keeps (h : SymbolInv s) : Keeps (execEob s) := by
  have hends := (((flushRun_ends h).andThen fun u hu => checkOrigPtr_ends hu.crcReset).andThen fun u hu =>
    buildTT_ends hu.1 hu.2).andThen (P' := State.Inv) (k := fun u => .go (initPull u)) fun u hu => hu
  obtain ⟨t, ht, hinv⟩ := hends.result_next
  exact ⟨t, ht, hinv.elim id id⟩

end Machine
end Sys2Proof
end

section
/-! PROOFS. The pull machine inside a block keeps the invariant and comes closer to the end of the block; a step of the
stream part consumes bits. With that every step from the invariant answers a next state, and every command ends. -/

namespace Sys2Proof.Machine

variable {s t u : State}

/-! ### How far a command is from its end -/

/-- The bytes of the block the walk has not taken. -/
def State.bytesLeft (s : State) : Nat := (s.blk.last + 1 - s.pull.i2).toNat

/-- A bound on the steps a block takes until its end: a byte of the walk costs at most its mask bit, the step that
takes it, and the 255 repeats it may ask for. -/
def State.walkLeft (s : State) : Nat :=
  match s.ps with
  | .startBlock => 0
  | .randA | .noRandA => 300 * s.bytesLeft + 1 + s.maskDue.toNat
  | .randB | .noRandB => 300 * s.bytesLeft + 3 + s.maskDue.toNat
  | .randC | .noRandC => 300 * s.bytesLeft + 3 + (s.pull.z - s.pull.j2)

/-- `t` is nearer the end of the command than `s`: at rest, or with fewer bits left, or with the same bits and less of
the block left. -/
def Descends (s t : State) : Prop :=
  t.phase = .idle ∨ t.cur.bits.length < s.cur.bits.length ∨ (t.cur = s.cur ∧ t.walkLeft < s.walkLeft)

/-- A step inside a command: a next state with the invariant, nearer the end. -/
def Advances (s : State) (r : Result) : Prop := ∃ t, r = .next t ∧ t.Inv ∧ Descends s t

/-! ### Stream elements -/

theorem execSymbol_keeps (h : SymbolInv s) {t : HuffTable} {i : Instr}
    (hi : (Ctx.symbol t s.tab.nInUse).Allows i) : Keeps (exec i s) := by
  have hal := h.inv.tables.alphabet (by rw [h.phase]; decide)
  have hranks := h.inv.tables.ranks
  rcases hi with rfl | rfl | rfl | ⟨k, rfl, h2, hk⟩
  · exact ⟨_, rfl, SymbolInv.inv (h.setDec (d := { s.dec with runS := _, runN := _ }) hranks)⟩
  · exact ⟨_, rfl, SymbolInv.inv (h.setDec (d := { s.dec with runS := _, runN := _ }) hranks)⟩
  · exact execEob_keeps h
  · exact execMtfv_keeps h h2 (by omega)

/-- The meaning of an instruction that stands in its place of the grammar. -/
theorem exec_keeps (h : s.Inv) {ctx : Ctx} {i : Instr} (hc : s.ctx = some ctx) (hi : ctx.Allows i)
    (hlegal : s.phase = .lenDelta → 1 ≤ s.tab.curr ∧ s.tab.curr ≤ maxCodeLen) : Keeps (exec i s) := by
  cases hp : s.phase <;> simp only [State.ctx, hp] at hc
  case idle => cases hc
  case streamHdr =>
    cases hc
    obtain ⟨h3, rfl, -, h9⟩ := hi
    exact execStreamHdr_keeps h hp h9
  case pull =>
    split at hc
    · next hps =>
      cases hc
      have hparse := h.parse ⟨by simp [hp], by simp [hp]⟩ (.inr hps)
      rcases hi with rfl | rfl
      · exact ⟨_, rfl, inv_of_header_step hparse ⟨nofun, nofun⟩ rfl rfl rfl rfl rfl nofun⟩
      · exact ⟨_, rfl, inv_of_header_step hparse ⟨nofun, nofun⟩ rfl rfl rfl rfl rfl nofun⟩
    · cases hc
  all_goals cases hc; have hparse := h.parse ⟨by simp [hp], by simp [hp]⟩ (.inl (by simp [hp]))
  case blockCrc =>
    obtain ⟨c, rfl⟩ := hi
    exact ⟨_, rfl, inv_of_header_step hparse ⟨nofun, nofun⟩ rfl rfl rfl rfl rfl nofun⟩
  case randomised =>
    obtain ⟨r, rfl⟩ := hi
    exact ⟨_, rfl, inv_of_header_step hparse ⟨nofun, nofun⟩ rfl rfl rfl rfl rfl nofun⟩
  case origPtr =>
    obtain ⟨p, rfl, -⟩ := hi
    exact ⟨_, rfl, inv_of_header_step hparse ⟨nofun, nofun⟩ rfl rfl rfl rfl rfl nofun⟩
  case inUse16 =>
    obtain ⟨v, rfl⟩ := hi
    exact execInUse16_keeps hparse v
  case inUseRow =>
    obtain ⟨v, rfl⟩ := hi
    exact execInUseRow_keeps hparse v
  case nGroups =>
    obtain ⟨g, rfl⟩ := hi
    exact execNGroups_keeps hparse h.tables hp g
  case nSelectors =>
    obtain ⟨n, rfl⟩ := hi
    exact execNSelectors_keeps hparse h.tables hp n
  case selector =>
    obtain ⟨j, rfl, hj⟩ := hi
    have hgr := h.tables.groups (by rw [hp]; decide)
    exact execSelector_keeps hparse h.tables hp (by omega)
  case startLen =>
    obtain ⟨l, rfl⟩ := hi
    exact execStartLen_keeps hparse h.tables hp l
  case lenDelta =>
    obtain ⟨h1, h20⟩ := hlegal hp
    rcases hi with rfl | rfl | rfl
    · exact execLenStop_keeps hparse h.tables hp h1 h20
    · exact execLenInc_keeps hparse h.tables hp h20
    · exact execLenDec_keeps hparse h.tables hp
  case symbol =>
    exact execSymbol_keeps ⟨h, hp⟩ hi
  case combinedCrc =>
    obtain ⟨c, rfl⟩ := hi
    exact execCombinedCrc_keeps hparse c

/-- Bits consumed and the meaning run. -/
theorem advances_of_bits {i : Instr} (hu : u.phase ≠ .idle) (hk : Keeps (exec i u))
    (hlt : u.cur.bits.length < s.cur.bits.length) : Advances s (exec i u) := by
  obtain ⟨t, ht, hinv⟩ := hk
  exact ⟨t, ht, hinv, .inr (.inl (by rw [(exec_exchange (.inl hu) ht).cur]; exact hlt))⟩

theorem advances_of_raise (h : s.BaseInv) (f : FaultCode) : Advances u (.next (s.raise f)) :=
  ⟨_, rfl, h.raise f, .inl rfl⟩

theorem fetchField_advances (h : s.Inv) {ctx : Ctx} (hc : s.ctx = some ctx) (hsym : s.phase ≠ .symbol)
    (hlegal : s.phase = .lenDelta → 1 ≤ s.tab.curr ∧ s.tab.curr ≤ maxCodeLen) :
    Advances s (fetchField ctx s).outcome := by
  have hctx : ∀ t n, ctx ≠ .symbol t n := by
    rintro t n rfl
    cases hp : s.phase <;> simp [State.ctx, hp] at hc hsym
  have hidle : s.phase ≠ .idle := fun hp => by simp [State.ctx, hp] at hc
  unfold fetchField
  rcases decode_answers ctx s.cur hctx with ⟨i, c, m, hi, hd, hr, hl, hm⟩ | ⟨f, c, m, hd, hr⟩
  · rw [hd]
    have hu := h.moveCursor (hr.wf h.cursor).1
    exact advances_of_bits hidle (exec_keeps hu hc hi hlegal) (by simp only; omega)
  · rw [hd]
    exact advances_of_raise (h.moveCursor (hr.wf h.cursor).1).base f

theorem fetchLenDelta_advances (h : s.Inv) (hp : s.phase = .lenDelta) : Advances s (fetchLenDelta s).outcome := by
  unfold fetchLenDelta
  split
  · exact advances_of_raise h.base _
  · exact fetchField_advances h (by simp [State.ctx, hp]) (by simp [hp]) fun _ => by omega

/-- A symbol: the table its number selects is one that was built, so a code is decoded or rejected (rule R232). -/
theorem fetchSymbol_advances (h : s.Inv) (hp : s.phase = .symbol) : Advances s (fetchSymbol s).outcome := by
  have hal := h.tables.alphabet (by rw [hp]; decide)
  have hgr := h.tables.groups (by rw [hp]; decide)
  have hct := h.tables.counts (by rw [hp]; decide)
  have hsel := h.tables.selectors (by rw [hp]; decide)
  unfold fetchSymbol
  simp only
  split
  · exact advances_of_raise h.base _
  · next hg =>
    have hgt := hsel (s.dec.symIdx / gSize) (by omega)
    rw [if_neg (by omega), if_neg (by omega)]
    obtain ⟨t, hlegal, hperm, hbuild⟩ := h.tables.built hp _ hgt
    have halpha : s.alphaSize = s.tab.nInUse + 2 := rfl
    have hne : t.lens s.alphaSize ≠ [] := List.length_pos_iff.1 (by rw [HuffTable.length_lens]; omega)
    obtain ⟨h1, h20⟩ := leastOf_legal hlegal hne
    rw [hbuild]
    rcases decodeCode_cases (t := t.build s.alphaSize) (n := s.alphaSize)
      (by simp only [maxAlpha, byteValues] at *; omega) h1 h20 s.cur with
      ⟨idx, zn, zvec, c, m, hidx, hd, hr, hl, hm⟩ | ⟨f, c, m, hd, hr, -⟩
    · rw [hd]
      have hu : SymbolInv { s with cur := c } := ⟨h.moveCursor (hr.wf h.cursor).1, hp⟩
      have hv := hu.setDec (d := { s.dec with symIdx := s.dec.symIdx + 1, zn := zn, zvec := zvec }) h.tables.ranks
      have hsym := symbolInstr_allowed t (nInUse := s.tab.nInUse) (HuffTable.build_perm_lt hperm hidx)
      exact advances_of_bits (by simp [hp]) (execSymbol_keeps hv hsym) (by simp only; omega)
    · rw [hd]
      exact advances_of_raise (h.moveCursor (hr.wf h.cursor).1).base f

end Sys2Proof.Machine
end

section
/-! PROOFS. The pull machine inside a block, the commands at rest, and with them progress and completion. -/

namespace Sys2Proof.Machine

variable {s t u : State}

/-! ### The steps of a block (45_inverse_bwt_output.md rules R264 to R273) -/

theorem PullState.toA_cases (p : PullState) : p.toA = .randA ∨ p.toA = .noRandA := by cases p <;> decide

theorem PullState.toB_cases (p : PullState) : p.toB = .randB ∨ p.toB = .noRandB := by cases p <;> decide

theorem PullState.toC_cases (p : PullState) : p.toC = .randC ∨ p.toC = .noRandC := by cases p <;> decide

theorem State.walkLeft_of_A (h : s.ps = .randA ∨ s.ps = .noRandA) :
    s.walkLeft = 300 * s.bytesLeft + 1 + s.maskDue.toNat := by
  rcases h with h | h <;> simp [walkLeft, h]

theorem State.walkLeft_of_B (h : s.ps = .randB ∨ s.ps = .noRandB) :
    s.walkLeft = 300 * s.bytesLeft + 3 + s.maskDue.toNat := by
  rcases h with h | h <;> simp [walkLeft, h]

theorem State.walkLeft_of_C (h : s.ps = .randC ∨ s.ps = .noRandC) :
    s.walkLeft = 300 * s.bytesLeft + 3 + (s.pull.z - s.pull.j2) := by
  rcases h with h | h <;> simp [walkLeft, h]

theorem State.walkLeft_le_of_A (h : s.ps = .randA ∨ s.ps = .noRandA) : s.walkLeft ≤ 300 * s.bytesLeft + 2 := by
  have := Bool.toNat_le s.maskDue
  rw [walkLeft_of_A h]
  omega

theorem State.walkLeft_le_of_B (h : s.ps = .randB ∨ s.ps = .noRandB) : s.walkLeft ≤ 300 * s.bytesLeft + 4 := by
  have := Bool.toNat_le s.maskDue
  rw [walkLeft_of_B h]
  omega

/-- Giving a byte does not touch the walk. -/
theorem State.walkLeft_output (b : Byte) (s : State) : (s.output b).walkLeft = s.walkLeft := by
  simp [walkLeft, bytesLeft, maskDue]

/-- The table index of the de-randomisation unit stays in the table (rule R267). -/
theorem randReload_lt {toGo tPos : Nat} (h : tPos < randSize) : (randReload toGo tPos).2 < randSize := by
  unfold randReload
  split
  · simp only
    split
    · exact Nat.succ_pos _
    · omega
  · exact h

/-- A byte is given by a pull step of a block that leaves `XB` or `XC` next. -/
theorem State.BaseInv.output (h : u.BaseInv) (hp : u.phase = .pull)
    (hrest : u.ps ≠ .randA ∧ u.ps ≠ .noRandA ∧ u.pull.randBit = none) (b : Byte) : (u.output b).Inv := by
  have hcrc : (u.crcUpdate b).BaseInv := {
    cursor := h.cursor
    life := { h.life with }
    memories := h.memories.congr rfl rfl
    listLength := h.listLength
    ranks := h.ranks
    pulling := fun hps => { h.pulling hps with } }
  unfold State.output State.respondByte
  split
  · exact hcrc.respond (fun _ _ => hrest) _
  · next k hk =>
    split
    · next hmore =>
      refine State.BaseInv.inv_of_stage_zero ?_ rfl nofun
      exact {
        cursor := h.cursor
        life := { h.life with
          restBulk := nofun
          busy := fun _ => h.life.busy (by simp [hp])
          header := nofun
          reading := fun _ _ => h.life.reading (by simp [hp]) (by simp [hp])
          wanting := fun k' hk' => by cases hk'; exact hmore }
        memories := h.memories.congr rfl rfl
        listLength := h.listLength
        ranks := h.ranks
        pulling := fun hps => { h.pulling hps with place := .inr rfl, rest := nofun } }
    · exact hcrc.respond (fun _ _ => hrest) _

/-- Other registers of the pull machine, with its ranges kept. -/
theorem baseInv_of_pull (h : s.Inv) {p : PullRegs} {q : PullState}
    (hP : q ≠ .startBlock → ({ s with pull := p, ps := q } : State).PullingInv) :
    ({ s with pull := p, ps := q } : State).BaseInv where
  cursor := h.cursor
  life := { h.life with }
  memories := h.memories.congr rfl rfl
  listLength := h.tables.listLength
  ranks := h.tables.ranks
  pulling := hP

theorem advances_of_pull (h : u.BaseInv) (hp : u.phase = .pull) (hcur : u.cur = s.cur)
    (hw : u.walkLeft < s.walkLeft) : Advances s (.next u) :=
  ⟨u, rfl, h.inv_of_stage_zero (by rw [hp]; rfl) (by simp [hp]), .inr (.inr ⟨hcur, hw⟩)⟩

theorem advances_of_output {b : Byte} (h : u.BaseInv) (hp : u.phase = .pull)
    (hrest : u.ps ≠ .randA ∧ u.ps ≠ .noRandA ∧ u.pull.randBit = none) (hcur : u.cur = s.cur)
    (hw : u.walkLeft < s.walkLeft) : Advances s (.next (u.output b)) :=
  ⟨_, rfl, h.output hp hrest b, .inr (.inr ⟨by simp [hcur], by rw [State.walkLeft_output]; exact hw⟩)⟩

/-- The cursor of the walk is within the memories. -/
theorem State.Inv.tPos_lt (h : s.Inv) (hps : s.ps ≠ .startBlock) : s.pull.tPos < maxCapacity := by
  have hP := h.pulling hps
  have hcap := h.life.capacity_le hP.started
  have hcur := hP.cursor
  have hb := hP.bounds
  omega

/-- A byte taken as data. -/
theorem execLiteral_advances (h : s.Inv) (hp : s.phase = .pull) (hps : s.ps = .randA ∨ s.ps = .noRandA)
    (hi : (s.pull.i2 : Int) ≤ s.blk.last) (v : Byte) : Advances s (execLiteral v s) := by
  have hne : s.ps ≠ .startBlock := PullState.ne_of_or hps
  have hP := h.pulling hne
  have htPos := h.tPos_lt hne
  have hB := s.ps.toB_cases
  have hcount := hP.short (PullState.ne_of_or hps) (PullState.ne_of_or hps)
  unfold execLiteral
  rw [if_neg (by omega)]
  refine advances_of_output (baseInv_of_pull h fun _ => ?_) hp
    ⟨PullState.ne_of_or hB, PullState.ne_of_or hB, rfl⟩ rfl ?_
  · exact {
      place := .inr hp
      started := hP.started
      bounds := hP.bounds
      links := hP.links
      cursor := hP.links _ hP.cursor
      taken := by simp only [State.advanceWalk_pull]; omega
      mask := hP.mask
      latch := fun hn => absurd rfl hn
      produced := fun _ _ => by simp
      short := fun _ _ => hcount
      full := fun hC => (hC.elim (PullState.ne_of_or hB) (PullState.ne_of_or hB)).elim
      rest := fun hidle => by simp [hp] at hidle }
  · refine (State.walkLeft_le_of_B hB).trans_lt ?_
    rw [State.walkLeft_of_A hps]
    simp only [State.bytesLeft, State.advanceWalk_pull, State.advanceWalk_blk]
    omega

/-- A byte taken as the count of a run of four (rule R269). -/
theorem execRunCount_advances (h : s.Inv) (hp : s.phase = .pull) (hps : s.ps = .randB ∨ s.ps = .noRandB)
    (hi : (s.pull.i2 : Int) ≤ s.blk.last) (hfour : runThreshold ≤ s.pull.count + 1) (c : Byte) :
    Advances s (execRunCount c s) := by
  have hne : s.ps ≠ .startBlock := PullState.ne_of_or hps
  have hP := h.pulling hne
  have htPos := h.tPos_lt hne
  have hC := s.ps.toC_cases
  have hcount := hP.short (PullState.ne_of_or hps) (PullState.ne_of_or hps)
  have hch2 := hP.produced (PullState.ne_of_or hps) (PullState.ne_of_or hps)
  have hc : c.toNat < 256 := c.isLt
  unfold execRunCount
  rw [if_neg (by omega)]
  refine advances_of_pull (baseInv_of_pull h fun _ => ?_) hp rfl ?_
  · exact {
      place := .inr hp
      started := hP.started
      bounds := hP.bounds
      links := hP.links
      cursor := hP.links _ hP.cursor
      taken := by simp only [State.advanceWalk_pull]; omega
      mask := hP.mask
      latch := fun hn => absurd rfl hn
      produced := fun _ _ => hch2
      short := fun h1 h2 => (hC.elim h1 h2).elim
      full := fun _ => ⟨by simp only [runThreshold, State.advanceWalk_pull] at *; omega, Nat.zero_le _, by
        simp only; omega⟩
      rest := fun hidle => by simp [hp] at hidle }
  · refine (State.walkLeft_of_C hC).trans_lt ?_
    rw [State.walkLeft_of_B hps]
    simp only [State.bytesLeft, State.advanceWalk_pull, State.advanceWalk_blk]
    omega

/-- The mask bit of the next byte of a randomised block. -/
theorem execRandMask_advances (h : s.Inv) (hp : s.phase = .pull) (hps : s.ps ≠ .startBlock ∧ s.ps ≠ .randC)
    (hdue : s.maskDue = true) (r : Bool) : Advances s (execRandMask r s) := by
  have hP := h.pulling hps.1
  have hmask := hP.mask
  obtain ⟨hrand, hnone⟩ : s.ps.isRand = true ∧ s.pull.randBit = none := by simpa [State.maskDue] using hdue
  have hAB : s.ps = .randA ∨ s.ps = .randB := by
    cases hq : s.ps <;> simp [hq, PullState.isRand] at hrand hps ⊢
  unfold execRandMask
  rw [if_neg (by omega)]
  refine advances_of_pull (baseInv_of_pull h fun _ => ?_) hp rfl ?_
  · exact { hP with
      mask := randReload_lt hmask
      latch := fun _ => hAB
      rest := fun hidle => by simp [hp] at hidle }
  · rcases hAB with hq | hq
    · simp only [State.walkLeft, hq, hdue]
      simp [State.bytesLeft, State.maskDue]
    · simp only [State.walkLeft, hq, hdue]
      simp [State.bytesLeft, State.maskDue]

/-- The next byte of the walk: its mask bit first, where it is due. -/
theorem fetchWalk_advances (h : s.Inv) (hp : s.phase = .pull) (hps : s.ps ≠ .startBlock ∧ s.ps ≠ .randC)
    {mk : Byte → Instr} (hmk : Advances s (exec (mk s.walkByte) s)) : Advances s (fetchWalk mk s).outcome := by
  have hmask := (h.pulling hps.1).mask
  have htPos := h.tPos_lt hps.1
  unfold fetchWalk
  split
  · next hdue =>
    rw [if_neg (by omega)]
    exact execRandMask_advances h hp hps hdue _
  · rw [if_neg (by omega)]
    exact hmk

/-- The end of a block: the next marker is due, or the block's CRC is wrong (rule R271). -/
theorem endBlock_advances (h : s.Inv) (hp : s.phase = .pull) (hps : s.ps = .randA ∨ s.ps = .noRandA) :
    Advances s (.next (endBlock s)) := by
  have hcrc : ∀ c q, (q ≠ .startBlock → s.ps = q) → ({ s with crc := c, ps := q } : State).BaseInv := fun c q hq => {
    cursor := h.cursor
    life := { h.life with }
    memories := h.memories.congr rfl rfl
    listLength := h.tables.listLength
    ranks := h.tables.ranks
    pulling := fun hn => by cases hq hn; exact { h.pulling hn with } }
  by_cases heq : s.crcValue = s.crc.storedBlockCRC
  · rw [endBlock_of_eq heq]
    refine advances_of_pull (hcrc _ _ (fun hn => absurd rfl hn)) hp rfl ?_
    rw [State.walkLeft_of_A hps]
    simp only [State.walkLeft]
    omega
  · rw [endBlock_of_ne heq]
    exact advances_of_raise (hcrc _ s.ps fun _ => rfl) _

theorem fetchA_advances (h : s.Inv) (hp : s.phase = .pull) (hps : s.ps = .randA ∨ s.ps = .noRandA) :
    Advances s (fetchA s).outcome := by
  unfold fetchA
  split
  · next hi =>
    exact fetchWalk_advances h hp ⟨PullState.ne_of_or hps, PullState.ne_of_or hps⟩ (execLiteral_advances h hp hps hi _)
  · exact endBlock_advances h hp hps

/-- Back to `XA` from the run detection, with a run of at most three. -/
theorem runDetected_advances (h : s.Inv) (hp : s.phase = .pull) (hps : s.ps = .randB ∨ s.ps = .noRandB) {n : Nat}
    (hn : n ≤ 3) : Advances s (.next { s with pull := { s.pull with count := n }, ps := s.ps.toA }) := by
  have hP := h.pulling (PullState.ne_of_or hps)
  have hA := s.ps.toA_cases
  refine advances_of_pull (baseInv_of_pull h fun _ => ?_) hp rfl ?_
  · exact { hP with
      latch := fun hbit => by rcases hP.latch hbit with hq | hq <;> simp [hq, PullState.toA, PullState.isRand]
      produced := fun h1 h2 => (hA.elim h1 h2).elim
      short := fun _ _ => hn
      full := fun hC => (hC.elim (PullState.ne_of_or hA) (PullState.ne_of_or hA)).elim
      rest := fun hidle => by simp [hp] at hidle }
  · refine (State.walkLeft_le_of_A hA).trans_lt ?_
    rw [State.walkLeft_of_B hps]
    simp only [State.bytesLeft]
    omega

theorem fetchB_advances (h : s.Inv) (hp : s.phase = .pull) (hps : s.ps = .randB ∨ s.ps = .noRandB) :
    Advances s (fetchB s).outcome := by
  unfold fetchB
  split
  · exact runDetected_advances h hp hps (by omega)
  · split
    · next hshort => exact runDetected_advances h hp hps (by simp only [runThreshold] at hshort; omega)
    · split
      · exact advances_of_raise h.base _
      · exact fetchWalk_advances h hp ⟨PullState.ne_of_or hps, PullState.ne_of_or hps⟩
          (execRunCount_advances h hp hps (by omega) (by omega) _)

theorem fetchC_advances (h : s.Inv) (hp : s.phase = .pull) (hps : s.ps = .randC ∨ s.ps = .noRandC) :
    Advances s (fetchC s).outcome := by
  have hP := h.pulling (PullState.ne_of_or hps)
  have hch2 := hP.produced (PullState.ne_of_or hps) (PullState.ne_of_or hps)
  have hbit : s.pull.randBit = none := by
    by_contra hn
    rcases hP.latch hn with hq | hq <;> simp [hq] at hps
  obtain ⟨hcount, hj, hz⟩ := hP.full hps
  unfold fetchC
  split
  · next hmore =>
    cases hb : s.pull.ch2 with
    | none => exact absurd hb hch2
    | some b =>
      change Advances s (.next (State.output b { s with pull := { s.pull with j2 := s.pull.j2 + 1 } }))
      refine advances_of_output (baseInv_of_pull h fun _ => ?_) hp
        ⟨PullState.ne_of_or hps, PullState.ne_of_or hps, hbit⟩ rfl ?_
      · exact { hP with
          full := fun _ => ⟨hcount, hmore, hz⟩
          rest := fun hidle => by simp [hp] at hidle }
      · refine lt_of_eq_of_lt (State.walkLeft_of_C hps) ?_
        rw [State.walkLeft_of_C hps]
        simp only [State.bytesLeft]
        omega
  · have hA := s.ps.toA_cases
    refine advances_of_pull (baseInv_of_pull h fun _ => ?_) hp rfl ?_
    · exact { hP with
        latch := fun hn => absurd hbit hn
        produced := fun h1 h2 => (hA.elim h1 h2).elim
        short := fun _ _ => Nat.zero_le _
        full := fun hC => (hC.elim (PullState.ne_of_or hA) (PullState.ne_of_or hA)).elim
        rest := fun hidle => by simp [hp] at hidle }
    · refine (State.walkLeft_le_of_A hA).trans_lt ?_
      rw [State.walkLeft_of_C hps]
      simp only [State.bytesLeft]
      omega

theorem fetchPull_advances (h : s.Inv) (hp : s.phase = .pull) : Advances s (fetchPull s).outcome := by
  unfold fetchPull
  cases hps : s.ps with
  | startBlock => exact fetchField_advances h (by simp [State.ctx, hp, hps]) (by simp [hp]) (by simp [hp])
  | randA => exact fetchA_advances h hp (.inl hps)
  | noRandA => exact fetchA_advances h hp (.inr hps)
  | randB => exact fetchB_advances h hp (.inl hps)
  | noRandB => exact fetchB_advances h hp (.inr hps)
  | randC => exact fetchC_advances h hp (.inl hps)
  | noRandC => exact fetchC_advances h hp (.inr hps)

/-- Every step inside a command answers a next state, keeps the invariant and comes nearer the end. -/
theorem step_advances (h : s.Inv) (hp : s.phase ≠ .idle) : Advances s (step s) := by
  unfold step fetch
  cases hph : s.phase with
  | idle => exact absurd hph hp
  | pull => exact fetchPull_advances h hph
  | lenDelta => exact fetchLenDelta_advances h hph
  | symbol => exact fetchSymbol_advances h hph
  | _ => exact fetchField_advances h (by simp [State.ctx, hph]) (by simp [hph]) (by simp [hph])

/-! ### Commands at rest (40_host_commands.md rule R150) -/

/-- At rest a response keeps the invariant. -/
theorem respond_inv_at_rest (h : s.Inv) (hp : s.phase = .idle) (r : Response) : (s.respond r).Inv :=
  h.base.respond (fun hps => (h.pulling hps).rest hp) r

theorem enter_keeps (h : s.Inv) (hp : s.phase = .idle) {op : HostOp} {body : State → State}
    (hb : op = .close ∨ (s.fault = none ∧ s.closed = false ∧ unsupported op = false ∧
      (op = .start → s.started = false) ∧ (op = .read ∨ op = .readBulk → s.started = true)) → (body s).Inv) :
    Keeps (s.enter op body) := by
  rcases enter_cases op s body with ⟨f, -, he⟩ | ⟨-, f, he⟩ | ⟨he, hrun⟩ <;> rw [he]
  · exact ⟨_, rfl, respond_inv_at_rest h hp _⟩
  · exact ⟨_, rfl, h.base.raise f⟩
  · exact ⟨_, rfl, hb hrun⟩

/-- A READ or READ_BULK whose entry checks pass begins to pull. -/
theorem pull_begins (h : s.Inv) (hfault : s.fault = none) (hclosed : s.closed = false) (hend : s.streamEnd = false)
    (hstart : s.started = true) {b : Option Bulk} (hb : ∀ k, b = some k → k.got.length < k.wanted) :
    ({ s with phase := .pull, bulk := b } : State).Inv :=
  State.BaseInv.inv_of_stage_zero {
    cursor := h.cursor
    life := { h.life with
      restBulk := nofun
      busy := fun _ => ⟨hfault, hclosed, hend⟩
      header := nofun
      reading := fun _ _ => hstart
      wanting := hb }
    memories := h.memories.congr rfl rfl
    listLength := h.tables.listLength
    ranks := h.tables.ranks
    pulling := fun hps => { h.pulling hps with place := .inr rfl, rest := nofun } } rfl nofun

theorem execStart_keeps (h : s.Inv) (hp : s.phase = .idle) (a : Word) : Keeps (execStart a s) := by
  refine enter_keeps h hp fun hrun => ?_
  obtain ⟨hfault, hclosed, -, hstart, -⟩ := hrun.resolve_left nofun
  have hstarted := hstart rfl
  have hend : s.streamEnd = false := by
    cases he : s.streamEnd with
    | false => rfl
    | true => rw [h.life.ended he] at hstarted; cases hstarted
  exact State.BaseInv.inv_of_stage_zero {
    cursor := h.cursor
    life := { h.life with
      restBulk := nofun
      busy := fun _ => ⟨hfault, hclosed, hend⟩
      header := fun _ => ⟨hstarted, h.life.restBulk hp⟩
      reading := fun _ hn => absurd rfl hn }
    memories := h.memories.congr rfl rfl
    listLength := h.tables.listLength
    ranks := h.tables.ranks
    pulling := fun hps => by rw [(h.pulling hps).started] at hstarted; cases hstarted } rfl nofun

theorem execRead_keeps (h : s.Inv) (hp : s.phase = .idle) (a : Word) : Keeps (execRead a s) := by
  refine enter_keeps h hp fun hrun => ?_
  obtain ⟨hfault, hclosed, -, -, hstart⟩ := hrun.resolve_left nofun
  split
  · exact respond_inv_at_rest h hp _
  · next hend =>
    have hb : ∀ k, s.bulk = some k → k.got.length < k.wanted := h.life.wanting
    exact pull_begins h hfault hclosed (by simpa using hend) (hstart (.inl rfl)) hb

theorem execReadBulk_keeps (h : s.Inv) (hp : s.phase = .idle) (n : Word) : Keeps (execReadBulk n s) := by
  refine enter_keeps h hp fun hrun => ?_
  obtain ⟨hfault, hclosed, -, -, hstart⟩ := hrun.resolve_left nofun
  split
  · exact respond_inv_at_rest h hp _
  · next hmore =>
    obtain ⟨hn, hend⟩ := not_or.1 hmore
    refine pull_begins h hfault hclosed (by simpa using hend) (hstart (.inr rfl)) fun k hk => ?_
    cases hk
    exact Nat.pos_of_ne_zero hn

theorem execClose_keeps (h : s.Inv) (hp : s.phase = .idle) (a : Word) : Keeps (execClose a s) := by
  refine enter_keeps h hp fun _ => ?_
  refine respond_inv_at_rest (s := { s with srcClosed := true, closed := true }) ?_ hp _
  exact {
    cursor := h.cursor
    life := { h.life with busy := fun hn => absurd hp hn, closed := fun _ => rfl }
    memories := h.memories.congr rfl rfl
    tables := { h.tables with }
    filling := fun hf => { h.filling hf with }
    pulling := fun hps => { h.pulling hps with } }

theorem exec_command_keeps (h : s.Inv) (hp : s.phase = .idle) (w : CmdWord) : Keeps (exec (decodeCommand w) s) := by
  have hraise : (s.raise .unsupportedOperation).Inv := h.base.raise _
  unfold decodeCommand
  split
  · exact execStart_keeps h hp (cmdArg w)
  · exact execRead_keeps h hp (cmdArg w)
  · exact execReadBulk_keeps h hp (cmdArg w)
  · exact enter_keeps (op := .write) h hp fun _ => hraise
  · exact enter_keeps (op := .seek) h hp fun _ => hraise
  · exact enter_keeps (op := .setLength) h hp fun _ => hraise
  · exact enter_keeps (op := .getLength) h hp fun _ => hraise
  · exact execClose_keeps h hp (cmdArg w)

theorem inv_of_cmds (h : s.Inv) (ws : List CmdWord) : ({ s with cmds := ws } : State).Inv where
  cursor := h.cursor
  life := { h.life with }
  memories := h.memories.congr rfl rfl
  tables := { h.tables with }
  filling := fun hp => { h.filling hp with }
  pulling := fun hps => { h.pulling hps with }

/-- Every step of a state with the invariant answers a next state and keeps the invariant. -/
theorem step_keeps (h : s.Inv) : Keeps (step s) := by
  by_cases hp : s.phase = .idle
  · cases hc : s.cmds with
    | nil => exact ⟨s, step_of_rest hp hc, h⟩
    | cons w ws =>
      rw [step_of_command hp hc]
      exact exec_command_keeps (inv_of_cmds h ws) hp w
  · obtain ⟨t, ht, hinv, -⟩ := step_advances h hp
    exact ⟨t, ht, hinv⟩

/-! ### Completion -/

/-- A command in progress ends after finitely many steps, with one response, and leaves the commands behind it. The
bits left, then the steps left in the block, go down with every step. -/
theorem run_completes (s : State) (h : s.Inv) (hp : s.phase ≠ .idle) :
    ∃ k t r, run (k + 1) s = .next t ∧ t.phase = .idle ∧ t.cmds = s.cmds ∧ t.responses = s.responses ++ [r] := by
  obtain ⟨t, hstep, hinv, hdesc⟩ := step_advances h hp
  obtain ⟨c, hx⟩ := step_exchange hp hstep
  rcases hx.answer with ⟨hresp, hph⟩ | ⟨r, hresp, hph, -⟩
  · have hless : Prod.Lex (· < ·) (· < ·) (t.cur.bits.length, t.walkLeft) (s.cur.bits.length, s.walkLeft) := by
      rcases hdesc.resolve_left hph with hlt | ⟨hcur, hlt⟩
      · exact .left _ _ hlt
      · rw [hcur]
        exact .right _ hlt
    obtain ⟨k, u, r, hrun, hidle, hcmds, hres⟩ := run_completes t hinv hph
    exact ⟨k + 1, u, r, (run_succ hstep).trans hrun, hidle, hcmds.trans hx.cmds, hresp ▸ hres⟩
  · exact ⟨0, t, r, run_succ hstep, hph, hx.cmds, hresp⟩
termination_by (s.cur.bits.length, s.walkLeft)
decreasing_by exact hless

end Sys2Proof.Machine

section Scope

open Sys2Proof Sys2Proof.Machine

/-- Settles O4: progress is shown together with the invariant. -/
theorem stepAlwaysAnswersNext : Obligations.StepAlwaysAnswersNext := fun _ h =>
  (step_keeps h).imp fun _ ht => ht.1

/-- Settles O6: the first step runs the command; it is answered at once, or its steps come to an end. -/
theorem everyCommandCompletes : Obligations.EveryCommandCompletes := by
  intro s w ws h hp hc
  obtain ⟨t, hstep, hinv⟩ := step_keeps h
  have hx : Exchange { s with cmds := ws } t :=
    exec_exchange (.inr (encodeCommand_decodeCommand_isSome w)) (step_of_command hp hc ▸ hstep)
  rcases hx.answer with ⟨hresp, hph⟩ | ⟨r, hresp, hph, -⟩
  · obtain ⟨k, u, r, hrun, hidle, hcmds, hres⟩ := run_completes t hinv hph
    exact ⟨k + 1, u, r, (run_succ hstep).trans hrun, hidle, hcmds.trans hx.cmds, hresp ▸ hres⟩
  · exact ⟨0, t, r, run_succ hstep, hph, hx.cmds, hresp⟩

end Scope
end

section
/-! PROOFS. The state of 10_state.md: what reset gives, what every step keeps of it (the invariant, the latches, the
direction of the bit cursor), and the codes of the faults. -/

namespace Sys2Proof

/-! ### The bit cursor only moves forward (rules R82, R174) -/

namespace BitCursor

variable {c c' c'' : BitCursor}

/-- `c'` is `c` after some bits. -/
def Forward (c c' : BitCursor) : Prop := ∃ n, c.Reads n c'

theorem Forward.refl (c : BitCursor) : c.Forward c := ⟨0, .refl c⟩

theorem Forward.trans (h : c.Forward c') (h' : c'.Forward c'') : c.Forward c'' := by
  obtain ⟨m, hm⟩ := h
  obtain ⟨n, hn⟩ := h'
  exact ⟨m + n, hm.trans hn⟩

/-- A cursor at the first bit of a byte sequence has no live bit. -/
theorem wf_ofBytes (bs : List Byte) : (ofBytes bs).Wf where
  live := Nat.zero_le _
  pos := Nat.zero_le _
  tail k hk := absurd hk (Nat.not_lt_zero k)

end BitCursor

/-- The cursor a read of a field leaves, whatever its width, is ahead. -/
def BitRead.Forward (c : BitCursor) : BitRead → Prop
  | .ok _ c' | .eod c' => c.Forward c'
  | .badWidth _ => True

/-- The cursor the decoding of a code leaves is ahead. -/
def CodeRead.Forward (c : BitCursor) : CodeRead → Prop
  | .ok _ _ _ c' | .reject _ c' => c.Forward c'
  | .stop _ => True

theorem CodeRead.Forward.after {c c' : BitCursor} {r : CodeRead} (h : c.Forward c') (hr : r.Forward c') :
    r.Forward c := by
  cases r with
  | ok _ _ _ _ => exact h.trans hr
  | reject _ _ => exact h.trans hr
  | stop _ => trivial

theorem readBits_forward (n : Nat) (c : BitCursor) : (c.readBits n).Forward c := by
  by_cases hn : n = 0 ∨ 32 < n
  · rw [BitCursor.readBits, if_pos hn]
    trivial
  · rcases c.readBits_cases (n := n) (by omega) (by omega) with
      ⟨_, _, _, _, _, hread, _, hreads⟩ | ⟨_, _, hread, _, hreads⟩
    · rw [hread]; exact ⟨_, hreads⟩
    · rw [hread]; exact ⟨_, hreads⟩

theorem resolveCode_forward (t : HuffTable) (n zn zvec : Nat) (c : BitCursor) :
    (resolveCode t n zn zvec c).Forward c := by
  unfold resolveCode
  simp only
  split
  · exact .refl c
  · split
    · trivial
    · exact .refl c

theorem extendCode_forward (t : HuffTable) (n k zn zvec : Nat) (c : BitCursor) :
    (extendCode t n k zn zvec c).Forward c := by
  induction k generalizing zn zvec c with
  | zero =>
    unfold extendCode
    split
    · exact .refl c
    · exact resolveCode_forward t n zn zvec c
  | succ k ih =>
    have hbit := readBits_forward 1 c
    unfold extendCode
    split
    · cases hread : c.readBits 1 with
      | ok b c' => rw [hread] at hbit; exact .after hbit (ih _ _ c')
      | eod c' => rw [hread] at hbit; exact hbit
      | badWidth _ => trivial
    · exact resolveCode_forward t n zn zvec c

/-- Of any table, also of one that no run builds. -/
theorem decodeCode_forward (t : HuffTable) (n : Nat) (c : BitCursor) : (decodeCode t n c).Forward c := by
  have hbits := readBits_forward t.minLen c
  unfold decodeCode
  split
  · trivial
  · cases hread : c.readBits t.minLen with
    | ok v c' => rw [hread] at hbits; exact .after hbits (extendCode_forward t n _ _ v c')
    | eod c' => rw [hread] at hbits; exact hbits
    | badWidth _ => trivial

namespace Machine

variable {s t u : State}

/-! ### The flags of the port (rules R22, R24, R45) -/

/-- The lifecycle flags and the class. -/
def State.flags (s : State) : Bool × Bool × Bool × Bool × Nat :=
  (s.streamEnd, s.started, s.closed, s.srcClosed, s.blockClass)

theorem flags_eq_iff : t.flags = s.flags ↔ t.streamEnd = s.streamEnd ∧ t.started = s.started ∧
    t.closed = s.closed ∧ t.srcClosed = s.srcClosed ∧ t.blockClass = s.blockClass := by
  simp [State.flags]

/-- No flag is cleared, and the class of a started stream stays. -/
structure FlagsStay (s t : State) : Prop where
  streamEnd : s.streamEnd = true → t.streamEnd = true
  started : s.started = true → t.started = true
  closed : s.closed = true → t.closed = true
  srcClosed : s.srcClosed = true → t.srcClosed = true
  cls : s.started = true → t.blockClass = s.blockClass

theorem FlagsStay.of_eq (h : t.flags = s.flags) : FlagsStay s t := by
  obtain ⟨hend, hstarted, hclosed, hsrc, hclass⟩ := flags_eq_iff.1 h
  exact ⟨hend ▸ id, hstarted ▸ id, hclosed ▸ id, hsrc ▸ id, fun _ => hclass⟩

theorem FlagsStay.trans (h : FlagsStay s t) (h' : FlagsStay t u) : FlagsStay s u where
  streamEnd := h'.streamEnd ∘ h.streamEnd
  started := h'.started ∘ h.started
  closed := h'.closed ∘ h.closed
  srcClosed := h'.srcClosed ∘ h.srcClosed
  cls hs := (h'.cls (h.started hs)).trans (h.cls hs)

@[simp] theorem flags_respondEod (s : State) : s.respondEod.flags = s.flags := by simp [State.flags]

@[simp] theorem flags_output (b : Byte) (s : State) : (s.output b).flags = s.flags := by simp [State.flags]

/-! ### What each meaning does to the flags -/

/-- A part of the symbol layer leaves the flags as they are in `s`, whether it goes on or has ended the command. -/
def Act.LeavesFlags (s : State) (a : Act) : Prop :=
  a.Ends True (fun u => u.flags = s.flags) (fun u => u.flags = s.flags)

theorem emitRun_leavesFlags (h : u.flags = s.flags) (n : Nat) (b : Byte) : (emitRun n b u).LeavesFlags s := by
  unfold emitRun
  split
  · exact h
  · split
    · trivial
    · exact h

theorem flushRun_leavesFlags (s : State) : (flushRun s).LeavesFlags s := by
  unfold flushRun
  split
  · rfl
  · split
    · trivial
    · exact (emitRun_leavesFlags rfl _ _).andThen fun _ hv => hv

theorem moveSymbol_leavesFlags (h : u.flags = s.flags) (k : Nat) : (moveSymbol k u).LeavesFlags s := by
  unfold moveSymbol
  split
  · trivial
  · refine emitRun_leavesFlags ?_ _ _
    exact h

theorem checkOrigPtr_leavesFlags (h : u.flags = s.flags) : (checkOrigPtr u).LeavesFlags s := by
  unfold checkOrigPtr
  split
  · exact h
  · exact h

theorem buildTT_leavesFlags (h : u.flags = s.flags) : (buildTT u).LeavesFlags s := by
  unfold buildTT
  split
  · trivial
  · split
    · trivial
    · exact h

theorem execMtfv_flags {k : Nat} (h : execMtfv k s = .next t) : t.flags = s.flags :=
  have ha : ((flushRun s).andThen (moveSymbol k)).LeavesFlags s :=
    (flushRun_leavesFlags s).andThen fun _ hu => moveSymbol_leavesFlags hu k
  (ha.of_result h).elim id id

theorem execEob_flags (h : execEob s = .next t) : t.flags = s.flags := by
  have ha := (((flushRun_leavesFlags s).andThen fun u hu =>
    checkOrigPtr_leavesFlags (u := u.crcReset) hu).andThen fun u hu => buildTT_leavesFlags hu).andThen
    (P' := fun u => u.flags = s.flags) (k := fun u => .go (initPull u)) fun u hu => hu
  exact (ha.of_result h).elim id id

theorem rowsFrom_flags (g : Nat) (s : State) : (rowsFrom g s).flags = s.flags := by
  unfold rowsFrom
  split
  · rfl
  · unfold makeMaps
    simp only
    split <;> rfl

theorem execSelector_flags {j : Nat} (h : execSelector j s = .next t) : t.flags = s.flags := by
  unfold execSelector at h
  simp only at h
  split at h
  · cases h; rfl
  · split at h
    · cases h
    · split at h
      · cases h
      · cases h
        split <;> rfl

theorem execLenStop_flags (h : execLenStop s = .next t) : t.flags = s.flags := by
  unfold execLenStop at h
  split at h
  · cases h
  · cases h
    simp only
    split
    · rfl
    · split <;> rfl

/-- `streamEnd` is set with the response, or the mismatch raised (rule R183). -/
theorem execCombinedCrc_flagsStay {c : Word} (h : execCombinedCrc c s = .next t) : FlagsStay s t := by
  cases h
  simp only
  split
  · have hset : FlagsStay s { s with streamEnd := true } := ⟨fun _ => rfl, id, id, id, fun _ => rfl⟩
    exact hset.trans (.of_eq (flags_respondEod _))
  · exact .of_eq rfl

/-- A command answers a latched fault, raises one, or does what its body does (rule R150). -/
theorem enter_flagsStay {op : HostOp} {body : State → State} (hb : FlagsStay s (body s))
    (h : s.enter op body = .next t) : FlagsStay s t := by
  rcases enter_cases op s body with ⟨f, -, he⟩ | ⟨-, f, he⟩ | ⟨he, -⟩ <;> rw [he] at h <;> cases h
  · exact .of_eq rfl
  · exact .of_eq rfl
  · exact hb

theorem execStart_flagsStay {a : Word} (h : execStart a s = .next t) : FlagsStay s t := enter_flagsStay (.of_eq rfl) h

theorem execRead_flagsStay {a : Word} (h : execRead a s = .next t) : FlagsStay s t := by
  refine enter_flagsStay (.of_eq ?_) h
  split <;> rfl

theorem execReadBulk_flagsStay {n : Word} (h : execReadBulk n s = .next t) : FlagsStay s t := by
  refine enter_flagsStay (.of_eq ?_) h
  split <;> rfl

/-- CLOSE sets two of the flags (rule R158). -/
theorem execClose_flagsStay {a : Word} (h : execClose a s = .next t) : FlagsStay s t := by
  refine enter_flagsStay ?_ h
  exact ⟨id, id, fun _ => rfl, fun _ => rfl, fun _ => rfl⟩

/-- The meaning of every instruction; a stream header sets the class, so only of a stream not started. -/
theorem exec_flagsStay {i : Instr} (hi : ∀ b, i = .streamHdr b → s.started = false) (h : exec i s = .next t) :
    FlagsStay s t := by
  cases i with
  | start a => exact execStart_flagsStay (a := a) h
  | read a => exact execRead_flagsStay (a := a) h
  | readBulk n => exact execReadBulk_flagsStay h
  | write a => exact enter_flagsStay (op := .write) (.of_eq rfl) h
  | seek a => exact enter_flagsStay (op := .seek) (.of_eq rfl) h
  | setLength a => exact enter_flagsStay (op := .setLength) (.of_eq rfl) h
  | getLength a => exact enter_flagsStay (op := .getLength) (.of_eq rfl) h
  | close a => exact execClose_flagsStay (a := a) h
  | streamHdr b =>
    cases h
    have hstarted := hi b rfl
    exact ⟨id, fun _ => rfl, id, id, fun hs => by simp [hstarted] at hs⟩
  | blockMagic | endMagic | blockCrc _ | randomised _ | origPtr _ | startLen _ | lenInc | lenDec | runA | runB =>
    cases h; exact .of_eq rfl
  | inUse16 _ | inUseRow _ => cases h; exact .of_eq (rowsFrom_flags _ _)
  | nGroups _ | nSelectors _ => cases h; exact .of_eq (by split <;> rfl)
  | selector j => exact .of_eq (execSelector_flags h)
  | lenStop => exact .of_eq (execLenStop_flags h)
  | combinedCrc c => exact execCombinedCrc_flagsStay h
  | mtfv k => exact .of_eq (execMtfv_flags h)
  | eob => exact .of_eq (execEob_flags h)
  | literal v =>
    simp only [exec, execLiteral] at h
    split at h
    · cases h
    · cases h; exact .of_eq (flags_output _ _)
  | runCount _ | randMask _ =>
    simp only [exec, execRunCount, execRandMask] at h
    split at h
    · cases h
    · cases h; exact .of_eq rfl

/-! ### What a fetch does to the cursor and the flags -/

/-- Inside a command a fetch moves the cursor forward and leaves the flags; a stream header is found only where it is
due. -/
def Fetched.Follows (s : State) : Fetched → Prop
  | .instr i u => s.cur.Forward u.cur ∧ u.flags = s.flags ∧ ∀ b, i = .streamHdr b → s.phase = .streamHdr
  | .done t => s.cur.Forward t.cur ∧ t.flags = s.flags
  | .stop _ | .noByte => True

theorem Fetched.follows_done (hcur : t.cur = s.cur) (hflags : t.flags = s.flags) : (Fetched.done t).Follows s :=
  ⟨hcur ▸ .refl _, hflags⟩

theorem fetchField_follows {ctx : Ctx} (hsym : ∀ t n, ctx ≠ .symbol t n)
    (hctx : ctx = .streamHdr → s.phase = .streamHdr) : (fetchField ctx s).Follows s := by
  unfold fetchField
  rcases decode_answers ctx s.cur hsym with ⟨i, c, m, hi, hd, hr, -⟩ | ⟨f, c, m, hd, hr⟩
  · rw [hd]
    refine ⟨⟨m, hr⟩, rfl, fun b hb => hctx ?_⟩
    subst hb
    cases ctx <;> simp [Ctx.Allows] at hi ⊢
  · rw [hd]
    exact ⟨⟨m, hr⟩, rfl⟩

theorem fetchLenDelta_follows (s : State) : (fetchLenDelta s).Follows s := by
  unfold fetchLenDelta
  split
  · exact Fetched.follows_done rfl rfl
  · exact fetchField_follows nofun nofun

theorem symbolInstr_ne_streamHdr (nInUse sym : Nat) (b : Byte) : symbolInstr nInUse sym ≠ .streamHdr b := by
  unfold symbolInstr
  split
  · nofun
  · split
    · nofun
    · split <;> nofun

theorem fetchSymbol_follows (s : State) : (fetchSymbol s).Follows s := by
  unfold fetchSymbol
  simp only
  split
  · exact Fetched.follows_done rfl rfl
  · split
    · trivial
    · split
      · trivial
      · have hcode := decodeCode_forward (s.tab.huff.read (s.tab.selector.read (s.dec.symIdx / gSize))) s.alphaSize
          s.cur
        split
        · next hd =>
          rw [hd] at hcode
          exact ⟨hcode, rfl, fun b hb => absurd hb (symbolInstr_ne_streamHdr _ _ b)⟩
        · next hd => rw [hd] at hcode; exact ⟨hcode, rfl⟩
        · trivial

theorem fetchWalk_follows {mk : Byte → Instr} (hmk : ∀ v b, mk v ≠ .streamHdr b) (s : State) :
    (fetchWalk mk s).Follows s := by
  unfold fetchWalk
  split
  · split
    · trivial
    · exact ⟨.refl _, rfl, nofun⟩
  · split
    · trivial
    · exact ⟨.refl _, rfl, fun b hb => absurd hb (hmk _ b)⟩

theorem fetchA_follows (s : State) : (fetchA s).Follows s := by
  unfold fetchA
  split
  · exact fetchWalk_follows (mk := .literal) (fun _ _ => nofun) s
  · unfold endBlock
    simp only
    split
    · exact Fetched.follows_done rfl rfl
    · exact Fetched.follows_done rfl rfl

theorem fetchB_follows (s : State) : (fetchB s).Follows s := by
  unfold fetchB
  split
  · exact Fetched.follows_done rfl rfl
  · split
    · exact Fetched.follows_done rfl rfl
    · split
      · exact Fetched.follows_done rfl rfl
      · exact fetchWalk_follows (mk := .runCount) (fun _ _ => nofun) s

theorem fetchC_follows (s : State) : (fetchC s).Follows s := by
  unfold fetchC
  split
  · split
    · exact Fetched.follows_done (State.output_cur _ _ _) (flags_output _ _)
    · trivial
  · exact Fetched.follows_done rfl rfl

theorem fetchPull_follows (s : State) : (fetchPull s).Follows s := by
  unfold fetchPull
  cases s.ps with
  | startBlock => exact fetchField_follows nofun nofun
  | randA | noRandA => exact fetchA_follows s
  | randB | noRandB => exact fetchB_follows s
  | randC | noRandC => exact fetchC_follows s

theorem fetch_follows (hp : s.phase ≠ .idle) : (fetch s).Follows s := by
  unfold fetch
  cases hph : s.phase with
  | idle => exact absurd hph hp
  | pull => exact fetchPull_follows s
  | lenDelta => exact fetchLenDelta_follows s
  | symbol => exact fetchSymbol_follows s
  | streamHdr => exact fetchField_follows nofun fun _ => hph
  | _ => exact fetchField_follows nofun nofun

/-! ### What a step does to the cursor and the flags -/

/-- A next state comes of an instruction carried out, or of a part that takes none. -/
theorem step_next_cases (h : step s = .next t) :
    (∃ i u, fetch s = .instr i u ∧ exec i u = .next t) ∨ fetch s = .done t := by
  unfold step at h
  cases hd : fetch s with
  | instr i u => rw [hd] at h; exact .inl ⟨i, u, rfl, h⟩
  | done u => rw [hd] at h; cases h; exact .inr rfl
  | stop u => rw [hd] at h; cases u <;> cases h
  | noByte => rw [hd] at h; cases h

/-- At rest no bit is read: only an element of a stream moves the cursor. -/
theorem step_cursor_forward (h : step s = .next t) : s.cur.Forward t.cur := by
  by_cases hp : s.phase = .idle
  · cases hc : s.cmds with
    | nil => rw [step_of_rest hp hc] at h; cases h; exact .refl _
    | cons w ws =>
      rw [step_of_command hp hc] at h
      rw [(exec_exchange (.inr (encodeCommand_decodeCommand_isSome w)) h).cur]
      exact .refl _
  · have hfollows := fetch_follows hp
    have hquiet := fetch_exchanges hp
    rcases step_next_cases h with ⟨i, u, hd, hx⟩ | hd
    · rw [hd] at hfollows hquiet
      obtain ⟨_, -, hphase⟩ := hquiet
      have hu : u.phase ≠ .idle := hphase ▸ hp
      rw [(exec_exchange (.inl hu) hx).cur]
      exact hfollows.1
    · rw [hd] at hfollows
      exact hfollows.1

theorem decodeCommand_ne_streamHdr (w : CmdWord) (b : Byte) : decodeCommand w ≠ .streamHdr b := fun h => by
  have hcmd := encodeCommand_decodeCommand_isSome w
  rw [h] at hcmd
  cases hcmd

/-- The header is due only before the stream is started. -/
theorem step_flagsStay (hinv : s.Inv) (h : step s = .next t) : FlagsStay s t := by
  by_cases hp : s.phase = .idle
  · cases hc : s.cmds with
    | nil => rw [step_of_rest hp hc] at h; cases h; exact .of_eq rfl
    | cons w ws =>
      rw [step_of_command hp hc] at h
      refine (FlagsStay.of_eq ?_).trans (exec_flagsStay (fun b hb => absurd hb (decodeCommand_ne_streamHdr w b)) h)
      rfl
  · have hfollows := fetch_follows hp
    rcases step_next_cases h with ⟨i, u, hd, hx⟩ | hd
    · rw [hd] at hfollows
      obtain ⟨-, hflags, hhdr⟩ := hfollows
      obtain ⟨-, hstarted, -⟩ := flags_eq_iff.1 hflags
      exact (FlagsStay.of_eq hflags).trans
        (exec_flagsStay (fun b hb => hstarted.trans (hinv.life.header (hhdr b hb)).1) hx)
    · rw [hd] at hfollows
      exact .of_eq hfollows.2

/-! ### A latched fault (rules R25, R150, R311, R314) -/

/-- The faults in the order of the table of rule R311. -/
def faultTable : List FaultCode :=
  [.invalidStreamHeader, .corruptBlockHeader, .invalidHuffmanCode, .symbolOutOfRange, .blockOverrun,
    .blockCrcMismatch, .combinedCrcMismatch, .unexpectedEndOfInput, .unsupportedOperation, .emptyAlphabet,
    .groupCountOutOfRange, .selectorCountOutOfRange, .selectorIndexOutOfRange, .codeLengthOutOfRange,
    .selectorOverrun, .origPtrOutOfRange, .runCountMissing, .hostProtocolViolation]

theorem faultTable_codes : faultTable.map faultCode = List.range' 1 18 := rfl

/-- The code of a fault is its place in the table, counted from 1. -/
theorem faultTable_faultCode (f : FaultCode) : faultTable[faultCode f - 1]? = some f := by cases f <;> rfl

theorem faultCode_injective : Function.Injective faultCode := fun f g h => by
  have hf := faultTable_faultCode f
  rw [h, faultTable_faultCode g] at hf
  exact (Option.some.inj hf).symm

theorem faultCode_range (f : FaultCode) : 1 ≤ faultCode f ∧ faultCode f ≤ 18 := by
  cases f <;> decide

theorem faultRegister_toNat (f : FaultCode) : (faultRegister (some f)).toNat = faultCode f := by
  obtain ⟨-, hle⟩ := faultCode_range f
  simp only [faultRegister, BitVec.toNat_ofNat]
  omega

theorem faultRegister_some_ne_none (f : FaultCode) : faultRegister (some f) ≠ faultRegister none := by
  cases f <;> decide

theorem faultRegister_injective : Function.Injective faultRegister := fun f g h => by
  match f, g with
  | none, none => rfl
  | some f, none => exact absurd h (faultRegister_some_ne_none f)
  | none, some g => exact absurd h.symm (faultRegister_some_ne_none g)
  | some f, some g =>
    have hcode := congrArg BitVec.toNat h
    rw [faultRegister_toNat, faultRegister_toNat] at hcode
    rw [faultCode_injective hcode]

/-- Every command but CLOSE answers a latched fault. -/
theorem exec_of_fault {f : FaultCode} {i : Instr} {w : CmdWord} (hf : s.fault = some f)
    (hi : encodeCommand i = some w) (hclose : ∀ a, i ≠ .close a) : exec i s = .next (s.respond (.err f)) := by
  cases i with
  | start _ | read _ | readBulk _ | write _ | seek _ | setLength _ | getLength _ =>
    simp [exec, execStart, execRead, execReadBulk, execWrite, execSeek, execSetLength, execGetLength,
      enter_of_fault hf]
  | close a => exact absurd rfl (hclose a)
  | _ => cases hi

/-- CLOSE does not clear the fault (rule R158). -/
theorem exec_command_keeps_fault {f : FaultCode} {i : Instr} {w : CmdWord} (hf : s.fault = some f)
    (hi : encodeCommand i = some w) (h : exec i s = .next t) : t.fault = some f := by
  by_cases hclose : ∃ a, i = .close a
  · obtain ⟨a, rfl⟩ := hclose
    cases h
    exact hf
  · rw [exec_of_fault hf hi (not_exists.1 hclose)] at h
    cases h
    exact hf

/-- With a fault latched no command is in progress. -/
theorem step_keeps_fault (hinv : s.Inv) (h : step s = .next t) {f : FaultCode} (hf : s.fault = some f) :
    t.fault = some f := by
  by_cases hp : s.phase = .idle
  · cases hc : s.cmds with
    | nil => rw [step_of_rest hp hc] at h; cases h; exact hf
    | cons w ws =>
      rw [step_of_command hp hc] at h
      obtain ⟨w', hw⟩ := Option.isSome_iff_exists.1 (encodeCommand_decodeCommand_isSome w)
      exact exec_command_keeps_fault (s := { s with cmds := ws }) hf hw h
  · rw [(hinv.life.busy hp).1] at hf
    cases hf

/-! ### Reset (rules R46, R350) -/

/-- At rest, with nothing begun and every memory blank. -/
theorem resetWith_inv (src : List Byte) (cmds : List CmdWord) : (State.resetWith src cmds).Inv :=
  State.BaseInv.inv_of_stage_zero {
    cursor := BitCursor.wf_ofBytes src
    life := {
      restBulk := fun _ => rfl
      busy := fun hn => absurd rfl hn
      header := nofun
      reading := fun hn => absurd rfl hn
      wanting := nofun
      cls := nofun
      ended := nofun
      closed := nofun }
    memories := {
      inUse := Mem.wf_nil
      seqToUnseq := Mem.wf_nil
      unseqToSeq := Mem.wf_nil
      selector := Mem.wf_nil
      cnt := Mem.wf_nil
      huff := Mem.wf_nil
      tables := nofun
      unzftab := Mem.wf_nil
      cftab := Mem.wf_nil
      ll8 := Mem.wf_nil
      tt := Mem.wf_nil }
    listLength := List.length_replicate
    ranks := List.length_replicate
    pulling := fun hn => absurd rfl hn } rfl nofun

end Machine
end Sys2Proof

section StateStatements

open Sys2Proof Sys2Proof.Machine

/-- Settles O3: a step answers a next state with the invariant, and there is no other next state. -/
theorem stepKeepsInvariant : Obligations.StepKeepsInvariant := by
  intro s t hinv h
  obtain ⟨u, hu, hkept⟩ := step_keeps hinv
  obtain rfl : t = u := Host.Outcome.next.inj (h.symm.trans hu)
  exact hkept

/-- Settles O8: no step clears a flag, and a latched fault leaves only commands to answer. -/
theorem latchesAreNeverCleared : Obligations.LatchesAreNeverCleared := by
  intro s t hinv h
  obtain ⟨hend, hstarted, hclosed, hsrc, hclass⟩ := step_flagsStay hinv h
  exact ⟨fun _ hf => step_keeps_fault hinv h hf, hend, hstarted, hclosed, hsrc, hclass⟩

/-- Settles O9: what a step reads of the stream, it reads forward. -/
theorem cursorOnlyMovesForward : Obligations.CursorOnlyMovesForward := by
  intro s t h
  obtain ⟨n, hreads⟩ := step_cursor_forward h
  refine ⟨hreads.src, hreads.le, fun hw => ?_⟩
  obtain ⟨hw', hpos⟩ := hreads.wf hw
  exact ⟨hw', by omega⟩

/-- Settles O24: the codes by the table of rule R311, the answer by the entry check of rule R150. -/
theorem latchedFaultAnswersEveryCommand : Obligations.LatchedFaultAnswersEveryCommand :=
  ⟨faultTable_codes, rfl, fun f => ⟨faultRegister_toNat f, faultCode_range f⟩,
    fun _ _ h => faultRegister_injective h, fun _ _ _ _ hf hi hclose => exec_of_fault hf hi hclose⟩

/-- Settles O1: reset attaches the source and the commands, and takes COMBINED_INIT from the configuration. -/
theorem resetStateOfTheSpec : Obligations.ResetStateOfTheSpec := by
  rintro cfg src cmds _ rfl
  exact ⟨rfl, rfl, rfl, rfl, rfl, rfl, rfl, rfl, rfl, rfl, rfl, rfl, rfl, rfl, rfl, rfl⟩

/-- Settles O2: the bare reset is the one with an empty source and no command. -/
theorem resetMeetsInvariant : Obligations.ResetMeetsInvariant :=
  ⟨resetWith_inv [] [], resetWith_inv⟩

end StateStatements
end

section
/-! PROOFS. The memories of 20_memory.md (rule R70): every step keeps them in the canonical form the model chose
(notes/assumptions/2.md), whatever else holds of the state. A fetch writes none of them; of the meanings six do. -/

namespace Sys2Proof.Machine

variable {s t u : State}

/-! ### What the table section writes (rules R200 to R206) -/

theorem makeMaps_memories (h : u.MemoriesInv) : (makeMaps u).MemoriesInv := by
  have hseq := Mem.wf_writeList h.seqToUnseq 0 (usedBytes u.tab.inUse)
  have hunseq := writeRanks_wf h.unseqToSeq 0 (usedBytes u.tab.inUse)
  unfold makeMaps
  simp only
  split
  · exact { h with seqToUnseq := hseq, unseqToSeq := hunseq }
  · exact { h with seqToUnseq := hseq, unseqToSeq := hunseq }

theorem rowsFrom_memories (h : u.MemoriesInv) (g : Nat) : (rowsFrom g u).MemoriesInv := by
  unfold rowsFrom
  split
  · exact { h with }
  · exact makeMaps_memories h

/-- Group map and bitmap written while the rows are read. -/
theorem bitmap_memories (h : s.MemoriesInv) (v : BitVec 16) {m : Mem Bool} (hm : m.wf) :
    ({ s with tab := { s.tab with used16 := v, inUse := m } } : State).MemoriesInv :=
  { h with inUse := hm }

theorem execInUse16_memories (h : s.MemoriesInv) {v : BitVec 16} (hx : execInUse16 v s = .next t) :
    t.MemoriesInv := by
  cases hx
  exact rowsFrom_memories (bitmap_memories h v Mem.wf_nil) 0

theorem execInUseRow_memories (h : s.MemoriesInv) {v : BitVec 16} (hx : execInUseRow v s = .next t) :
    t.MemoriesInv := by
  cases hx
  exact rowsFrom_memories (bitmap_memories h s.tab.used16 (writeRow_wf h.inUse s.tab.rowI v)) (s.tab.rowI + 1)

theorem execSelector_memories (h : s.MemoriesInv) {j : Nat} (hx : execSelector j s = .next t) : t.MemoriesInv := by
  unfold execSelector at hx
  simp only at hx
  split at hx
  · cases hx; exact { h with }
  · split at hx
    · cases hx
    · split at hx
      · cases hx
      · next tmp _ _ =>
        have hsel := Mem.wf_write h.selector s.tab.selI tmp
        cases hx
        split
        · exact { h with selector := hsel }
        · exact { h with selector := hsel }

/-- Only the length written is new in the tables. -/
theorem keptLength_tables (h : s.MemoriesInv) : ∀ p ∈ s.keptLength, TableWf p.2 := fun p hp => by
  obtain ⟨hlen, hlimit, hbase, hperm⟩ := tableWf_read h s.tab.lenT
  rcases mem_write_entry hp with hold | hnew
  · exact h.tables p hold
  · rw [hnew]
    exact ⟨Mem.wf_write hlen _ _, hlimit, hbase, hperm⟩

/-- The tables built, the counts of the last of them kept, `unzftab` cleared. -/
theorem finishTables_memories (h : u.MemoriesInv) : (finishTables u).MemoriesInv :=
  { h with
    huff := (buildTables_read List.nodup_range h.huff).1
    tables := buildTables_tables h.tables
    cnt := (Mem.wf_fromList _ _).1
    unzftab := Mem.wf_nil }

theorem afterLength_memories (h : s.MemoriesInv) {m : Mem HuffTable} (hm : m.wf)
    (htables : ∀ p ∈ m, TableWf p.2) : (s.afterLength m).MemoriesInv := by
  unfold State.afterLength
  split
  · exact { h with huff := hm, tables := htables }
  · split
    · exact { h with huff := hm, tables := htables }
    · exact finishTables_memories { h with huff := hm, tables := htables }

theorem execLenStop_memories (h : s.MemoriesInv) (hx : execLenStop s = .next t) : t.MemoriesInv := by
  by_cases hout : nGroupsMax ≤ s.tab.lenT ∨ maxAlpha ≤ s.tab.lenI
  · rw [execLenStop, if_pos hout] at hx
    cases hx
  · rw [execLenStop_eq (by omega) (by omega)] at hx
    cases hx
    exact afterLength_memories h (Mem.wf_write h.huff _ _) (keptLength_tables h)

/-! ### What the symbols write (rules R233 to R237, R260 to R263) -/

/-- A part of the symbol layer ends with every memory canonical, whether it goes on or has ended the command. -/
def Act.MemoriesInv (a : Act) : Prop := a.Ends True State.MemoriesInv State.MemoriesInv

theorem emitRun_memories (h : u.MemoriesInv) (n : Nat) (b : Byte) : (emitRun n b u).MemoriesInv := by
  unfold emitRun
  split
  · exact h.congr rfl rfl
  · split
    · trivial
    · exact memories_append h n b

theorem flushRun_memories (h : u.MemoriesInv) : (flushRun u).MemoriesInv := by
  unfold flushRun
  split
  · exact h
  · split
    · trivial
    · exact (emitRun_memories h _ _).andThen fun _ hv => hv.congr rfl rfl

theorem moveSymbol_memories (h : u.MemoriesInv) (k : Nat) : (moveSymbol k u).MemoriesInv := by
  unfold moveSymbol
  split
  · trivial
  · refine emitRun_memories ?_ _ _
    exact h.congr rfl rfl

theorem checkOrigPtr_memories (h : u.MemoriesInv) : (checkOrigPtr u).MemoriesInv := by
  unfold checkOrigPtr
  split
  · exact h.congr rfl rfl
  · exact h

/-- The loop of `BuildTT()`, also over counts that are not those of the block. -/
theorem placeIndices_wf {ll8 : Mem Byte} {n i : Nat} {cftab tt cftab' tt' : Mem Nat} (hc : cftab.wf) (ht : tt.wf)
    (hp : placeIndices ll8 n i cftab tt = some (cftab', tt')) : cftab'.wf ∧ tt'.wf := by
  induction n generalizing i cftab tt with
  | zero => cases hp; exact ⟨hc, ht⟩
  | succ n ih =>
    simp only [placeIndices] at hp
    split at hp
    · cases hp
    · exact ih (Mem.wf_write hc _ _) (Mem.wf_write ht _ _) hp

theorem buildTT_memories (h : u.MemoriesInv) : (buildTT u).MemoriesInv := by
  unfold buildTT
  split
  · trivial
  · split
    · trivial
    · next hp =>
      obtain ⟨hcftab, htt⟩ := placeIndices_wf (cumulativeTable_wf _) h.tt hp
      exact { h with cftab := hcftab, tt := htt }

theorem execMtfv_memories (h : s.MemoriesInv) {k : Nat} (hx : execMtfv k s = .next t) : t.MemoriesInv :=
  have ha : ((flushRun s).andThen (moveSymbol k)).MemoriesInv :=
    (flushRun_memories h).andThen fun _ hu => moveSymbol_memories hu k
  (ha.of_result hx).elim id id

theorem execEob_memories (h : s.MemoriesInv) (hx : execEob s = .next t) : t.MemoriesInv := by
  have ha := (((flushRun_memories h).andThen fun u hu =>
    checkOrigPtr_memories (u := u.crcReset) (hu.congr rfl rfl)).andThen fun u hu => buildTT_memories hu).andThen
    (P' := State.MemoriesInv) (k := fun u => .go (initPull u)) fun u hu => hu.congr rfl rfl
  exact (ha.of_result hx).elim id id

/-! ### The meanings that write no memory -/

/-- A command answers a latched fault, raises one, or does what its body does (rule R150). -/
theorem enter_memories (h : s.MemoriesInv) {op : HostOp} {body : State → State} (hb : (body s).MemoriesInv)
    (hx : s.enter op body = .next t) : t.MemoriesInv := by
  rcases enter_cases op s body with ⟨f, -, he⟩ | ⟨-, f, he⟩ | ⟨he, -⟩
  · rw [he] at hx; cases hx; exact h.congr rfl rfl
  · rw [he] at hx; cases hx; exact h.congr rfl rfl
  · rw [he] at hx; cases hx; exact hb

theorem execStart_memories (h : s.MemoriesInv) {a : Word} (hx : execStart a s = .next t) : t.MemoriesInv := by
  refine enter_memories h ?_ hx
  exact h.congr rfl rfl

theorem execRead_memories (h : s.MemoriesInv) {a : Word} (hx : execRead a s = .next t) : t.MemoriesInv := by
  refine enter_memories h ?_ hx
  split
  · exact h.congr rfl rfl
  · exact h.congr rfl rfl

theorem execReadBulk_memories (h : s.MemoriesInv) {n : Word} (hx : execReadBulk n s = .next t) : t.MemoriesInv := by
  refine enter_memories h ?_ hx
  split
  · exact h.congr rfl rfl
  · exact h.congr rfl rfl

theorem execClose_memories (h : s.MemoriesInv) {a : Word} (hx : execClose a s = .next t) : t.MemoriesInv := by
  refine enter_memories h ?_ hx
  exact h.congr rfl rfl

theorem execNGroups_memories (h : s.MemoriesInv) {g : BitVec 3} (hx : execNGroups g s = .next t) :
    t.MemoriesInv := by
  cases hx
  split
  · exact { h with }
  · exact { h with }

theorem execNSelectors_memories (h : s.MemoriesInv) {n : BitVec 15} (hx : execNSelectors n s = .next t) :
    t.MemoriesInv := by
  cases hx
  split
  · exact { h with }
  · exact { h with }

theorem execCombinedCrc_memories (h : s.MemoriesInv) {c : Word} (hx : execCombinedCrc c s = .next t) :
    t.MemoriesInv := by
  cases hx
  simp only
  split
  · exact h.congr (State.respondEod_tab _) (State.respondEod_blk _)
  · exact h.congr rfl rfl

theorem execLiteral_memories (h : s.MemoriesInv) {v : Byte} (hx : execLiteral v s = .next t) : t.MemoriesInv := by
  unfold execLiteral at hx
  split at hx
  · cases hx
  · cases hx; exact h.congr (State.output_tab _ _ _) (State.output_blk _ _ _)

theorem execRunCount_memories (h : s.MemoriesInv) {c : Byte} (hx : execRunCount c s = .next t) : t.MemoriesInv := by
  unfold execRunCount at hx
  split at hx
  · cases hx
  · cases hx; exact h.congr rfl rfl

theorem execRandMask_memories (h : s.MemoriesInv) {r : Bool} (hx : execRandMask r s = .next t) : t.MemoriesInv := by
  unfold execRandMask at hx
  split at hx
  · cases hx
  · cases hx; exact h.congr rfl rfl

/-! ### Every meaning -/

theorem exec_memories (h : s.MemoriesInv) {i : Instr} (hx : exec i s = .next t) : t.MemoriesInv := by
  cases i with
  | start a => exact execStart_memories h (a := a) hx
  | read a => exact execRead_memories h (a := a) hx
  | readBulk n => exact execReadBulk_memories h hx
  | write a => exact enter_memories h (op := .write) (h.congr rfl rfl) hx
  | seek a => exact enter_memories h (op := .seek) (h.congr rfl rfl) hx
  | setLength a => exact enter_memories h (op := .setLength) (h.congr rfl rfl) hx
  | getLength a => exact enter_memories h (op := .getLength) (h.congr rfl rfl) hx
  | close a => exact execClose_memories h (a := a) hx
  | streamHdr _ | blockMagic | endMagic | blockCrc _ | randomised _ | origPtr _ | startLen _ | lenInc | lenDec | runA
  | runB => cases hx; exact { h with }
  | inUse16 v => exact execInUse16_memories h hx
  | inUseRow v => exact execInUseRow_memories h hx
  | nGroups g => exact execNGroups_memories h hx
  | nSelectors n => exact execNSelectors_memories h hx
  | selector j => exact execSelector_memories h hx
  | lenStop => exact execLenStop_memories h hx
  | combinedCrc c => exact execCombinedCrc_memories h hx
  | mtfv k => exact execMtfv_memories h hx
  | eob => exact execEob_memories h hx
  | literal v => exact execLiteral_memories h hx
  | runCount c => exact execRunCount_memories h hx
  | randMask r => exact execRandMask_memories h hx

/-! ### A fetch writes no memory -/

/-- What is found due comes with the memories of `s`. -/
def Fetched.LeavesMemories (s : State) : Fetched → Prop
  | .instr _ u | .done u => u.tab = s.tab ∧ u.blk = s.blk
  | .stop _ | .noByte => True

theorem fetchField_leavesMemories (ctx : Ctx) (s : State) : (fetchField ctx s).LeavesMemories s := by
  unfold fetchField
  split
  · exact ⟨rfl, rfl⟩
  · exact ⟨rfl, rfl⟩
  · trivial

theorem fetchCommand_leavesMemories (s : State) : (fetchCommand s).LeavesMemories s := by
  unfold fetchCommand
  split
  · exact ⟨rfl, rfl⟩
  · exact ⟨rfl, rfl⟩

theorem fetchLenDelta_leavesMemories (s : State) : (fetchLenDelta s).LeavesMemories s := by
  unfold fetchLenDelta
  split
  · exact ⟨rfl, rfl⟩
  · exact fetchField_leavesMemories _ s

theorem fetchSymbol_leavesMemories (s : State) : (fetchSymbol s).LeavesMemories s := by
  unfold fetchSymbol
  simp only
  split
  · exact ⟨rfl, rfl⟩
  · split
    · trivial
    · split
      · trivial
      · split
        · exact ⟨rfl, rfl⟩
        · exact ⟨rfl, rfl⟩
        · trivial

theorem fetchWalk_leavesMemories (mk : Byte → Instr) (s : State) : (fetchWalk mk s).LeavesMemories s := by
  unfold fetchWalk
  split
  · split
    · trivial
    · exact ⟨rfl, rfl⟩
  · split
    · trivial
    · exact ⟨rfl, rfl⟩

theorem fetchA_leavesMemories (s : State) : (fetchA s).LeavesMemories s := by
  unfold fetchA
  split
  · exact fetchWalk_leavesMemories _ s
  · unfold endBlock
    simp only
    split
    · exact ⟨rfl, rfl⟩
    · exact ⟨rfl, rfl⟩

theorem fetchB_leavesMemories (s : State) : (fetchB s).LeavesMemories s := by
  unfold fetchB
  split
  · exact ⟨rfl, rfl⟩
  · split
    · exact ⟨rfl, rfl⟩
    · split
      · exact ⟨rfl, rfl⟩
      · exact fetchWalk_leavesMemories _ s

theorem fetchC_leavesMemories (s : State) : (fetchC s).LeavesMemories s := by
  unfold fetchC
  split
  · split
    · exact ⟨State.output_tab _ _ _, State.output_blk _ _ _⟩
    · trivial
  · exact ⟨rfl, rfl⟩

theorem fetchPull_leavesMemories (s : State) : (fetchPull s).LeavesMemories s := by
  unfold fetchPull
  cases s.ps with
  | startBlock => exact fetchField_leavesMemories _ s
  | randA | noRandA => exact fetchA_leavesMemories s
  | randB | noRandB => exact fetchB_leavesMemories s
  | randC | noRandC => exact fetchC_leavesMemories s

theorem fetch_leavesMemories (s : State) : (fetch s).LeavesMemories s := by
  unfold fetch
  cases s.phase with
  | idle => exact fetchCommand_leavesMemories s
  | pull => exact fetchPull_leavesMemories s
  | lenDelta => exact fetchLenDelta_leavesMemories s
  | symbol => exact fetchSymbol_leavesMemories s
  | _ => exact fetchField_leavesMemories _ s

theorem step_memories (h : s.MemoriesInv) (hx : step s = .next t) : t.MemoriesInv := by
  have hfetch := fetch_leavesMemories s
  rcases step_next_cases hx with ⟨i, u, hd, hx⟩ | hd
  · rw [hd] at hfetch
    obtain ⟨htab, hblk⟩ := hfetch
    exact exec_memories (h.congr htab hblk) hx
  · rw [hd] at hfetch
    obtain ⟨htab, hblk⟩ := hfetch
    exact h.congr htab hblk

end Sys2Proof.Machine

section MemoryStatements

open Sys2Proof Sys2Proof.Machine

/-- Settles O5: a fetch writes no memory, and every meaning writes the memories by operations that keep the form. -/
theorem stepKeepsMemoriesCanonical : Obligations.StepKeepsMemoriesCanonical := fun _ _ h hx => step_memories h hx

end MemoryStatements
end

section
/-! PROOFS. The encodings of 30_encoding.md that are no Huffman codes: command words (rule R101) and the elements of
the stream (rules R105 to R114), decoded and encoded. -/

namespace Sys2Proof

/-! ### Command words (rule R101) -/

theorem cmdOp_commandWord (op : HostOp) (arg : Word) : cmdOp (commandWord op arg) = op.code :=
  BitVec.extractLsb'_append_eq_left

theorem cmdArg_commandWord (op : HostOp) (arg : Word) : cmdArg (commandWord op arg) = arg :=
  BitVec.extractLsb'_append_eq_right

theorem cmdOp_append_cmdArg (w : CmdWord) : cmdOp w ++ cmdArg w = w :=
  BitVec.extractLsb'_append_extractLsb' (w := 3)

/-- The host command of an operation code and an operand (rule R101). -/
def HostOp.instr (arg : Word) : HostOp → Instr
  | .start => .start arg
  | .read => .read arg
  | .readBulk => .readBulk arg
  | .write => .write arg
  | .seek => .seek arg
  | .setLength => .setLength arg
  | .getLength => .getLength arg
  | .close => .close arg

theorem encodeCommand_instr (op : HostOp) (arg : Word) : encodeCommand (op.instr arg) = some (commandWord op arg) := by
  cases op <;> rfl

theorem decodeCommand_commandWord (op : HostOp) (arg : Word) : decodeCommand (commandWord op arg) = op.instr arg := by
  unfold decodeCommand
  rw [cmdOp_commandWord, cmdArg_commandWord]
  cases op <;> rfl

/-- Every word is the word of an operation and its operand: all eight operation codes are assigned. -/
theorem exists_commandWord (w : CmdWord) : ∃ op arg, w = commandWord op arg := by
  have hcodes : ∀ code : BitVec 3,
      ∃ op ∈ [HostOp.start, .read, .readBulk, .write, .seek, .setLength, .getLength, .close], op.code = code := by
    decide
  obtain ⟨op, -, hop⟩ := hcodes (cmdOp w)
  exact ⟨op, cmdArg w, by rw [commandWord, hop, cmdOp_append_cmdArg]⟩

/-- A host command is that of the operation and the operand in its word. -/
theorem exists_instr_of_encodeCommand {i : Instr} {w : CmdWord} (h : encodeCommand i = some w) :
    ∃ op arg, i = HostOp.instr arg op ∧ w = commandWord op arg := by
  cases i with
  | start a => cases h; exact ⟨.start, a, rfl, rfl⟩
  | read a => cases h; exact ⟨.read, a, rfl, rfl⟩
  | readBulk a => cases h; exact ⟨.readBulk, a, rfl, rfl⟩
  | write a => cases h; exact ⟨.write, a, rfl, rfl⟩
  | seek a => cases h; exact ⟨.seek, a, rfl, rfl⟩
  | setLength a => cases h; exact ⟨.setLength, a, rfl, rfl⟩
  | getLength a => cases h; exact ⟨.getLength, a, rfl, rfl⟩
  | close a => cases h; exact ⟨.close, a, rfl, rfl⟩
  | _ => cases h

/-! ### Fields (00_scope.md rule R11) -/

/-- Two fields side by side are the field of the two words joined. -/
theorem fieldBits_append {m n : Nat} (a : BitVec m) (b : BitVec n) :
    fieldBits (m + n) (a ++ b).toNat = fieldBits m a.toNat ++ fieldBits n b.toNat := by
  have hv : bitsValue (fieldBits m a.toNat ++ fieldBits n b.toNat) = (a ++ b).toNat := by
    rw [bitsValue_append, bitsValue_fieldBits, bitsValue_fieldBits, fieldBits_length, Nat.mod_eq_of_lt a.isLt,
      Nat.mod_eq_of_lt b.isLt, BitVec.toNat_append, ← Nat.shiftLeft_add_eq_or_of_lt b.isLt, Nat.shiftLeft_eq]
  rw [← hv]
  simpa using fieldBits_bitsValue (fieldBits m a.toNat ++ fieldBits n b.toNat)

/-- What a read of a field of `w` bits at `c` answers: the value of the next `w` bits, or the end of a source with
fewer bits left. -/
def BitRead.IsField (c : BitCursor) (w : Nat) : BitRead → Prop
  | .ok v c' => v < 2 ^ w ∧ c.bits = fieldBits w v ++ c'.bits ∧ c'.src = c.src
  | .eod _ => c.bits.length < w
  | .badWidth _ => False

theorem isField_of_bits {c c' : BitCursor} {w : Nat} {bs : List Bool} (hlen : bs.length = w)
    (hbits : c.bits = bs ++ c'.bits) (hsrc : c'.src = c.src) : (BitRead.ok (bitsValue bs) c').IsField c w := by
  subst hlen
  exact ⟨bitsValue_lt bs, by rw [fieldBits_bitsValue, hbits], hsrc⟩

theorem readBits_isField {w : Nat} (c : BitCursor) (h1 : 1 ≤ w) (h32 : w ≤ 32) : (c.readBits w).IsField c w := by
  rcases c.readBits_cases h1 h32 with ⟨bs, rest, c', hlen, hbits, hread, rfl, hmoved⟩ | ⟨hshort, c', hread, -, -⟩
  · rw [hread]; exact isField_of_bits hlen hbits hmoved.src
  · rw [hread]; exact hshort

theorem readBytes_isField (n : Nat) (c : BitCursor) : (c.readBytes n 0).IsField c (8 * n) := by
  rcases BitCursor.readBytes_cases n 0 c with
    ⟨bs, rest, c', hlen, hbits, hread, rfl, hmoved⟩ | ⟨hshort, c', hread, -⟩
  · rw [hread, Nat.zero_mul, Nat.zero_add]; exact isField_of_bits hlen hbits hmoved.src
  · rw [hread]; exact hshort

/-- The field met at the cursor is the value read. -/
theorem BitRead.IsField.eq_ok {r : BitRead} {c : BitCursor} {w v : Nat} {rest : List Bool} (h : r.IsField c w)
    (hv : v < 2 ^ w) (hbits : c.bits = fieldBits w v ++ rest) :
    ∃ c', r = .ok v c' ∧ c'.bits = rest ∧ c'.src = c.src := by
  cases r with
  | ok u c' =>
    obtain ⟨hu, hread, hsrc⟩ := h
    obtain ⟨hfield, hrest⟩ := List.append_inj (hread.symm.trans hbits) (by simp)
    have huv := congrArg bitsValue hfield
    rw [bitsValue_fieldBits, bitsValue_fieldBits, Nat.mod_eq_of_lt hu, Nat.mod_eq_of_lt hv] at huv
    exact ⟨c', by rw [huv], hrest, hsrc⟩
  | eod c' =>
    have hlen : c.bits.length = w + rest.length := by simp [hbits]
    have hshort : c.bits.length < w := h
    omega
  | badWidth n => exact h.elim

/-- One bit read: the first bit not consumed yet. -/
theorem readBits_one {c : BitCursor} {b : Bool} {rest : List Bool} (hbits : c.bits = b :: rest) :
    ∃ c', c.readBits 1 = .ok b.toNat c' ∧ c'.bits = rest ∧ c'.src = c.src := by
  obtain ⟨c', hread, hrest, hmoved⟩ := BitCursor.readBits_of_bits (bs := [b]) le_rfl (by decide) hbits rfl
  exact ⟨c', by rw [hread]; cases b <;> rfl, hrest, hmoved.src⟩

/-- Everything a read of one bit can answer. -/
theorem readBits_one_cases (c : BitCursor) :
    (∃ b c', c.readBits 1 = .ok b.toNat c' ∧ c.bits = b :: c'.bits) ∨
      ∃ c', c.readBits 1 = .eod c' ∧ c.bits = [] := by
  cases hbits : c.bits with
  | nil =>
    obtain ⟨c', hread, -⟩ := BitCursor.readBits_of_short (n := 1) (c := c) (by decide) (by simp [hbits])
    exact .inr ⟨c', hread, rfl⟩
  | cons b rest =>
    obtain ⟨c', hread, hrest, -⟩ := readBits_one hbits
    exact .inl ⟨b, c', hread, by rw [hrest]⟩

/-- An element decoded after a field: the value of the field, and what was made of it. -/
theorem BitRead.IsField.of_decoded {r : BitRead} {c c' : BitCursor} {w : Nat} {k : Nat → BitCursor → Decoded}
    {i : Instr} (h : r.IsField c w) (hd : r.decoded k = .ok i c') :
    ∃ v d, v < 2 ^ w ∧ c.bits = fieldBits w v ++ d.bits ∧ k v d = .ok i c' := by
  cases r with
  | ok v d => exact ⟨v, d, h.1, h.2.1, hd⟩
  | eod d => cases hd
  | badWidth n => cases hd

/-! ### The stream header (rule R105) -/

/-- The 32 bits of a stream header with the class digit `h3`. -/
def headerWord (h3 : Byte) : BitVec 32 := config.streamSig.1 ++ config.streamSig.2.1 ++ config.streamSig.2.2 ++ h3

theorem encodeField_streamHdr (h3 : Byte) :
    encodeField (.streamHdr h3) = some (fieldBits 32 (headerWord h3).toNat) := by
  have hword : fieldBits (8 + 8 + 8 + 8) (headerWord h3).toNat = byteBits config.streamSig.1 ++
      byteBits config.streamSig.2.1 ++ byteBits config.streamSig.2.2 ++ byteBits h3 := by
    rw [headerWord, fieldBits_append, fieldBits_append, fieldBits_append]
    simp only [byteBits_eq_fieldBits]
  exact congrArg some hword.symm

theorem headerDigit_headerWord {h3 : Byte} (h1 : config.digit1 ≤ h3) (h9 : h3 ≤ config.digit9) :
    headerDigit (headerWord h3) = some h3 := by
  have hdigit : (headerWord h3).extractLsb' 0 8 = h3 := BitVec.extractLsb'_append_eq_right
  have hsig (start : Nat) : (headerWord h3).extractLsb' (start + 8) 8 =
      (config.streamSig.1 ++ config.streamSig.2.1 ++ config.streamSig.2.2).extractLsb' start 8 :=
    (BitVec.extractLsb'_append_eq_of_le (Nat.le_add_left 8 start)).trans (by rw [Nat.add_sub_cancel])
  unfold headerDigit
  simp only [hdigit, hsig 16, hsig 8, hsig 0]
  exact if_pos ⟨by decide, by decide, by decide, h1, h9⟩

/-- A word with a class digit is a stream header with that digit. -/
theorem eq_headerWord {w : BitVec 32} {h3 : Byte} (h : headerDigit w = some h3) : w = headerWord h3 := by
  have hbytes : w.extractLsb' 24 8 ++ w.extractLsb' 16 8 ++ w.extractLsb' 8 8 ++ w.extractLsb' 0 8 = w := by
    rw [BitVec.extractLsb'_append_extractLsb'_eq_extractLsb' (show 24 = 16 + 8 from rfl),
      BitVec.extractLsb'_append_extractLsb'_eq_extractLsb' (show 16 = 8 + 8 from rfl)]
    exact BitVec.extractLsb'_append_extractLsb' (w := 24)
  simp only [headerDigit, Option.ite_none_right_eq_some, Option.some.injEq] at h
  obtain ⟨⟨h0, h1, h2, -, -⟩, rfl⟩ := h
  rw [headerWord, ← h0, ← h1, ← h2, hbytes]

/-! ### The elements of the stream (rules R105 to R114) -/

/-- A decoding at `c` that answers `i` and leaves the bits `rest`. -/
def Decoded.Gives (d : Decoded) (i : Instr) (c : BitCursor) (rest : List Bool) : Prop :=
  ∃ c', d = .ok i c' ∧ c'.bits = rest ∧ c'.src = c.src

/-- An element whose first field is the one met at the cursor. -/
theorem BitRead.IsField.gives {r : BitRead} {c : BitCursor} {w v : Nat} {rest rest' : List Bool}
    {k : Nat → BitCursor → Decoded} {i : Instr} (h : r.IsField c w) (hbits : c.bits = fieldBits w v ++ rest)
    (hv : v < 2 ^ w) (hk : ∀ c', c'.bits = rest → (k v c').Gives i c' rest') : (r.decoded k).Gives i c rest' := by
  obtain ⟨c', rfl, hrest, hsrc⟩ := h.eq_ok hv hbits
  obtain ⟨c'', hd, hrest', hsrc'⟩ := hk c' hrest
  exact ⟨c'', hd, hrest', hsrc'.trans hsrc⟩

/-- An element that is one field of fixed width. -/
theorem BitRead.IsField.gives_word {r : BitRead} {c : BitCursor} {w : Nat} {x : BitVec w} {rest : List Bool}
    {mk : BitVec w → Instr} (h : r.IsField c w) (hbits : c.bits = fieldBits w x.toNat ++ rest) :
    (r.decoded fun v c' => .ok (mk (BitVec.ofNat w v)) c').Gives (mk x) c rest :=
  h.gives hbits x.isLt fun c' hrest => ⟨c', by simp, hrest, rfl⟩

/-- An element decoded that is one field of fixed width. -/
theorem BitRead.IsField.of_decoded_word {r : BitRead} {c c' : BitCursor} {w : Nat} {mk : BitVec w → Instr} {i : Instr}
    (h : r.IsField c w) (hd : (r.decoded fun v c' => .ok (mk (BitVec.ofNat w v)) c') = .ok i c') :
    ∃ x, i = mk x ∧ c.bits = fieldBits w x.toNat ++ c'.bits := by
  obtain ⟨v, d, hv, hbits, hd⟩ := h.of_decoded hd
  cases hd
  exact ⟨_, rfl, by rw [hbits, BitVec.toNat_ofNat, Nat.mod_eq_of_lt hv]⟩

/-- The unary code of a selector: `m` one-bits, of which `k` are legal, and a zero-bit. -/
theorem readUnary_gives {m k : Nat} (hm : m ≤ k) (j : Nat) {c : BitCursor} {rest : List Bool}
    (hbits : c.bits = List.replicate m true ++ false :: rest) :
    (readUnary k j c).Gives (.selector (j + m)) c rest := by
  induction m generalizing k j c with
  | zero =>
    obtain ⟨c', hread, hrest, hsrc⟩ := readBits_one hbits
    refine ⟨c', ?_, hrest, hsrc⟩
    cases k <;> simp [readUnary, hread, BitRead.decoded]
  | succ m ih =>
    obtain ⟨k, rfl⟩ := Nat.exists_eq_add_of_le' hm
    obtain ⟨c', hread, hrest, hsrc⟩ := readBits_one hbits
    obtain ⟨c'', hd, hrest', hsrc'⟩ := ih (Nat.le_add_left m k) (j + 1) hrest
    refine ⟨c'', ?_, hrest', hsrc'.trans hsrc⟩
    rw [Nat.add_right_comm, Nat.add_assoc] at hd
    simpa [← Nat.add_assoc k, readUnary, hread] using hd

/-- A selector that was decoded: one-bits, at most as many as are legal, and a zero-bit. -/
theorem readUnary_eq_ok {k j : Nat} {c c' : BitCursor} {i : Instr} (h : readUnary k j c = .ok i c') :
    ∃ m ≤ k, i = .selector (j + m) ∧ c.bits = List.replicate m true ++ [false] ++ c'.bits := by
  induction k generalizing j c with
  | zero =>
    unfold readUnary at h
    rcases readBits_one_cases c with ⟨b, d, hread, hbits⟩ | ⟨d, hread, -⟩ <;> rw [hread] at h
    · cases b
      · cases h; exact ⟨0, le_rfl, rfl, hbits⟩
      · cases h
    · cases h
  | succ k ih =>
    unfold readUnary at h
    rcases readBits_one_cases c with ⟨b, d, hread, hbits⟩ | ⟨d, hread, -⟩ <;> rw [hread] at h
    · cases b
      · cases h; exact ⟨0, Nat.zero_le _, rfl, hbits⟩
      · obtain ⟨m, hm, rfl, hrest⟩ := ih h
        exact ⟨m + 1, Nat.succ_le_succ hm, by rw [Nat.add_assoc, Nat.add_comm 1], by rw [hbits, hrest]; rfl⟩
    · cases h

/-- Every place of the grammar but that of the symbols: the encoding of an element is decoded as that element. -/
theorem decode_of_encode {ctx : Ctx} {i : Instr} {bits rest : List Bool} {c : BitCursor}
    (hsym : ∀ t n, ctx ≠ .symbol t n) (hw : i.wellFormed = true) (he : encode ctx i = some bits)
    (hbits : c.bits = bits ++ rest) : (decode ctx c).Gives i c rest := by
  cases ctx with
  | streamHdr =>
    cases i with
    | streamHdr h3 =>
      obtain ⟨h1, h9⟩ : config.digit1 ≤ h3 ∧ h3 ≤ config.digit9 := by simpa [Instr.wellFormed] using hw
      obtain rfl := Option.some.inj ((encodeField_streamHdr h3).symm.trans he)
      refine (readBytes_isField 4 c).gives hbits (headerWord h3).isLt fun c' hrest => ⟨c', ?_, hrest, rfl⟩
      simp only [BitVec.ofNat_toNat, BitVec.setWidth_eq, headerDigit_headerWord h1 h9]
    | _ => cases he
  | marker =>
    cases i with
    | blockMagic =>
      cases he
      exact (readBytes_isField 6 c).gives hbits (BitVec.isLt _) fun c' hrest => ⟨c', rfl, hrest, rfl⟩
    | endMagic =>
      cases he
      exact (readBytes_isField 6 c).gives hbits (BitVec.isLt _) fun c' hrest => ⟨c', rfl, hrest, rfl⟩
    | _ => cases he
  | blockCrc =>
    cases i with
    | blockCrc x => cases he; exact (readBits_isField c (by decide) (by decide)).gives_word hbits
    | _ => cases he
  | randomised =>
    cases i with
    | randomised r =>
      cases he
      have hfield : fieldBits 1 r.toNat = [r] := by cases r <;> rfl
      exact (readBits_isField c (by decide) (by decide)).gives (hfield ▸ hbits) r.toNat_lt
        fun c' hrest => ⟨c', by cases r <;> rfl, hrest, rfl⟩
    | _ => cases he
  | origPtr =>
    cases i with
    | origPtr p =>
      cases he
      exact (readBits_isField c (by decide) (by decide)).gives hbits (by simpa [Instr.wellFormed] using hw)
        fun c' hrest => ⟨c', rfl, hrest, rfl⟩
    | _ => cases he
  | inUse16 =>
    cases i with
    | inUse16 x => cases he; exact (readBits_isField c (by decide) (by decide)).gives_word hbits
    | _ => cases he
  | inUseRow =>
    cases i with
    | inUseRow x => cases he; exact (readBits_isField c (by decide) (by decide)).gives_word hbits
    | _ => cases he
  | nGroups =>
    cases i with
    | nGroups x => cases he; exact (readBits_isField c (by decide) (by decide)).gives_word hbits
    | _ => cases he
  | nSelectors =>
    cases i with
    | nSelectors x => cases he; exact (readBits_isField c (by decide) (by decide)).gives_word hbits
    | _ => cases he
  | selector n =>
    cases i with
    | selector j =>
      obtain ⟨hj, he⟩ := Option.ite_none_right_eq_some.1 he
      cases he
      have hgives := readUnary_gives (Nat.le_sub_one_of_lt hj) 0 (hbits.trans (List.append_assoc _ _ _))
      rwa [Nat.zero_add] at hgives
    | _ => cases he
  | startLen =>
    cases i with
    | startLen x => cases he; exact (readBits_isField c (by decide) (by decide)).gives_word hbits
    | _ => cases he
  | lenDelta =>
    cases i with
    | lenStop =>
      cases he
      obtain ⟨c', hread, hrest, hsrc⟩ := readBits_one hbits
      exact ⟨c', by simp [decode, hread, BitRead.decoded], hrest, hsrc⟩
    | lenInc =>
      cases he
      obtain ⟨c', hread, hrest, hsrc⟩ := readBits_one hbits
      obtain ⟨c'', hread', hrest', hsrc'⟩ := readBits_one hrest
      exact ⟨c'', by simp [decode, hread, hread', BitRead.decoded], hrest', hsrc'.trans hsrc⟩
    | lenDec =>
      cases he
      obtain ⟨c', hread, hrest, hsrc⟩ := readBits_one hbits
      obtain ⟨c'', hread', hrest', hsrc'⟩ := readBits_one hrest
      exact ⟨c'', by simp [decode, hread, hread', BitRead.decoded], hrest', hsrc'.trans hsrc⟩
    | _ => cases he
  | symbol t n => exact absurd rfl (hsym t n)
  | combinedCrc =>
    cases i with
    | combinedCrc x => cases he; exact (readBytes_isField 4 c).gives_word hbits
    | _ => cases he

/-- Every place of the grammar but that of the symbols: an element decoded had its encoding at the cursor. -/
theorem encode_of_decode {ctx : Ctx} {i : Instr} {c c' : BitCursor} (hsym : ∀ t n, ctx ≠ .symbol t n)
    (hsel : ∀ n, ctx = .selector n → 1 ≤ n ∧ n ≤ nGroupsMax) (hd : decode ctx c = .ok i c') :
    i.wellFormed = true ∧ ∃ bits, encode ctx i = some bits ∧ c.bits = bits ++ c'.bits := by
  cases ctx with
  | streamHdr =>
    obtain ⟨v, d, hv, hbits, hd⟩ := (readBytes_isField 4 c).of_decoded hd
    cases hdigit : headerDigit (BitVec.ofNat 32 v) with
    | none => simp [hdigit] at hd
    | some h3 =>
      simp only [hdigit] at hd
      cases hd
      refine ⟨by simpa [Instr.wellFormed] using headerDigit_some hdigit, _, encodeField_streamHdr h3, ?_⟩
      rw [hbits, ← eq_headerWord hdigit, BitVec.toNat_ofNat, Nat.mod_eq_of_lt hv]
  | marker =>
    obtain ⟨v, d, hv, hbits, hd⟩ := (readBytes_isField 6 c).of_decoded hd
    cases hmarker : markerInstr (BitVec.ofNat 48 v) with
    | none => simp [hmarker] at hd
    | some m =>
      simp only [hmarker] at hd
      cases hd
      have hcode : (BitVec.ofNat 48 v).toNat = v := by rw [BitVec.toNat_ofNat, Nat.mod_eq_of_lt hv]
      unfold markerInstr at hmarker
      split at hmarker
      · next hend => cases hmarker; exact ⟨rfl, _, rfl, by rw [hbits, ← hend, hcode]⟩
      · split at hmarker
        · next hblock => cases hmarker; exact ⟨rfl, _, rfl, by rw [hbits, ← hblock, hcode]⟩
        · cases hmarker
  | blockCrc =>
    obtain ⟨x, rfl, hbits⟩ := (readBits_isField c (by decide) (by decide)).of_decoded_word hd
    exact ⟨rfl, _, rfl, hbits⟩
  | randomised =>
    rcases readBits_one_cases c with ⟨b, d, hread, hbits⟩ | ⟨d, hread, -⟩
    · rw [decode, hread] at hd
      cases b
      · cases hd; exact ⟨rfl, _, rfl, hbits⟩
      · cases hd; exact ⟨rfl, _, rfl, hbits⟩
    · rw [decode, hread] at hd; cases hd
  | origPtr =>
    obtain ⟨p, d, hp, hbits, hd⟩ := (readBits_isField c (by decide) (by decide)).of_decoded hd
    cases hd
    exact ⟨by simpa [Instr.wellFormed] using hp, _, rfl, hbits⟩
  | inUse16 =>
    obtain ⟨x, rfl, hbits⟩ := (readBits_isField c (by decide) (by decide)).of_decoded_word hd
    exact ⟨rfl, _, rfl, hbits⟩
  | inUseRow =>
    obtain ⟨x, rfl, hbits⟩ := (readBits_isField c (by decide) (by decide)).of_decoded_word hd
    exact ⟨rfl, _, rfl, hbits⟩
  | nGroups =>
    obtain ⟨x, rfl, hbits⟩ := (readBits_isField c (by decide) (by decide)).of_decoded_word hd
    exact ⟨rfl, _, rfl, hbits⟩
  | nSelectors =>
    obtain ⟨x, rfl, hbits⟩ := (readBits_isField c (by decide) (by decide)).of_decoded_word hd
    exact ⟨rfl, _, rfl, hbits⟩
  | selector n =>
    obtain ⟨m, hm, rfl, hbits⟩ := readUnary_eq_ok hd
    obtain ⟨hn, hmax⟩ := hsel n rfl
    have hlt : 0 + m < n := by omega
    refine ⟨?_, _, if_pos hlt, ?_⟩
    · simp only [Instr.wellFormed, decide_eq_true_eq]; omega
    · rw [hbits, Nat.zero_add]
  | startLen =>
    obtain ⟨x, rfl, hbits⟩ := (readBits_isField c (by decide) (by decide)).of_decoded_word hd
    exact ⟨rfl, _, rfl, hbits⟩
  | lenDelta =>
    rcases readBits_one_cases c with ⟨b, d, hread, hbits⟩ | ⟨d, hread, -⟩
    · rw [decode, hread] at hd
      cases b
      · cases hd; exact ⟨rfl, _, rfl, hbits⟩
      · rcases readBits_one_cases d with ⟨b', d', hread', hbits'⟩ | ⟨d', hread', -⟩
        · simp only [BitRead.decoded, Bool.toNat_true, one_ne_zero, if_false, hread'] at hd
          rw [hbits'] at hbits
          cases b'
          · cases hd; exact ⟨rfl, _, rfl, hbits⟩
          · cases hd; exact ⟨rfl, _, rfl, hbits⟩
        · simp only [BitRead.decoded, Bool.toNat_true, one_ne_zero, if_false, hread'] at hd
          cases hd
    · rw [decode, hread] at hd; cases hd
  | symbol t n => exact absurd rfl (hsym t n)
  | combinedCrc =>
    obtain ⟨x, rfl, hbits⟩ := (readBytes_isField 4 c).of_decoded_word hd
    exact ⟨rfl, _, rfl, hbits⟩

end Sys2Proof

section EncodingStatements

open Sys2Proof

/-- Settles O10: every word is that of an operation and an operand, and both directions agree on those. -/
theorem commandWordsRoundTrip : Obligations.CommandWordsRoundTrip := by
  refine ⟨fun op arg => ⟨cmdOp_commandWord op arg, cmdArg_commandWord op arg⟩, fun w => ?_, fun i w h => ?_⟩
  · obtain ⟨op, arg, rfl⟩ := exists_commandWord w
    rw [decodeCommand_commandWord, encodeCommand_instr]
  · obtain ⟨op, arg, rfl, rfl⟩ := exists_instr_of_encodeCommand h
    exact decodeCommand_commandWord op arg

/-- Settles O11, place by place of the grammar. -/
theorem streamElementRoundTrip : Obligations.StreamElementRoundTrip :=
  fun _ _ _ _ _ hsym hw he hbits => decode_of_encode hsym hw he hbits

/-- Settles O12, place by place of the grammar. -/
theorem decodedElementWasItsEncoding : Obligations.DecodedElementWasItsEncoding :=
  fun _ _ _ _ hsym hsel hd => encode_of_decode hsym hsel hd

/-- Settles O14: each word is decoded by evaluating the model. -/
theorem wordsOfTheSpecDecode : Obligations.WordsOfTheSpecDecode := by
  refine ⟨?_, ?_, ?_, ?_, ?_, ?_, ?_, ?_, ?_, ?_, ?_⟩ <;> decide

end EncodingStatements
end

section
/-! PROOFS. The canonical codes of 30_encoding.md rules R111 and R117: the code values an encoder gives, the tables
built from the lengths (rules R205, R206), and what decoding with them answers (rule R232). -/

namespace Sys2Proof

/-! ### The first code value and the first rank of each length -/

/-- How many symbols have a code shorter than `l`: the rank of the first symbol of length `l` (rule R205). -/
def shorter (lens : List Nat) (l : Nat) : Nat := lens.countP (· < l)

/-- The first code value of length `l` (rules R111, R206): twice the value after the last one of the length before. -/
def firstCode (lens : List Nat) : Nat → Nat
  | 0 => 0
  | l + 1 => 2 * (firstCode lens l + lens.count l)

section Lengths

variable {lens : List Nat}

theorem shorter_succ (lens : List Nat) (l : Nat) : shorter lens (l + 1) = shorter lens l + lens.count l := by
  induction lens with
  | nil => rfl
  | cons x lens ih =>
    simp only [shorter, List.countP_cons, List.count_cons, beq_iff_eq, decide_eq_true_eq] at ih ⊢
    rcases Nat.lt_trichotomy x l with hlt | heq | hlt
    · rw [if_pos (by omega), if_pos hlt, if_neg (by omega)]; omega
    · rw [if_pos (by omega), if_neg (by omega), if_pos heq]; omega
    · rw [if_neg (by omega), if_neg (by omega), if_neg (by omega)]; omega

theorem shorter_mono (lens : List Nat) : Monotone (shorter lens) := monotone_nat_of_le_succ fun l => by
  rw [shorter_succ]
  exact Nat.le_add_right _ _

/-- Up to the least length there is no shorter symbol and no code value. -/
theorem first_of_le_leastOf {l : Nat} (h : l ≤ leastOf lens) : shorter lens l = 0 ∧ firstCode lens l = 0 := by
  induction l with
  | zero => exact ⟨by simp [shorter], rfl⟩
  | succ l ih =>
    obtain ⟨hshorter, hfirst⟩ := ih (by omega)
    have hcount : lens.count l = 0 := List.count_eq_zero.2 fun hmem => by
      have := leastOf_le hmem
      omega
    rw [shorter_succ, firstCode, hshorter, hfirst, hcount]
    exact ⟨rfl, rfl⟩

theorem shorter_le_firstCode (lens : List Nat) (l : Nat) : shorter lens l ≤ firstCode lens l := by
  induction l with
  | zero => simp [shorter]
  | succ l ih => rw [shorter_succ, firstCode]; omega

/-- The code values `d` bits longer begin behind the extensions of those of the lengths below `l`. -/
theorem firstCode_mul_le (lens : List Nat) (l d : Nat) : firstCode lens l * 2 ^ d ≤ firstCode lens (l + d) := by
  induction d with
  | zero => simp
  | succ d ih => rw [← Nat.add_assoc, firstCode, pow_succ, ← Nat.mul_assoc]; omega

/-- They begin right behind these if no code ends between. -/
theorem firstCode_add {l d : Nat} (h : shorter lens (l + d) = shorter lens l) :
    firstCode lens (l + d) = firstCode lens l * 2 ^ d := by
  induction d with
  | zero => simp
  | succ d ih =>
    have hmono := shorter_mono lens (Nat.le_add_right l d)
    rw [← Nat.add_assoc, shorter_succ] at h
    rw [← Nat.add_assoc, firstCode, ih (by omega), pow_succ, ← Nat.mul_assoc]
    omega

@[simp] theorem firstCode_nil (l : Nat) : firstCode [] l = 0 := by
  induction l with
  | zero => rfl
  | succ l ih => rw [firstCode, ih]; rfl

theorem firstCode_cons (x : Nat) (lens : List Nat) (l : Nat) :
    firstCode (x :: lens) l = firstCode lens l + if x < l then 2 ^ (l - x) else 0 := by
  induction l with
  | zero => rfl
  | succ l ih =>
    rw [firstCode, firstCode, ih, List.count_cons]
    simp only [beq_iff_eq]
    rcases Nat.lt_trichotomy x l with hlt | heq | hlt
    · rw [if_pos hlt, if_neg (by omega), if_pos (by omega), Nat.sub_add_comm hlt.le, pow_succ]; omega
    · rw [if_neg (by omega), if_pos heq, if_pos (by omega), show l + 1 - x = 1 by omega]; omega
    · rw [if_neg (by omega), if_neg (by omega), if_neg (by omega)]; omega

/-- Behind the greatest length the first code value is the Kraft sum. -/
theorem firstCode_maxCodeLen_succ (hlegal : LegalLengths lens) :
    firstCode lens (maxCodeLen + 1) = 2 * (lens.map fun l => 2 ^ (maxCodeLen - l)).sum := by
  induction lens with
  | nil => simp
  | cons x lens ih =>
    obtain ⟨hx, hlegal⟩ := List.forall_mem_cons.1 hlegal
    rw [firstCode_cons, ih hlegal, if_pos (by omega), List.map_cons, List.sum_cons, Nat.sub_add_comm hx.2, pow_succ]
    omega

/-- With the Kraft sum every code value fits its length. -/
theorem firstCode_add_count_le (hlegal : LegalLengths lens) (hkraft : KraftHolds lens) {l : Nat}
    (hl : l ≤ maxCodeLen) : firstCode lens l + lens.count l ≤ 2 ^ l := by
  have hspace : firstCode lens (l + 1) * 2 ^ (maxCodeLen - l) ≤ 2 ^ (l + 1) * 2 ^ (maxCodeLen - l) := by
    have hle := firstCode_mul_le lens (l + 1) (maxCodeLen - l)
    rw [show l + 1 + (maxCodeLen - l) = maxCodeLen + 1 by omega, firstCode_maxCodeLen_succ hlegal] at hle
    rw [← pow_add, show l + 1 + (maxCodeLen - l) = maxCodeLen + 1 by omega, pow_succ]
    have : (lens.map fun l => 2 ^ (maxCodeLen - l)).sum ≤ 2 ^ maxCodeLen := hkraft
    omega
  have hfit := Nat.le_of_mul_le_mul_right hspace (Nat.two_pow_pos _)
  rw [firstCode, pow_succ] at hfit
  omega

/-! ### The ranks of the symbols (rule R205) -/

/-- The symbols by rank: in order of (length, symbol). -/
def ranked (lens : List Nat) : List Nat := symbolsByLength lens (leastOf lens) (greatestOf lens)

theorem length_ranked (lens : List Nat) : (ranked lens).length = lens.length := length_symbolsByLength_self lens

theorem countP_ranked (lens : List Nat) (l : Nat) :
    (ranked lens).countP (fun i => lens.getD i 0 < l) = shorter lens l := by
  have hmap : (List.range lens.length).map (fun i => lens.getD i 0) = lens := by
    refine List.ext_getElem (by simp) fun i h1 h2 => ?_
    simp [List.getElem?_eq_getElem h2]
  rw [ranked, (perm_symbolsByLength_self lens).countP_eq, shorter]
  conv_rhs => rw [← hmap, List.countP_map]
  rfl

/-- Ranks rise with the length. -/
theorem length_le_of_rank_le {r r' : Nat} (hr' : r' < (ranked lens).length) (h : r ≤ r') :
    lens.getD (ranked lens)[r] 0 ≤ lens.getD (ranked lens)[r'] 0 := by
  rcases Nat.eq_or_lt_of_le h with rfl | hlt
  · exact le_rfl
  · have := List.pairwise_iff_getElem.1 (pairwise_symbolsByLength lens (leastOf lens) (greatestOf lens)) r r'
      (hlt.trans hr') hr' hlt
    simp only [ranked]
    omega

/-- The rank of a symbol of length `l` lies between the shorter symbols and the longer ones: those before it are no
longer, those behind it no shorter. -/
theorem rank_bounds {r : Nat} (hr : r < (ranked lens).length) :
    shorter lens (lens.getD (ranked lens)[r] 0) ≤ r ∧ r < shorter lens (lens.getD (ranked lens)[r] 0 + 1) := by
  rw [← countP_ranked, ← countP_ranked]
  constructor
  · have hdrop : ((ranked lens).drop r).countP (fun i => lens.getD i 0 < lens.getD (ranked lens)[r] 0) = 0 := by
      refine List.countP_eq_zero.2 fun i hi => ?_
      obtain ⟨k, hk, rfl⟩ := List.getElem_of_mem hi
      rw [List.length_drop] at hk
      simpa using length_le_of_rank_le (r' := r + k) (by omega) (Nat.le_add_right r k)
    calc (ranked lens).countP _
      _ = ((ranked lens).take r ++ (ranked lens).drop r).countP _ := by rw [List.take_append_drop]
      _ = ((ranked lens).take r).countP _ := by rw [List.countP_append, hdrop, Nat.add_zero]
      _ ≤ ((ranked lens).take r).length := List.countP_le_length
      _ ≤ r := List.length_take_le r _
  · have htake : ((ranked lens).take (r + 1)).countP (fun i => lens.getD i 0 < lens.getD (ranked lens)[r] 0 + 1) =
        ((ranked lens).take (r + 1)).length := by
      refine List.countP_eq_length.2 fun i hi => ?_
      obtain ⟨k, hk, rfl⟩ := List.getElem_of_mem hi
      rw [List.length_take] at hk
      simpa [Nat.lt_succ_iff] using length_le_of_rank_le (r := k) hr (by omega)
    calc r + 1
      _ ≤ ((ranked lens).take (r + 1)).length := by rw [List.length_take]; omega
      _ = ((ranked lens).take (r + 1)).countP _ := htake.symm
      _ ≤ (ranked lens).countP _ := (List.take_sublist (r + 1) (ranked lens)).countP_le

/-- The symbol of a rank between the shorter symbols and the longer ones has that length. -/
theorem length_of_rank {l r : Nat} (h : shorter lens l ≤ r) (h' : r < shorter lens (l + 1)) :
    ∃ hr : r < (ranked lens).length, lens.getD (ranked lens)[r] 0 = l := by
  have hr : r < (ranked lens).length := by
    rw [length_ranked]
    exact h'.trans_le List.countP_le_length
  refine ⟨hr, ?_⟩
  obtain ⟨hlow, hhigh⟩ := rank_bounds hr
  rcases Nat.lt_trichotomy (lens.getD (ranked lens)[r] 0) l with hlt | heq | hlt
  · have : shorter lens (lens.getD (ranked lens)[r] 0 + 1) ≤ shorter lens l := shorter_mono lens hlt
    omega
  · exact heq
  · have : shorter lens (l + 1) ≤ shorter lens (lens.getD (ranked lens)[r] 0) := shorter_mono lens hlt
    omega

/-! ### The code values (rule R111) -/

/-- `v` is the code value of a symbol of length `l`. -/
structure CodeValue (lens : List Nat) (l v : Nat) : Prop where
  ge : firstCode lens l ≤ v
  lt : v < firstCode lens l + lens.count l

/-- The rank of the symbol with the code value `v` of length `l`. -/
def codeRank (lens : List Nat) (l v : Nat) : Nat := shorter lens l + (v - firstCode lens l)

theorem CodeValue.mem {l v : Nat} (h : CodeValue lens l v) : l ∈ lens :=
  List.count_pos_iff.1 (by have := h.ge; have := h.lt; omega)

theorem CodeValue.length_eq {l v : Nat} (h : CodeValue lens l v) :
    ∃ hr : codeRank lens l v < (ranked lens).length, lens.getD (ranked lens)[codeRank lens l v] 0 = l :=
  length_of_rank (Nat.le_add_right _ _) (by have := h.ge; have := h.lt; rw [codeRank, shorter_succ]; omega)

/-- The code value of the symbol of rank `r`. -/
def rankValue (lens : List Nat) (r : Nat) : Nat :=
  let l := lens.getD ((ranked lens).getD r 0) 0
  firstCode lens l + (r - shorter lens l)

theorem rankValue_eq {r : Nat} (hr : r < (ranked lens).length) {l : Nat} (hl : lens.getD (ranked lens)[r] 0 = l) :
    rankValue lens r = firstCode lens l + (r - shorter lens l) := by
  simp only [rankValue, List.getD_eq_getElem _ _ hr, hl]

/-- The least rank is that of a symbol of the least length, of value 0. -/
theorem rankValue_zero (h : 0 < (ranked lens).length) : rankValue lens 0 = 0 := by
  obtain ⟨hlow, -⟩ := rank_bounds h
  have hfirst := firstCode_add (l := 0) (by rw [Nat.zero_add, Nat.le_zero.1 hlow]; simp [shorter])
  rw [Nat.zero_add, firstCode, Nat.zero_mul] at hfirst
  rw [rankValue_eq h rfl, hfirst, Nat.zero_add, Nat.zero_sub]

/-- Rule R111: the next code value is the one before plus 1, extended to the length of its symbol. -/
theorem rankValue_succ {r : Nat} (hr : r + 1 < (ranked lens).length) :
    rankValue lens (r + 1) = (rankValue lens r + 1) <<<
      (lens.getD (ranked lens)[r + 1] 0 - lens.getD ((ranked lens)[r]'(Nat.lt_of_succ_lt hr)) 0) := by
  have hr' := Nat.lt_of_succ_lt hr
  obtain ⟨hlow, hhigh⟩ := rank_bounds hr'
  obtain ⟨hlow', hhigh'⟩ := rank_bounds hr
  have hle := length_le_of_rank_le hr (Nat.le_succ r)
  rw [rankValue_eq hr rfl, rankValue_eq hr' rfl, Nat.shiftLeft_eq]
  generalize lens.getD (ranked lens)[r] 0 = l at *
  generalize lens.getD (ranked lens)[r + 1] 0 = l' at *
  obtain ⟨d, rfl⟩ := Nat.exists_eq_add_of_le hle
  rw [Nat.add_sub_cancel_left]
  cases d with
  | zero => simp only [Nat.add_zero, pow_zero, Nat.mul_one]; omega
  | succ d =>
    have hmono := shorter_mono lens (show l + 1 ≤ l + 1 + d by omega)
    rw [show l + (d + 1) = l + 1 + d by omega] at *
    rw [firstCode_add (l := l + 1) (by omega), firstCode, show r + 1 - shorter lens (l + 1 + d) = 0 by omega]
    rw [shorter_succ] at hhigh hmono
    rw [show firstCode lens l + (r - shorter lens l) + 1 = firstCode lens l + lens.count l by omega, pow_succ]
    ring

/-- A list of values that begins as `codeValues` and goes on by its rule is `codeValues`. -/
theorem codeValues_getD {ls : List Nat} (f : Nat → Nat)
    (hf : ∀ r (hr : r + 1 < ls.length), f (r + 1) = (f r + 1) <<< (ls[r + 1] - ls[r])) {r : Nat}
    (hr : r < ls.length) : (codeValues (f 0) ls).getD r 0 = f r := by
  induction ls generalizing f r with
  | nil => cases hr
  | cons l ls ih =>
    cases ls with
    | nil =>
      obtain rfl : r = 0 := by simpa using hr
      rfl
    | cons l' ls =>
      cases r with
      | zero => rfl
      | succ r =>
        have hfirst : f 1 = (f 0 + 1) <<< (l' - l) := hf 0 (by simp)
        rw [codeValues, List.getD_cons_succ, ← hfirst]
        exact ih (fun r => f (r + 1)) (fun r hr => hf (r + 1) (Nat.succ_lt_succ hr)) (Nat.lt_of_succ_lt_succ hr)

/-- The canonical code of a symbol is the code value of its rank, in its length. -/
theorem canonicalCode_eq_some {sym : Nat} {code : List Bool} (h : canonicalCode lens sym = some code) :
    ∃ r, ∃ hr : r < (ranked lens).length, (ranked lens)[r] = sym ∧
      code = fieldBits (lens.getD sym 0) (rankValue lens r) := by
  obtain ⟨r, hidx, rfl⟩ := Option.map_eq_some_iff.1 h
  obtain ⟨hr, hsym, -⟩ := List.idxOf?_eq_some_iff.1 hidx
  refine ⟨r, hr, by simpa [ranked] using hsym, ?_⟩
  rw [← codeValues_getD (ls := (ranked lens).map fun i => lens.getD i 0) (rankValue lens) (fun r hr => ?_)
    (by rwa [List.length_map])]
  · rw [rankValue_zero (Nat.zero_lt_of_lt hr)]
    rfl
  · simp only [List.getElem_map]
    exact rankValue_succ (by simpa using hr)

/-! ### The tables built (rules R205, R206) -/

/-- The loop of `BuildLimitBase` before the pass of length `m`, begun at length `a`. -/
structure LimitBase.Before (lens : List Nat) (a m : Nat) (r : LimitBase) : Prop where
  wf : r.limit.wf ∧ r.base.wf
  vec : r.vec = firstCode lens m
  cum : r.cum = shorter lens m
  limit : ∀ l, r.limit.read l =
    if a ≤ l ∧ l < m then ((firstCode lens l + lens.count l : Nat) : Int) - 1 else LimitBase.start.limit.read l
  base : ∀ l, a ≤ l → l < m → r.base.read l = firstCode lens l - shorter lens l

theorem LimitBase.Before.pass {a m : Nat} {r : LimitBase} (h : r.Before lens a m) (ham : a ≤ m) :
    (r.pass m (lens.count m)).Before lens a (m + 1) where
  wf := r.pass_wf m _ h.wf
  vec := by rw [LimitBase.pass, h.vec, firstCode]
  cum := by rw [LimitBase.pass, h.cum, shorter_succ]
  limit l := by
    rw [LimitBase.pass, Mem.read_write h.wf.1, h.vec, h.limit]
    rcases Nat.lt_trichotomy l m with hlt | rfl | hlt
    · rw [if_neg hlt.ne, if_congr (show a ≤ l ∧ l < m ↔ a ≤ l ∧ l < m + 1 by omega) rfl rfl]
    · rw [if_pos rfl, if_pos (by omega)]
    · rw [if_neg (by omega), if_neg (by omega), if_neg (by omega)]
  base l hal hlm := by
    rw [LimitBase.pass, Mem.read_write h.wf.2, h.vec, h.cum]
    split
    · next heq => rw [heq]
    · exact h.base l hal (by omega)

theorem before_foldl {a : Nat} (ha : a ≤ leastOf lens) (d : Nat) :
    LimitBase.Before lens a (a + d)
      ((List.range' a d).foldl (fun r l => r.pass l (lens.count l)) LimitBase.start) := by
  induction d with
  | zero =>
    obtain ⟨hshorter, hfirst⟩ := first_of_le_leastOf ha
    exact ⟨LimitBase.start_wf, hfirst.symm, hshorter.symm, fun l => by simp [show ¬ (a ≤ l ∧ l < a) by omega],
      fun l h h' => by omega⟩
  | succ d ih =>
    rw [List.range'_1_concat, List.foldl_append]
    exact ih.pass (Nat.le_add_right a d)

/-- The whole loop of `BuildLimitBase`: every length up to the greatest has been passed. -/
theorem before_limitBaseOf (lens : List Nat) : ∃ m, (∀ l, leastOf lens ≤ l → (l < m ↔ l ≤ greatestOf lens)) ∧
    (limitBaseOf lens (leastOf lens) (greatestOf lens)).Before lens (leastOf lens) m :=
  ⟨_, fun l hl => by omega, before_foldl le_rfl (greatestOf lens + 1 - leastOf lens)⟩

theorem start_limit_read {l : Nat} (hl : l < limitSize) : LimitBase.start.limit.read l = -1 := by
  rw [LimitBase.start, Mem.read_fromList, if_pos (Nat.zero_le l), Nat.sub_zero, List.getD_replicate _ hl]

end Lengths

section Built

variable {t : HuffTable} {n : Nat}

/-- The limit of a length between the least and the greatest is its last code value. -/
theorem build_limit_read (t : HuffTable) (n l : Nat) : (t.build n).limit.read l =
    if leastOf (t.lens n) ≤ l ∧ l ≤ greatestOf (t.lens n) then
      ((firstCode (t.lens n) l + (t.lens n).count l : Nat) : Int) - 1
    else LimitBase.start.limit.read l := by
  obtain ⟨m, hm, hbefore⟩ := before_limitBaseOf (t.lens n)
  refine (hbefore.limit l).trans ?_
  simp only [and_congr_right (hm l)]

/-- The base of a length that occurs is its first code value less the rank of its first symbol. -/
theorem build_base_read {l : Nat} (hl : l ∈ t.lens n) :
    (t.build n).base.read l = firstCode (t.lens n) l - shorter (t.lens n) l := by
  obtain ⟨m, hm, hbefore⟩ := before_limitBaseOf (t.lens n)
  exact hbefore.base l (leastOf_le hl) ((hm l (leastOf_le hl)).2 (le_greatestOf hl))

/-- The comparison of `DecodeCode` with the limit: the value is beyond the code values of its length. -/
theorem build_limit_lt_iff {l v : Nat} (hl : l < limitSize) (hv : firstCode (t.lens n) l ≤ v) :
    (t.build n).limit.read l < (v : Int) ↔ firstCode (t.lens n) l + (t.lens n).count l ≤ v := by
  rw [build_limit_read, start_limit_read hl]
  split
  · omega
  · next hout =>
    have hcount : (t.lens n).count l = 0 := List.count_eq_zero.2 fun hmem => by
      have := leastOf_le hmem
      have := le_greatestOf hmem
      omega
    omega

/-- A code value is resolved to the symbol of its rank. -/
theorem resolveCode_build (hn : n ≤ maxAlpha) {l v : Nat} (h : CodeValue (t.lens n) l v) (c : BitCursor) :
    resolveCode (t.build n) n l v c = .ok ((t.build n).perm.read (codeRank (t.lens n) l v)) l v c := by
  have hidx : (v : Int) - ((t.build n).base.read l : Int) = (codeRank (t.lens n) l v : Int) := by
    have := h.ge
    have := shorter_le_firstCode (t.lens n) l
    rw [build_base_read h.mem, codeRank]
    omega
  obtain ⟨hrank, -⟩ := h.length_eq
  rw [length_ranked, HuffTable.length_lens] at hrank
  unfold resolveCode
  simp only [hidx, Int.toNat_natCast]
  rw [if_neg (by omega), if_neg (by omega)]

theorem build_perm_read_ranked (hw : t.perm.wf) {r : Nat} (hr : r < (ranked (t.lens n)).length) :
    (t.build n).perm.read r = (ranked (t.lens n))[r] := by
  rw [HuffTable.build_perm_read hw]
  exact List.getD_eq_getElem _ _ hr

end Built

/-! ### Decoding a code (rule R232) -/

section Decoding

variable {t : HuffTable} {n : Nat}

theorem extendCode_of_le_limit {k zn zvec : Nat} {c : BitCursor} (h : ¬ t.limit.read zn < (zvec : Int)) :
    extendCode t n k zn zvec c = resolveCode t n zn zvec c := by
  cases k <;> rw [extendCode, if_neg h]

theorem bitsValue_concat (bs : List Bool) (b : Bool) : bitsValue (bs ++ [b]) = 2 * bitsValue bs + b.toNat := by
  rw [bitsValue_append, bitsValue_cons]
  show bitsValue bs * 2 + (b.toNat * 1 + 0) = _
  omega

/-- What `DecodeCode` may answer at the bits `bits`: a symbol whose length is the number of bits consumed, a rejection
after 20 bits, or the end of a source with fewer bits. -/
def CodeRead.FromBits (t : HuffTable) (n : Nat) (bits : List Bool) : CodeRead → Prop
  | .ok sym zn zvec c => sym < n ∧ t.len.read sym = zn ∧ zn ≤ 20 ∧
      ∃ bs, bits = bs ++ c.bits ∧ bs.length = zn ∧ zvec = bitsValue bs
  | .reject f c => (f = .invalidHuffmanCode ∧ ∃ bs, bits = bs ++ c.bits ∧ bs.length = 20) ∨
      (f = .unexpectedEndOfInput ∧ bits.length < 20)
  | .stop _ => False

/-- The bits read are a code: the loop ends with its symbol. -/
theorem extendCode_of_codeValue (hn : n ≤ maxAlpha) {k l v : Nat} (hl : l < limitSize) (h : CodeValue (t.lens n) l v)
    (c : BitCursor) :
    extendCode (t.build n) n k l v c = .ok ((t.build n).perm.read (codeRank (t.lens n) l v)) l v c := by
  have := h.lt
  rw [extendCode_of_le_limit (by rw [build_limit_lt_iff hl h.ge]; omega), resolveCode_build hn h]

theorem extendCode_fromBits_of_codeValue (hn : n ≤ maxAlpha) (hw : t.perm.wf) {k : Nat} {bs : List Bool}
    {c : BitCursor} (h20 : bs.length ≤ 20) (h : CodeValue (t.lens n) bs.length (bitsValue bs)) :
    (extendCode (t.build n) n k bs.length (bitsValue bs) c).FromBits t n (bs ++ c.bits) := by
  have hsize : limitSize = 22 := rfl
  obtain ⟨hr, hlen⟩ := h.length_eq
  have hsym : (t.build n).perm.read _ < n := HuffTable.build_perm_lt hw (by simpa [length_ranked] using hr)
  rw [extendCode_of_codeValue hn (by omega) h]
  refine ⟨hsym, ?_, h20, bs, rfl, rfl, rfl⟩
  rw [← HuffTable.lens_getD t hsym, build_perm_read_ranked hw hr, hlen]

/-- The loop of `DecodeCode` after the bits `bs`: their value never falls below the first code value of their length. -/
theorem extendCode_fromBits (hn : n ≤ maxAlpha) (hw : t.perm.wf) {k : Nat} {bs : List Bool} {c : BitCursor}
    (hk : bs.length + k = 20) (hv : firstCode (t.lens n) bs.length ≤ bitsValue bs) :
    (extendCode (t.build n) n k bs.length (bitsValue bs) c).FromBits t n (bs ++ c.bits) := by
  have hsize : limitSize = 22 := rfl
  induction k generalizing bs c with
  | zero =>
    by_cases hlast : firstCode (t.lens n) bs.length + (t.lens n).count bs.length ≤ bitsValue bs
    · rw [extendCode, if_pos ((build_limit_lt_iff (by omega) hv).2 hlast)]
      exact .inl ⟨rfl, bs, rfl, hk⟩
    · exact extendCode_fromBits_of_codeValue hn hw (by omega) ⟨hv, by omega⟩
  | succ k ih =>
    by_cases hlast : firstCode (t.lens n) bs.length + (t.lens n).count bs.length ≤ bitsValue bs
    · rw [extendCode, if_pos ((build_limit_lt_iff (by omega) hv).2 hlast)]
      rcases readBits_one_cases c with ⟨b, c', hread, hbits⟩ | ⟨c', hread, hbits⟩
      · have hnext := ih (bs := bs ++ [b]) (c := c') (by simp; omega) (by
          rw [bitsValue_concat, List.length_append, List.length_singleton, firstCode]; omega)
        rw [bitsValue_concat, List.length_append, List.length_singleton, List.append_assoc] at hnext
        rw [hread, hbits]
        exact hnext
      · rw [hread]
        exact .inr ⟨rfl, by rw [List.length_append, hbits, List.length_nil]; omega⟩
    · exact extendCode_fromBits_of_codeValue hn hw (by omega) ⟨hv, by omega⟩

theorem decodeCode_fromBits (h0 : 1 ≤ n) (hn : n ≤ maxAlpha) (hw : t.perm.wf) (hlegal : LegalLengths (t.lens n))
    (c : BitCursor) : (decodeCode (t.build n) n c).FromBits t n c.bits := by
  have hmax : maxCodeLen = 20 := rfl
  have hsize : limitSize = 22 := rfl
  obtain ⟨h1, h20⟩ := leastOf_legal hlegal (List.ne_nil_of_length_pos (by rwa [HuffTable.length_lens]))
  unfold decodeCode
  rw [HuffTable.build_minLen, if_neg (by omega)]
  rcases c.readBits_cases h1 (by omega) with ⟨bs, rest, c', hlen, hbits, hread, rfl, -⟩ | ⟨hshort, c', hread, -⟩
  · obtain ⟨-, hfirst⟩ := first_of_le_leastOf hlen.le
    rw [hread, hbits, ← hlen]
    exact extendCode_fromBits hn hw (by omega) (by omega)
  · rw [hread]
    exact .inr ⟨rfl, by omega⟩

/-- A proper first part of a code is beyond the code values of its length. -/
theorem lt_bitsValue_of_append {lens : List Nat} {bs suf : List Bool} (hsuf : suf ≠ [])
    (h : CodeValue lens (bs ++ suf).length (bitsValue (bs ++ suf))) :
    firstCode lens bs.length + lens.count bs.length ≤ bitsValue bs := by
  obtain ⟨d, hd⟩ : ∃ d, suf.length = 1 + d := Nat.exists_eq_add_of_le (List.length_pos_iff.2 hsuf)
  refine Nat.le_of_lt_succ (Nat.lt_of_mul_lt_mul_right (a := 2 ^ suf.length) ?_)
  calc (firstCode lens bs.length + lens.count bs.length) * 2 ^ suf.length
    _ = firstCode lens (bs.length + 1) * 2 ^ d := by rw [hd, firstCode, pow_add]; ring
    _ ≤ firstCode lens (bs.length + 1 + d) := firstCode_mul_le _ _ _
    _ = firstCode lens (bs ++ suf).length := by rw [List.length_append, hd, Nat.add_assoc]
    _ ≤ bitsValue (bs ++ suf) := h.ge
    _ < (bitsValue bs + 1) * 2 ^ suf.length := by
      have := bitsValue_lt suf
      rw [bitsValue_append, Nat.succ_mul]
      omega

/-- The loop of `DecodeCode` in the middle of a code: it reads on to the end of the code. -/
theorem extendCode_of_code (hn : n ≤ maxAlpha) {k : Nat} {bs suf rest : List Bool} {c : BitCursor}
    (hk : bs.length + k = 20) (hlen : (bs ++ suf).length ≤ 20)
    (h : CodeValue (t.lens n) (bs ++ suf).length (bitsValue (bs ++ suf))) (hbits : c.bits = suf ++ rest) :
    ∃ zn zvec c', extendCode (t.build n) n k bs.length (bitsValue bs) c =
      .ok ((t.build n).perm.read (codeRank (t.lens n) (bs ++ suf).length (bitsValue (bs ++ suf)))) zn zvec c' ∧
      c'.bits = rest := by
  have hsize : limitSize = 22 := rfl
  induction suf generalizing k bs c with
  | nil =>
    rw [List.append_nil] at *
    exact ⟨_, _, c, extendCode_of_codeValue hn (by omega) h c, hbits⟩
  | cons b suf ih =>
    have hbefore := lt_bitsValue_of_append (List.cons_ne_nil b suf) h
    rw [List.append_cons] at *
    obtain ⟨k, rfl⟩ : ∃ k', k = k' + 1 := Nat.exists_eq_add_of_le' (by
      rw [List.length_append, List.length_append, List.length_singleton] at hlen
      omega)
    obtain ⟨c', hread, hrest, -⟩ := readBits_one hbits
    obtain ⟨zn, zvec, c'', hd, hrest'⟩ := ih (k := k) (bs := bs ++ [b]) (by simp; omega) hlen h hrest
    rw [bitsValue_concat, List.length_append, List.length_singleton] at hd
    refine ⟨zn, zvec, c'', ?_, hrest'⟩
    rw [extendCode, if_pos ((build_limit_lt_iff (by omega) (by omega)).2 hbefore), hread]
    exact hd

/-- A code met by the cursor is decoded as the symbol of its rank. -/
theorem decodeCode_of_code (hn : n ≤ maxAlpha) (hlegal : LegalLengths (t.lens n)) {code rest : List Bool}
    {c : BitCursor} (h : CodeValue (t.lens n) code.length (bitsValue code)) (hbits : c.bits = code ++ rest) :
    ∃ zn zvec c', decodeCode (t.build n) n c =
      .ok ((t.build n).perm.read (codeRank (t.lens n) code.length (bitsValue code))) zn zvec c' ∧ c'.bits = rest := by
  have hmax : maxCodeLen = 20 := rfl
  have hsize : limitSize = 22 := rfl
  obtain ⟨h1, -⟩ := leastOf_legal hlegal (List.ne_nil_of_mem h.mem)
  obtain ⟨-, h20⟩ := hlegal _ h.mem
  obtain ⟨bs, suf, rfl, hlen⟩ : ∃ bs suf, code = bs ++ suf ∧ bs.length = leastOf (t.lens n) :=
    ⟨_, _, (List.take_append_drop (leastOf (t.lens n)) code).symm, List.length_take_of_le (leastOf_le h.mem)⟩
  have hle := leastOf_le h.mem
  rw [List.append_assoc] at hbits
  obtain ⟨c', hread, hrest, -⟩ := BitCursor.readBits_of_bits h1 (by omega) hbits hlen
  unfold decodeCode
  rw [HuffTable.build_minLen, if_neg (by omega), hread, ← hlen]
  exact extendCode_of_code hn (by omega) h20 h hrest

/-- The canonical code of a symbol, with lengths that satisfy the Kraft sum, holds the code value of its rank. -/
theorem codeValue_of_canonicalCode {lens : List Nat} (hlegal : LegalLengths lens) (hkraft : KraftHolds lens)
    {sym : Nat} {code : List Bool} (hcode : canonicalCode lens sym = some code) :
    CodeValue lens code.length (bitsValue code) ∧
      ∃ hr, (ranked lens)[codeRank lens code.length (bitsValue code)]'hr = sym := by
  obtain ⟨r, hr, hsym, rfl⟩ := canonicalCode_eq_some hcode
  obtain ⟨hlow, hhigh⟩ := rank_bounds hr
  have hvalue := rankValue_eq hr rfl
  rw [hsym] at hlow hhigh hvalue
  have hlt : sym < lens.length := hsym ▸ (mem_symbolsByLength.1 (List.getElem_mem hr)).1
  have hmem : lens.getD sym 0 ∈ lens := List.getD_eq_getElem _ 0 hlt ▸ List.getElem_mem hlt
  generalize lens.getD sym 0 = l at *
  have hfit := firstCode_add_count_le hlegal hkraft (hlegal l hmem).2
  rw [shorter_succ] at hhigh
  rw [fieldBits_length, bitsValue_fieldBits, Nat.mod_eq_of_lt (by omega)]
  have hrank : codeRank lens l (rankValue lens r) = r := by rw [codeRank]; omega
  exact ⟨⟨by omega, by omega⟩, by omega, by simp only [hrank, hsym]⟩

/-- The canonical code of a symbol, met by the cursor, is decoded as that symbol. -/
theorem decodeCode_of_canonicalCode (hn : n ≤ maxAlpha) (hw : t.perm.wf) (hlegal : LegalLengths (t.lens n))
    (hkraft : KraftHolds (t.lens n)) {sym : Nat} {code rest : List Bool} {c : BitCursor}
    (hcode : canonicalCode (t.lens n) sym = some code) (hbits : c.bits = code ++ rest) :
    ∃ zn zvec c', decodeCode (t.build n) n c = .ok sym zn zvec c' ∧ c'.bits = rest := by
  obtain ⟨hvalue, hr, hsym⟩ := codeValue_of_canonicalCode hlegal hkraft hcode
  obtain ⟨zn, zvec, c', hdecode, hrest⟩ := decodeCode_of_code hn hlegal hvalue hbits
  exact ⟨zn, zvec, c', by rw [hdecode, build_perm_read_ranked hw hr, hsym], hrest⟩

/-- The symbol value of a symbol stands for that symbol (rule R112). -/
theorem symbolInstr_of_symbolValue {nInUse sym : Nat} {i : Instr} (h0 : 1 ≤ nInUse)
    (h : symbolValue nInUse i = some sym) : symbolInstr nInUse sym = i := by
  cases i with
  | runA => cases h; rfl
  | runB => cases h; rfl
  | mtfv k =>
    obtain ⟨⟨h2, hk⟩, hsome⟩ := Option.ite_none_right_eq_some.1 h
    obtain rfl := Option.some.inj hsome
    rw [symbolInstr, if_neg (by omega), if_neg (by omega), if_neg (by omega)]
  | eob =>
    cases h
    rw [symbolInstr, if_neg (by omega), if_neg (by omega), if_pos rfl]
  | _ => cases h

end Decoding

end Sys2Proof

section CodeStatements

open Sys2Proof

/-- Settles O13: the code of a symbol is its code value, which the limits and bases lead back to its rank. -/
theorem canonicalCodeRoundTrip : Obligations.CanonicalCodeRoundTrip := by
  intro t nInUse i code rest c h0 h256 hw hlegal hkraft he hbits
  obtain ⟨sym, hsym, hcode⟩ := Option.bind_eq_some_iff.1 he
  rw [HuffTable.lens_build] at hcode
  have hn : nInUse + 2 ≤ maxAlpha := Nat.add_le_add_right h256 2
  obtain ⟨zn, zvec, c', hdecode, hrest⟩ := decodeCode_of_canonicalCode hn hw hlegal hkraft hcode hbits
  refine ⟨c', ?_, hrest⟩
  rw [decode, hdecode, CodeRead.decoded, symbolInstr_of_symbolValue h0 hsym]

/-- Settles O44: while no code ends the value read is at least the first code value of its length. -/
theorem decodedCodeHasItsSymbolsLength : Obligations.DecodedCodeHasItsSymbolsLength := by
  intro t n c h0 hn hw hlegal
  have hanswer := decodeCode_fromBits h0 hn hw hlegal c
  cases hd : decodeCode (t.build n) n c with
  | ok sym zn zvec c' =>
    rw [hd] at hanswer
    obtain ⟨hsym, hlen, h20, bs, hbits, hbs, hvalue⟩ := hanswer
    exact .inl ⟨sym, zn, zvec, c', bs, rfl, hsym, hlen, hbits, hbs, hvalue, h20⟩
  | reject f c' =>
    rw [hd] at hanswer
    rcases hanswer with ⟨rfl, bs, hbits, hbs⟩ | ⟨rfl, hshort⟩
    · exact .inr (.inl ⟨c', bs, rfl, hbits, hbs⟩)
    · exact .inr (.inr ⟨c', rfl, hshort⟩)
  | stop u => rw [hd] at hanswer; exact hanswer.elim

end CodeStatements
end

section
/-! PROOFS. The encodings in a run: the element decoded in its place of the grammar is run or raises its fault (rules
R104, R116), and the mask bits of a randomised block (rule R120). -/

namespace Sys2Proof.Machine

/-! ### The element due (rules R104, R116, R310) -/

theorem outcome_fetchField_of_ok {ctx : Ctx} {s : State} {i : Instr} {c : BitCursor}
    (hd : decode ctx s.cur = .ok i c) :
    (fetchField ctx s).outcome = exec i { s with cur := c } := by
  rw [fetchField, hd]; rfl

theorem outcome_fetchField_of_reject {ctx : Ctx} {s : State} {f : FaultCode} {c : BitCursor}
    (hd : decode ctx s.cur = .reject f c) :
    (fetchField ctx s).outcome = .next (({ s with cur := c } : State).raise f) := by
  rw [fetchField, hd]; rfl

theorem eq_reject_of_decoded {r : CodeRead} {n : Nat} {f : FaultCode} {c : BitCursor}
    (h : r.decoded n = .reject f c) : r = .reject f c := by
  cases r <;> cases h
  rfl

/-- A symbol whose code is rejected. -/
theorem outcome_fetchSymbol_of_reject {s : State} {f : FaultCode} {c : BitCursor}
    (hg : s.dec.symIdx / gSize < s.tab.nSelectors) (hcap : s.tab.nSelectors ≤ config.selCap)
    (ht : s.tab.selector.read (s.dec.symIdx / gSize) < nGroupsMax)
    (hd : decodeCode (s.tab.huff.read (s.tab.selector.read (s.dec.symIdx / gSize))) s.alphaSize s.cur = .reject f c) :
    (fetchSymbol s).outcome = .next (({ s with cur := c } : State).raise f) := by
  rw [fetchSymbol]
  simp only
  rw [if_neg (by omega), if_neg (by omega), if_neg (by omega), hd]
  rfl

/-! ### The mask bits (rules R267, R120) -/

/-- `T[0] + ... + T[q - 1]`, the table being used cyclically. -/
def maskSum (q : Nat) : Nat := ((List.range q).map fun i => config.randTable.getD (i % 512) 0).sum

theorem maskSum_succ (q : Nat) : maskSum (q + 1) = maskSum q + config.randTable.getD (q % 512) 0 := by
  simp [maskSum, List.range_succ]

theorem two_le_randTable (q : Nat) : 2 ≤ config.randTable.getD (q % 512) 0 := by
  have hmem : ∀ n ∈ config.randTable, 2 ≤ n := by decide +kernel
  have hlen : config.randTable.length = 512 := by decide +kernel
  rw [List.getD_eq_getElem _ _ (by omega)]
  exact hmem _ (List.getElem_mem _)

theorem strictMono_maskSum : StrictMono maskSum := strictMono_nat_of_lt_succ fun q => by
  have := two_le_randTable q
  rw [maskSum_succ]
  omega

/-- The registers of the de-randomisation unit before call `m` of `RandStep()`: `q` entries of the table have been
loaded, the count-down reaches 0 when their sum has been counted, and the last of them was loaded before. -/
structure MaskRegs (m toGo tPos q : Nat) : Prop where
  counted : m + toGo = maskSum q
  next : tPos = q % 512
  loaded : 0 < toGo → ∃ p, q = p + 1 ∧ maskSum p < m

/-- A call of `RandStep()` loads the next entry if the count-down is 0, and counts one. -/
theorem MaskRegs.succ {m toGo tPos q : Nat} (h : MaskRegs m toGo tPos q) :
    ∃ q', MaskRegs (m + 1) ((randReload toGo tPos).1 - 1) (randReload toGo tPos).2 (q' + 1) ∧ maskSum q' ≤ m := by
  obtain ⟨hcounted, rfl, hloaded⟩ := h
  unfold randReload
  split
  · next hzero =>
    subst hzero
    have h2 := two_le_randTable q
    refine ⟨q, ⟨?_, ?_, fun _ => ⟨q, rfl, by omega⟩⟩, by omega⟩
    · rw [maskSum_succ]
      show m + 1 + (config.randTable.getD (q % 512) 0 - 1) = _
      omega
    · have hsize : randSize = 512 := rfl
      simp only
      split <;> omega
  · next hpos =>
    obtain ⟨p, rfl, hp⟩ := hloaded (by omega)
    exact ⟨p, ⟨by show m + 1 + (toGo - 1) = _; omega, rfl, fun _ => ⟨p, rfl, by omega⟩⟩, by omega⟩

/-- The answer of a call is 1 exactly at the running sums. -/
theorem MaskRegs.randBitOf_iff {m toGo tPos q : Nat} (h : MaskRegs m toGo tPos q) :
    randBitOf toGo tPos = true ↔ ∃ p, m + 2 = maskSum (p + 1) := by
  obtain ⟨q', h', hq'⟩ := h.succ
  have hcounted := h'.counted
  rw [randBitOf, decide_eq_true_eq]
  constructor
  · exact fun hone => ⟨q', by omega⟩
  · rintro ⟨p, hp⟩
    have hpq : p = q' := by
      have hnext := maskSum_succ (q' + 1)
      have h2 := two_le_randTable (q' + 1)
      rcases Nat.lt_trichotomy p q' with hlt | heq | hlt
      · have := strictMono_maskSum.monotone (show p + 1 ≤ q' from hlt)
        omega
      · exact heq
      · have := strictMono_maskSum.monotone (show q' + 1 + 1 ≤ p + 1 by omega)
        omega
    subst hpq
    omega

/-- The answers of the calls from number `m` on. -/
theorem maskBits_getElem? {m toGo tPos q n k : Nat} (h : MaskRegs m toGo tPos q) (hk : k < n) :
    (maskBits n toGo tPos)[k]? = some true ↔ ∃ p, m + k + 2 = maskSum (p + 1) := by
  induction k generalizing m toGo tPos q n with
  | zero =>
    obtain ⟨n, rfl⟩ := Nat.exists_eq_add_of_le' hk
    simpa [maskBits] using h.randBitOf_iff
  | succ k ih =>
    obtain ⟨n, rfl⟩ := Nat.exists_eq_add_of_le' (Nat.one_le_of_lt hk)
    obtain ⟨q', h', -⟩ := h.succ
    rw [maskBits, List.getElem?_cons_succ, ih h' (by omega), Nat.add_right_comm m 1 k, Nat.add_assoc m k 1]

end Sys2Proof.Machine

section ElementStatements

open Sys2Proof Sys2Proof.Machine

/-- Settles O19: outside the symbols the element due is fetched by its place in the grammar. -/
theorem stepRunsTheStreamElement : Obligations.StepRunsTheStreamElement := by
  intro s ctx i c' hctx hsym hlen hd
  rw [step, fetch_of_ctx hctx hsym hlen, outcome_fetchField_of_ok hd]

/-- Settles O40: each is one update of the current length. -/
theorem codeLengthIsAdjusted : Obligations.CodeLengthIsAdjusted := fun _ _ => ⟨rfl, rfl, rfl⟩

/-- Settles O22: a rejection, of a code or of any other element, is raised with the cursor behind the bits read. -/
theorem rejectedElementRaises : Obligations.RejectedElementRaises := by
  intro s ctx f c' hctx hlen hsel hd
  by_cases hsym : s.phase = .symbol
  · obtain ⟨hg, hcap, ht⟩ := hsel hsym
    have hdue : s.ctx =
        some (.symbol (s.tab.huff.read (s.tab.selector.read (s.dec.symIdx / gSize))) s.tab.nInUse) := by
      rw [State.ctx, hsym]
    obtain rfl := Option.some.inj (hctx.symm.trans hdue)
    rw [step, fetch, hsym]
    exact outcome_fetchSymbol_of_reject hg hcap ht (eq_reject_of_decoded hd)
  · rw [step, fetch_of_ctx hctx hsym hlen]
    exact outcome_fetchField_of_reject hd

/-- Settles O54: the registers of the de-randomisation unit count down the running sums of the table. -/
theorem maskBitsAtRunningSums : Obligations.MaskBitsAtRunningSums := by
  intro n m hm
  have hstart : MaskRegs 0 0 0 0 := ⟨rfl, rfl, fun h => absurd h (lt_irrefl 0)⟩
  have h := maskBits_getElem? hstart hm
  rwa [Nat.zero_add] at h

end ElementStatements
end

section
/-! PROOFS. The host commands (40_host_commands.md rules R150 to R158): what each does when its entry checks pass, and
START from its command word to its response (rules R151, R180). -/

namespace Sys2Proof

/-! ### The four bytes of a stream header (rules R105, R180) -/

/-- Words joined side by side are equal only part by part. -/
theorem append_inj {m n : Nat} {a a' : BitVec m} {b b' : BitVec n} (h : a ++ b = a' ++ b') : a = a' ∧ b = b' := by
  have hleft := congrArg (BitVec.extractLsb' n m) h
  have hright := congrArg (BitVec.extractLsb' 0 n) h
  rw [BitVec.extractLsb'_append_eq_left, BitVec.extractLsb'_append_eq_left] at hleft
  rw [BitVec.extractLsb'_append_eq_right, BitVec.extractLsb'_append_eq_right] at hright
  exact ⟨hleft, hright⟩

/-- Four bytes with a class digit are the signature and that digit. -/
theorem bytes_of_headerDigit {h0 h1 h2 h3 d : Byte} (h : headerDigit (h0 ++ h1 ++ h2 ++ h3) = some d) :
    h0 = 0x42#8 ∧ h1 = 0x5A#8 ∧ h2 = 0x68#8 ∧ h3 = d := by
  have hword : h0 ++ h1 ++ h2 ++ h3 = 0x42#8 ++ 0x5A#8 ++ 0x68#8 ++ d := eq_headerWord h
  obtain ⟨hword, hdigit⟩ := append_inj hword
  obtain ⟨hword, hthird⟩ := append_inj hword
  obtain ⟨hfirst, hsecond⟩ := append_inj hword
  exact ⟨hfirst, hsecond, hthird, hdigit⟩

/-- Four whole bytes at the cursor are read as one word. -/
theorem readBytes_four {c : BitCursor} {h0 h1 h2 h3 : Byte} {rest : List Bool}
    (hbits : c.bits = byteBits h0 ++ byteBits h1 ++ byteBits h2 ++ byteBits h3 ++ rest) :
    ∃ c', c.readBytes 4 0 = .ok (h0 ++ h1 ++ h2 ++ h3).toNat c' ∧ c'.bits = rest ∧ c.Reads 32 c' := by
  have hfield : byteBits h0 ++ byteBits h1 ++ byteBits h2 ++ byteBits h3 =
      fieldBits (8 + 8 + 8 + 8) (h0 ++ h1 ++ h2 ++ h3).toNat := by
    simp only [fieldBits_append, byteBits_eq_fieldBits]
  rw [hfield] at hbits
  obtain ⟨c', hread, hrest, hreads⟩ := BitCursor.readBytes_of_bits (n := 4) 0 hbits (by simp)
  rw [bitsValue_fieldBits, Nat.mod_eq_of_lt (BitVec.isLt _), Nat.zero_mul, Nat.zero_add] at hread
  exact ⟨c', hread, hrest, hreads⟩

theorem decode_streamHdr_of_some {c c' : BitCursor} {w : BitVec 32} {h3 : Byte}
    (hread : c.readBytes 4 0 = .ok w.toNat c') (hd : headerDigit w = some h3) :
    decode .streamHdr c = .ok (.streamHdr h3) c' := by
  simp [decode, hread, BitRead.decoded, hd]

theorem decode_streamHdr_of_none {c c' : BitCursor} {w : BitVec 32}
    (hread : c.readBytes 4 0 = .ok w.toNat c') (hd : headerDigit w = none) :
    decode .streamHdr c = .reject .invalidStreamHeader c' := by
  simp [decode, hread, BitRead.decoded, hd]

end Sys2Proof

namespace Sys2Proof.Machine

variable {s : State}

/-! ### Commands whose entry checks pass, and those the port does not support (rule R150) -/

/-- A command the lifecycle allows runs its body. -/
theorem enter_of_allowed {op : HostOp} (hf : s.fault = none) (hc : s.closed = false) (hu : unsupported op = false)
    (hstart : op = .start → s.started = false) (hread : op = .read ∨ op = .readBulk → s.started = true)
    (body : State → State) : s.enter op body = .next (body s) := by
  have hnew : ¬ (op = .start ∧ s.started = true) := fun ⟨ho, h⟩ => by simp [hstart ho] at h
  have hopen : ¬ ((op = .read ∨ op = .readBulk) ∧ ¬ s.started = true) := fun ⟨ho, h⟩ => h (hread ho)
  have hrun : entryCheck op s = .run := by
    simp only [entryCheck, hf, hc, hu, hnew, hopen, if_false, ite_self, Bool.false_eq_true]
  rw [State.enter, hrun]

theorem exec_start_of_allowed (hf : s.fault = none) (hc : s.closed = false) (hs : s.started = false) (arg : Word) :
    exec (.start arg) s = .next { s with phase := .streamHdr } := by
  rw [exec, execStart, enter_of_allowed hf hc rfl (fun _ => hs) (by simp)]

theorem exec_read_of_allowed (hf : s.fault = none) (hc : s.closed = false) (hs : s.started = true) (arg : Word) :
    exec (.read arg) s = .next (if s.streamEnd then s.respond .eod else { s with phase := .pull }) := by
  rw [exec, execRead, enter_of_allowed hf hc rfl (by simp) (fun _ => hs)]

theorem exec_readBulk_of_allowed (hf : s.fault = none) (hc : s.closed = false) (hs : s.started = true) (n : Word) :
    exec (.readBulk n) s = .next (if n.toNat = 0 ∨ s.streamEnd then s.respond (.data [])
      else { s with phase := .pull, bulk := some { wanted := n.toNat, got := [] } }) := by
  rw [exec, execReadBulk, enter_of_allowed hf hc rfl (by simp) (fun _ => hs)]

/-- A closed port with no fault latched rejects every command but CLOSE. -/
theorem exec_of_closed {i : Instr} {w : CmdWord} (hf : s.fault = none) (hc : s.closed = true)
    (hi : encodeCommand i = some w) (hclose : ∀ a, i ≠ .close a) :
    exec i s = .next (s.raise .hostProtocolViolation) := by
  cases i with
  | start _ | read _ | readBulk _ | write _ | seek _ | setLength _ | getLength _ =>
    simp [exec, execStart, execRead, execReadBulk, execWrite, execSeek, execSetLength, execGetLength,
      enter_of_closed hf hc]
  | close a => exact absurd rfl (hclose a)
  | _ => cases hi

/-- An unsupported operation raises on an open port with no fault latched, whatever its operand. -/
theorem exec_of_unsupported {op : HostOp} (hu : unsupported op = true) (hf : s.fault = none) (hc : s.closed = false)
    (arg : Word) : exec (op.instr arg) s = .next (s.raise .unsupportedOperation) := by
  have hclose : op ≠ .close := by rintro rfl; cases hu
  have hcheck : entryCheck op s = .violation .unsupportedOperation := by simp [entryCheck, hclose, hf, hc, hu]
  have henter : exec (op.instr arg) s = s.enter op fun s => s.raise .unsupportedOperation := by
    cases op with
    | write | seek | setLength | getLength => rfl
    | start | read | readBulk | close => cases hu
  rw [henter, State.enter, hcheck]

/-! ### START, from its command word to its response (rules R151, R180) -/

/-- START at rest, with nothing that forbids it, makes the header due. -/
theorem step_start (hp : s.phase = .idle) (hf : s.fault = none) (hc : s.closed = false) (hs : s.started = false)
    (arg : Word) : step { s with cmds := commandWord .start arg :: s.cmds } = .next { s with phase := .streamHdr } := by
  rw [step_of_command (s := { s with cmds := commandWord .start arg :: s.cmds }) hp rfl, decodeCommand_commandWord]
  exact exec_start_of_allowed hf hc hs arg

/-- Two steps that answer a next state. -/
theorem run_two {t u : State} (h : step s = .next t) (h' : step t = .next u) : run 2 s = .next u :=
  (run_succ h).trans (run_succ h')

end Sys2Proof.Machine

section CommandStatements

open Sys2Proof Sys2Proof.Machine

/-- Settles O18: at rest nothing but a command is due. -/
theorem stepRunsTheCommandAtRest : Obligations.StepRunsTheCommandAtRest :=
  fun _ hp => ⟨fun _ _ hc => step_of_command hp hc, step_of_rest hp⟩

/-- Settles O26: the code is that of the operation, the answer that of the entry check. -/
theorem unsupportedOperationsRaise : Obligations.UnsupportedOperationsRaise := by
  rintro s _ code arg i hmem rfl
  obtain ⟨op, hu, rfl, rfl⟩ : ∃ op, unsupported op = true ∧ code = op.code ∧ i = op.instr arg := by
    simp only [List.mem_cons, List.not_mem_nil, or_false, Prod.mk.injEq] at hmem
    rcases hmem with ⟨rfl, rfl⟩ | ⟨rfl, rfl⟩ | ⟨rfl, rfl⟩ | ⟨rfl, rfl⟩
    · exact ⟨.write, rfl, rfl, rfl⟩
    · exact ⟨.seek, rfl, rfl, rfl⟩
    · exact ⟨.setLength, rfl, rfl, rfl⟩
    · exact ⟨.getLength, rfl, rfl, rfl⟩
  have hclose : ∀ a, op.instr arg ≠ .close a := by
    cases op with
    | close => cases hu
    | _ => simp [HostOp.instr]
  have hword := encodeCommand_instr op arg
  refine ⟨⟨_, hword, cmdOp_commandWord op arg, cmdArg_commandWord op arg, decodeCommand_commandWord op arg⟩,
    fun hf hc => ⟨exec_of_unsupported hu hf hc arg, fun _ _ hj hj' => ?_⟩,
    fun _ hf => exec_of_fault hf hword hclose, fun hf hc => exec_of_closed hf hc hword hclose⟩
  exact exec_of_fault rfl hj hj'

/-- Settles O27: the four bytes are read as one word, which is a header with the digit `h3`. -/
theorem startConsumesTheHeader : Obligations.StartConsumesTheHeader := by
  intro s arg h3 rest hp hb hf hc hs h1 h9 hbits
  obtain ⟨c', hread, hrest, hreads⟩ := readBytes_four hbits
  have hd := decode_streamHdr_of_some hread (headerDigit_headerWord h1 h9)
  refine ⟨exec_start_of_allowed hf hc hs arg, c', hrest, hreads.src, fun hw => (hreads.wf hw).2, ?_⟩
  have hclass : h3.toNat - config.digit1.toNat + 1 = h3.toNat - 0x30 := by
    have h : 0x31 ≤ h3.toNat := h1
    show h3.toNat - 0x31 + 1 = _
    omega
  have hstep := stepRunsTheStreamElement { s with phase := .streamHdr } _ _ _ rfl nofun nofun hd
  refine run_two (step_start hp hf hc hs arg) (hstep.trans ?_)
  simp only [exec, execStreamHdr, hclass, State.respond, hp, hb]

/-- Settles O28: four bytes that are no header are read and rejected. -/
theorem startRejectsABadHeader : Obligations.StartRejectsABadHeader := by
  intro s arg h0 h1 h2 h3 rest hp hb hf hc hs hbits hbad
  obtain ⟨c', hread, hrest, hreads⟩ := readBytes_four hbits
  have hdigit : headerDigit (h0 ++ h1 ++ h2 ++ h3) = none := by
    refine Option.eq_none_iff_forall_ne_some.2 fun d hd => hbad ?_
    obtain ⟨e0, e1, e2, rfl⟩ := bytes_of_headerDigit hd
    exact ⟨e0, e1, e2, headerDigit_some hd⟩
  have hd := decode_streamHdr_of_none hread hdigit
  refine ⟨c', hrest, hreads.src, ?_⟩
  have hstep := rejectedElementRaises { s with phase := .streamHdr } _ _ _ rfl nofun nofun hd
  refine run_two (step_start hp hf hc hs arg) (hstep.trans ?_)
  simp only [hp, hb]

/-- Settles O31: CLOSE has no entry check, and what follows meets the latched fault or the closed port. -/
theorem closeAlwaysWorks : Obligations.CloseAlwaysWorks := by
  rintro s _ a rfl
  refine ⟨cmdOp_commandWord .close a, decodeCommand_commandWord .close a, ?_,
    fun i w hi hclose => ⟨fun f hf => exec_of_fault hf hi hclose, fun hf => exec_of_closed hf rfl hi hclose⟩⟩
  exact enter_close s fun s => ({ s with srcClosed := true, closed := true } : State).respond .ok

/-- Settles O29: the bodies of READ and READ_BULK, by whether the stream has ended and whether any byte is wanted. -/
theorem readsBeginOrEnd : Obligations.ReadsBeginOrEnd := by
  intro s arg n hf hc hs
  have hread := exec_read_of_allowed hf hc hs arg
  have hbulk := exec_readBulk_of_allowed hf hc hs n
  have hzero : n = 0 ↔ n.toNat = 0 := BitVec.toNat_inj.symm
  refine ⟨fun he => ?_, fun he => ?_, fun hend => ?_, fun hn he => ?_⟩
  · rw [hread, if_pos he]; rfl
  · rw [hread, he]; rfl
  · rw [hbulk, if_pos (hend.imp_left hzero.1)]; rfl
  · rw [hbulk, if_neg (by simp [he, hzero.not.1 hn])]

/-- Settles O32: the class digit is one of the nine. -/
theorem streamHeaderSetsTheClass : Obligations.StreamHeaderSetsTheClass := by
  intro s h3 hwf
  obtain ⟨h1, h9⟩ : config.digit1 ≤ h3 ∧ h3 ≤ config.digit9 := by simpa [Instr.wellFormed] using hwf
  have h9 : h3.toNat ≤ 0x39 := h9
  refine ⟨rfl, by omega, ?_⟩
  show h3.toNat - 0x31 + 1 ≤ 9
  omega

end CommandStatements
end

section
/-! PROOFS. READ_BULK as repeated READ (40_host_commands.md rule R153): every part of a command does inside a READ_BULK
what it does inside a READ, and the two differ only where the host is answered. -/

namespace Sys2Proof.Machine

variable {k : Bulk} {rs : List Response} {s t t' u : State}

/-- The same position inside the READ_BULK `k`. -/
def State.inBulk (k : Bulk) (s : State) : State := { s with bulk := some k }

namespace State

@[simp] theorem inBulk_phase (k : Bulk) (s : State) : (s.inBulk k).phase = s.phase := rfl
@[simp] theorem inBulk_cur (k : Bulk) (s : State) : (s.inBulk k).cur = s.cur := rfl
@[simp] theorem inBulk_ps (k : Bulk) (s : State) : (s.inBulk k).ps = s.ps := rfl
@[simp] theorem inBulk_tab (k : Bulk) (s : State) : (s.inBulk k).tab = s.tab := rfl
@[simp] theorem inBulk_dec (k : Bulk) (s : State) : (s.inBulk k).dec = s.dec := rfl
@[simp] theorem inBulk_blk (k : Bulk) (s : State) : (s.inBulk k).blk = s.blk := rfl
@[simp] theorem inBulk_pull (k : Bulk) (s : State) : (s.inBulk k).pull = s.pull := rfl
@[simp] theorem inBulk_alphaSize (k : Bulk) (s : State) : (s.inBulk k).alphaSize = s.alphaSize := rfl

end State

/-- What a part of a READ ends in, `rs` being the responses before it, and what the same part ends in inside the
READ_BULK `k`: an answer that is neither a byte nor the end of data is given alone. -/
inductive Mirrors (k : Bulk) (rs : List Response) : State → State → Prop
  | goesOn {u : State} (hr : u.responses = rs) : Mirrors k rs u (u.inBulk k)
  | alone {u : State} {r : Response} (hr : u.responses = rs) (hbyte : ∀ b, r ≠ .byte b) (heod : r ≠ .eod) :
    Mirrors k rs (u.respond r) (u.respond r)
  | moreWanted {u : State} {b : Byte} (hr : u.responses = rs) (hk : k.got.length + 1 < k.wanted) :
    Mirrors k rs (u.respond (.byte b)) { u with phase := .pull, bulk := some { k with got := k.got ++ [b] } }
  | lastWanted {u : State} {b : Byte} (hr : u.responses = rs) (hk : ¬ k.got.length + 1 < k.wanted) :
    Mirrors k rs (u.respond (.byte b)) (u.respond (.data (k.got ++ [b])))
  | eod {u : State} (hr : u.responses = rs) : Mirrors k rs (u.respond .eod) (u.respond (.data k.got))

namespace Mirrors

theorem raise {f : FaultCode} (hr : u.responses = rs) : Mirrors k rs (u.raise f) ((u.inBulk k).raise f) :=
  alone (u := { u with fault := some f }) hr nofun nofun

theorem respondEod (hr : u.responses = rs) (hb : u.bulk = none) :
    Mirrors k rs u.respondEod (u.inBulk k).respondEod := by
  rw [State.respondEod, hb]
  exact eod hr

theorem output {b : Byte} (hr : u.responses = rs) (hb : u.bulk = none) :
    Mirrors k rs (u.output b) ((u.inBulk k).output b) := by
  have hbulk : ((u.inBulk k).crcUpdate b).bulk = some k := rfl
  rw [State.output, State.output, State.respondByte_of_single b (s := u.crcUpdate b) hb]
  by_cases hk : k.got.length + 1 < k.wanted
  · rw [State.respondByte_of_more b hbulk hk]
    exact moreWanted (u := u.crcUpdate b) hr hk
  · rw [State.respondByte_of_last b hbulk hk]
    exact lastWanted (u := u.crcUpdate b) hr hk

/-! The four answers of a READ, and what the READ_BULK has then. -/

theorem of_no_answer (h : Mirrors k rs t t') (ht : t.responses = rs) : t' = t.inBulk k := by
  cases h with
  | goesOn => rfl
  | alone hr | moreWanted hr | lastWanted hr | eod hr => simp [hr] at ht

theorem of_byte {b : Byte} (h : Mirrors k rs t t') (ht : t.responses = rs ++ [.byte b]) :
    t' = if k.got.length + 1 < k.wanted then
        { t with responses := rs, phase := .pull, bulk := some { k with got := k.got ++ [b] } }
      else { t with responses := rs ++ [.data (k.got ++ [b])] } := by
  cases h with
  | goesOn hr => simp [hr] at ht
  | alone hr hbyte => simp [hr, hbyte] at ht
  | eod hr => simp [hr] at ht
  | moreWanted hr hk =>
    obtain rfl : _ = b := by simpa [hr] using ht
    rw [if_pos hk, ← hr]
    rfl
  | lastWanted hr hk =>
    obtain rfl : _ = b := by simpa [hr] using ht
    rw [if_neg hk, ← hr]
    rfl

theorem of_eod (h : Mirrors k rs t t') (ht : t.responses = rs ++ [.eod]) :
    t' = { t with responses := rs ++ [.data k.got] } := by
  cases h with
  | eod hr => rw [← hr]; rfl
  | alone hr _ heod => simp [hr, heod] at ht
  | goesOn hr | moreWanted hr | lastWanted hr => simp [hr] at ht

theorem of_err {f : FaultCode} (h : Mirrors k rs t t') (ht : t.responses = rs ++ [.err f]) : t' = t := by
  cases h with
  | alone => rfl
  | goesOn hr | moreWanted hr | lastWanted hr | eod hr => simp [hr] at ht

end Mirrors

/-- The same for a step: where a READ has no next state, nothing is said. -/
inductive Result.Mirrors (k : Bulk) (rs : List Response) : Result → Result → Prop
  | next {t t' : State} (h : Machine.Mirrors k rs t t') : Mirrors k rs (.next t) (.next t')
  | fault {f : Fault} {r : Result} : Mirrors k rs (.fault f) r
  | refused {f : Refusal} {r : Result} : Mirrors k rs (.refused f) r

theorem Result.Mirrors.of_next {r : Result} (h : Result.Mirrors k rs (.next t) r) :
    ∃ t', r = .next t' ∧ Machine.Mirrors k rs t t' := by
  cases h with
  | next h => exact ⟨_, rfl, h⟩

/-- The same for a part of the symbol layer. -/
inductive Act.Mirrors (k : Bulk) (rs : List Response) : Act → Act → Prop
  | go {u : State} (hr : u.responses = rs) : Mirrors k rs (.go u) (.go (u.inBulk k))
  | ended {t t' : State} (h : Machine.Mirrors k rs t t') : Mirrors k rs (.ended t) (.ended t')
  | stop {x : Stop} {a : Act} : Mirrors k rs (.stop x) a

theorem Act.Mirrors.andThen {a a' : Act} {f : State → Act} (h : a.Mirrors k rs a')
    (hf : ∀ u, u.responses = rs → (f u).Mirrors k rs (f (u.inBulk k))) :
    (a.andThen f).Mirrors k rs (a'.andThen f) := by
  cases h with
  | go hr => exact hf _ hr
  | ended h => exact .ended h
  | stop => exact .stop

theorem Act.Mirrors.result {a a' : Act} (h : a.Mirrors k rs a') : a.result.Mirrors k rs a'.result := by
  cases h with
  | go hr => exact .next (.goesOn hr)
  | ended h => exact .next h
  | @stop x _ =>
    cases x with
    | index m => exact .fault
    | bitCount n => exact .refused

/-- A test that comes out the same on both sides is mirrored branch by branch. -/
theorem mirrors_ite {α β : Type} {R : α → β → Prop} {p : Prop} [Decidable p] {a b : α} {a' b' : β} (h : R a a')
    (h' : R b b') : R (if p then a else b) (if p then a' else b') := by
  split
  · exact h
  · exact h'

/-! ### The symbol layer (rules R233 to R237, R260 to R263) -/

theorem emitRun_mirrors (hr : u.responses = rs) (n : Nat) (b : Byte) :
    (emitRun n b u).Mirrors k rs (emitRun n b (u.inBulk k)) :=
  mirrors_ite (.ended (.raise hr)) (mirrors_ite .stop (.go hr))

theorem flushRun_mirrors (hr : u.responses = rs) : (flushRun u).Mirrors k rs (flushRun (u.inBulk k)) := by
  refine mirrors_ite (.go hr) ?_
  rw [State.inBulk_dec]
  cases u.dec.yy with
  | nil => exact .stop
  | cons y ys => exact (emitRun_mirrors hr _ _).andThen fun v hv => .go hv

theorem moveSymbol_mirrors (hr : u.responses = rs) (r : Nat) :
    (moveSymbol r u).Mirrors k rs (moveSymbol r (u.inBulk k)) := by
  unfold moveSymbol
  rw [State.inBulk_dec]
  cases moveToFront u.dec.yy (r - 1) with
  | none => exact .stop
  | some p => exact emitRun_mirrors (u := { u with dec := { u.dec with yy := p.2 } }) hr _ _

theorem checkOrigPtr_mirrors (hr : u.responses = rs) : (checkOrigPtr u).Mirrors k rs (checkOrigPtr (u.inBulk k)) :=
  mirrors_ite (.ended (.raise hr)) (.go hr)

theorem buildTT_mirrors (hr : u.responses = rs) : (buildTT u).Mirrors k rs (buildTT (u.inBulk k)) := by
  refine mirrors_ite .stop ?_
  rw [State.inBulk_blk]
  cases placeIndices u.blk.ll8 (u.blk.last + 1).toNat 0 (cumulativeTable u.blk.unzftab) u.blk.tt with
  | none => exact .stop
  | some p => exact .go hr

theorem execMtfv_mirrors (hr : s.responses = rs) (r : Nat) :
    (execMtfv r s).Mirrors k rs (execMtfv r (s.inBulk k)) :=
  ((flushRun_mirrors hr).andThen fun _ hu => moveSymbol_mirrors hu r).result

theorem execEob_mirrors (hr : s.responses = rs) : (execEob s).Mirrors k rs (execEob (s.inBulk k)) :=
  ((((flushRun_mirrors hr).andThen fun u hu => checkOrigPtr_mirrors (u := u.crcReset) hu).andThen (f := buildTT)
    fun _ hu => buildTT_mirrors hu).andThen fun u hu => .go (u := initPull u) hu).result

/-! ### The table section (rules R200 to R204) -/

theorem rowsFrom_mirrors (hr : u.responses = rs) (g : Nat) :
    Mirrors k rs (rowsFrom g u) (rowsFrom g (u.inBulk k)) := by
  unfold rowsFrom
  rw [State.inBulk_tab]
  cases nextGroup u.tab.used16 g with
  | some g' => exact .goesOn hr
  | none => exact mirrors_ite (.raise hr) (.goesOn hr)

theorem execSelector_mirrors (hr : s.responses = rs) (j : Nat) :
    (execSelector j s).Mirrors k rs (execSelector j (s.inBulk k)) := by
  refine mirrors_ite (.next (.raise hr)) (mirrors_ite .fault ?_)
  rw [State.inBulk_tab]
  cases moveToFront s.tab.selPos j with
  | none => exact .fault
  | some p => exact .next (mirrors_ite (.goesOn hr) (.goesOn hr))

theorem execLenStop_mirrors (hr : s.responses = rs) : (execLenStop s).Mirrors k rs (execLenStop (s.inBulk k)) :=
  mirrors_ite .fault (.next (mirrors_ite (.goesOn hr) (mirrors_ite (.goesOn hr) (.goesOn hr))))

/-! ### Every instruction but the host commands -/

theorem exec_mirrors {i : Instr} (hr : s.responses = rs) (hb : s.bulk = none) (hi : encodeCommand i = none) :
    Result.Mirrors k rs (exec i s) (exec i (s.inBulk k)) := by
  cases i with
  | start _ | read _ | readBulk _ | write _ | seek _ | setLength _ | getLength _ | close _ => cases hi
  | streamHdr h3 => exact .next (.alone hr nofun nofun)
  | blockMagic | endMagic | blockCrc _ | randomised _ | origPtr _ | startLen _ | lenInc | lenDec | runA | runB =>
    exact .next (.goesOn hr)
  | inUse16 _ | inUseRow _ =>
    refine .next (rowsFrom_mirrors ?_ _)
    exact hr
  | nGroups _ | nSelectors _ => exact .next (mirrors_ite (.raise hr) (.goesOn hr))
  | selector j => exact execSelector_mirrors hr j
  | lenStop => exact execLenStop_mirrors hr
  | combinedCrc c => exact .next (mirrors_ite (.respondEod hr hb) (.raise hr))
  | mtfv r => exact execMtfv_mirrors hr r
  | eob => exact execEob_mirrors hr
  | literal v => exact mirrors_ite .fault (.next (.output hr hb))
  | runCount _ | randMask _ => exact mirrors_ite .fault (.next (.goesOn hr))

/-! ### What is due -/

/-- A decoded element of the stream is no host command. -/
theorem encodeCommand_of_allows {ctx : Ctx} {i : Instr} (h : ctx.Allows i) : encodeCommand i = none := by
  cases i with
  | start _ | read _ | readBulk _ | write _ | seek _ | setLength _ | getLength _ | close _ =>
    cases ctx <;> simp [Ctx.Allows] at h
  | _ => rfl

theorem encodeCommand_symbolInstr (nInUse sym : Nat) : encodeCommand (symbolInstr nInUse sym) = none := by
  unfold symbolInstr
  split
  · rfl
  · split
    · rfl
    · split <;> rfl

/-- The same for what a step finds due. -/
inductive Fetched.Mirrors (k : Bulk) (rs : List Response) : Fetched → Fetched → Prop
  | instr {i : Instr} {u : State} (hr : u.responses = rs) (hb : u.bulk = none) (hi : encodeCommand i = none) :
    Mirrors k rs (.instr i u) (.instr i (u.inBulk k))
  | done {t t' : State} (h : Machine.Mirrors k rs t t') : Mirrors k rs (.done t) (.done t')
  | stop {x : Stop} {r : Fetched} : Mirrors k rs (.stop x) r
  | noByte {r : Fetched} : Mirrors k rs .noByte r

theorem Fetched.Mirrors.outcome {r r' : Fetched} (h : r.Mirrors k rs r') :
    Result.Mirrors k rs r.outcome r'.outcome := by
  cases h with
  | instr hr hb hi => exact exec_mirrors hr hb hi
  | done h => exact .next h
  | noByte => exact .fault
  | @stop x _ =>
    cases x with
    | index m => exact .fault
    | bitCount n => exact .refused

section Due

variable (hr : s.responses = rs) (hb : s.bulk = none)
include hr

theorem endBlock_mirrors : Mirrors k rs (endBlock s) (endBlock (s.inBulk k)) :=
  mirrors_ite (.goesOn hr) (.raise hr)

include hb

theorem fetchField_mirrors {ctx : Ctx} (hsym : ∀ t n, ctx ≠ .symbol t n) :
    (fetchField ctx s).Mirrors k rs (fetchField ctx (s.inBulk k)) := by
  unfold fetchField
  rw [State.inBulk_cur]
  rcases decode_answers ctx s.cur hsym with ⟨i, c, m, hi, hd, -⟩ | ⟨f, c, m, hd, -⟩
  · rw [hd]
    exact .instr hr hb (encodeCommand_of_allows hi)
  · rw [hd]
    exact .done (.raise hr)

theorem fetchSymbol_mirrors : (fetchSymbol s).Mirrors k rs (fetchSymbol (s.inBulk k)) := by
  refine mirrors_ite (.done (.raise hr)) (mirrors_ite .stop (mirrors_ite .stop ?_))
  rw [State.inBulk_tab, State.inBulk_cur, State.inBulk_alphaSize, State.inBulk_dec]
  cases decodeCode (s.tab.huff.read (s.tab.selector.read (s.dec.symIdx / gSize))) s.alphaSize s.cur with
  | ok sym zn zvec c => exact .instr hr hb (encodeCommand_symbolInstr _ _)
  | reject f c => exact .done (.raise hr)
  | stop x => exact .stop

theorem fetchWalk_mirrors {mk : Byte → Instr} (hmk : ∀ b, encodeCommand (mk b) = none) :
    (fetchWalk mk s).Mirrors k rs (fetchWalk mk (s.inBulk k)) :=
  mirrors_ite (mirrors_ite .stop (.instr hr hb rfl)) (mirrors_ite .stop (.instr hr hb (hmk _)))

theorem fetchC_mirrors : (fetchC s).Mirrors k rs (fetchC (s.inBulk k)) := by
  refine mirrors_ite ?_ (.done (.goesOn hr))
  rw [State.inBulk_pull]
  cases s.pull.ch2 with
  | none => exact .noByte
  | some b => exact .done (.output hr hb)

theorem fetchPull_mirrors : (fetchPull s).Mirrors k rs (fetchPull (s.inBulk k)) := by
  unfold fetchPull
  rw [State.inBulk_ps]
  cases s.ps with
  | startBlock => exact fetchField_mirrors hr hb nofun
  | randA | noRandA =>
    exact mirrors_ite (fetchWalk_mirrors hr hb fun _ => rfl) (.done (endBlock_mirrors hr))
  | randB | noRandB =>
    exact mirrors_ite (.done (.goesOn hr)) (mirrors_ite (.done (.goesOn hr))
      (mirrors_ite (.done (.raise hr)) (fetchWalk_mirrors hr hb fun _ => rfl)))
  | randC | noRandC => exact fetchC_mirrors hr hb

/-- A step inside a READ, and the same step inside a READ_BULK. -/
theorem step_mirrors (hp : s.phase ≠ .idle) : Result.Mirrors k rs (step s) (step (s.inBulk k)) := by
  refine Fetched.Mirrors.outcome ?_
  unfold fetch
  rw [State.inBulk_phase]
  cases hph : s.phase with
  | idle => exact absurd hph hp
  | pull => exact fetchPull_mirrors hr hb
  | symbol => exact fetchSymbol_mirrors hr hb
  | lenDelta => exact mirrors_ite (.done (.raise hr)) (fetchField_mirrors hr hb nofun)
  | _ => exact fetchField_mirrors hr hb nofun

end Due

end Sys2Proof.Machine

section BulkStatements

open Sys2Proof Sys2Proof.Machine

/-- Settles O30: the step inside the READ_BULK mirrors the step inside the READ, answer by answer. -/
theorem bulkReadRepeatsRead : Obligations.BulkReadRepeatsRead := by
  intro s t k hb hp _ h
  have hstep : Result.Mirrors k s.responses (step s) (step (s.inBulk k)) := step_mirrors rfl hb hp
  obtain ⟨t', ht', hm⟩ := (h ▸ hstep).of_next
  exact ⟨fun hr => ht'.trans (congrArg _ (hm.of_no_answer hr)), fun b hr => ht'.trans (congrArg _ (hm.of_byte hr)),
    fun hr => ht'.trans (congrArg _ (hm.of_eod hr)), fun f hr => ht'.trans (congrArg _ (hm.of_err hr))⟩

end BulkStatements
end

section
/-! PROOFS. The bit reader (41_bit_reader.md rules R170 to R176): when `readBits` fails, what two reads in a row give,
and that a pull step inside a block reads no bit. -/

namespace Sys2Proof.BitCursor

variable {c c' c2 : BitCursor} {a b n v : Nat}

/-- No bit is left: every byte of the source has been requested and none of its bits is live. -/
theorem Wf.exhausted (hw : c.Wf) (hbits : c.bits = []) : c.srcPos = c.src.length ∧ c.bsLive = 0 := by
  have hlen := hw.length_bits
  obtain ⟨hsrc, hlive⟩ := hw.srcPos_eq
  have hle := hw.pos
  rw [hbits, List.length_nil] at hlen
  omega

/-- `readBits` fails exactly when fewer bits are left than asked for (rule R173). -/
theorem readBits_eod_iff (c : BitCursor) (h0 : 1 ≤ n) (h32 : n ≤ 32) :
    (∃ c', c.readBits n = .eod c') ↔ c.bits.length < n := by
  rcases c.readBits_cases h0 h32 with ⟨bs, rest, c1, hl, hbits, hread, -⟩ | ⟨hshort, c1, hread, -⟩
  · simp [hread, hbits, hl]
  · simp [hread, hshort]

/-- A read that fails has consumed every bit (rule R173). -/
theorem readBits_eod (h0 : 1 ≤ n) (h32 : n ≤ 32) (h : c.readBits n = .eod c') :
    c'.bits = [] ∧ c.Reads c.bits.length c' := by
  rcases c.readBits_cases h0 h32 with ⟨_, _, c1, -, -, hread, -⟩ | ⟨-, c1, hread, hnil, hreads⟩
  · rw [h] at hread; cases hread
  · rw [h] at hread; cases hread; exact ⟨hnil, hreads⟩

theorem readBits_eq_readFrom (c : BitCursor) (h0 : 1 ≤ n) (h32 : n ≤ 32) : c.readBits n = c.readFrom n 0 :=
  if_neg (by omega)

/-- A read in one piece is a read in two pieces, the value of the first shifted up by the width of the second. -/
theorem readBits_add_eq_ok_iff (ha : 1 ≤ a) (hb : 1 ≤ b) (hab : a + b ≤ 32) :
    c.readBits (a + b) = .ok v c2 ↔
      ∃ x c1 y, c.readBits a = .ok x c1 ∧ c1.readBits b = .ok y c2 ∧ v = x * 2 ^ b + y := by
  rw [readBits_eq_readFrom c (by omega) hab, readBits_eq_readFrom c ha (by omega), readFrom_add]
  cases c.readFrom a 0 with
  | eod c1 => simp
  | badWidth m => simp
  | ok x c1 =>
    simp only [BitRead.ok.injEq]
    rw [readFrom_value, ← readBits_eq_readFrom c1 hb (by omega)]
    constructor
    · intro h
      cases hr : c1.readBits b with
      | ok y c3 => rw [hr] at h; cases h; exact ⟨x, c1, y, ⟨rfl, rfl⟩, hr, rfl⟩
      | eod c3 => rw [hr] at h; cases h
      | badWidth m => rw [hr] at h; cases h
    · rintro ⟨_, _, y, ⟨rfl, rfl⟩, hy, rfl⟩
      rw [hy]

end Sys2Proof.BitCursor

namespace Sys2Proof.Machine

variable {s t u : State}

/-! ### A pull step inside a block (45_inverse_bwt_output.md rule R264) -/

theorem PullState.toA_ne_startBlock (p : PullState) : p.toA ≠ .startBlock := by cases p <;> decide

theorem PullState.toB_ne_startBlock (p : PullState) : p.toB ≠ .startBlock := by cases p <;> decide

theorem PullState.toC_ne_startBlock (p : PullState) : p.toC ≠ .startBlock := by cases p <;> decide

theorem PullState.isRand_toA (p : PullState) : p.toA.isRand = p.isRand := by cases p <;> rfl

theorem PullState.isRand_toB (p : PullState) : p.toB.isRand = p.isRand := by cases p <;> rfl

theorem PullState.isRand_toC (p : PullState) : p.toC.isRand = p.isRand := by cases p <;> rfl

/-- From `s` inside a block to `t`: the cursor, the block buffer, the tables and the block's header are left, and the
pull machine stays in its family or is at the end of the block. -/
structure StaysInBlock (s t : State) : Prop where
  cur : t.cur = s.cur
  blk : t.blk = s.blk
  tab : t.tab = s.tab
  dec : t.dec = s.dec
  hdr : t.hdr = s.hdr
  family : t.ps = .startBlock ∨ (t.ps ≠ .startBlock ∧ t.ps.isRand = s.ps.isRand)

namespace StaysInBlock

/-- Other registers of the pull machine, in the same family. -/
theorem of_pull {p : PullRegs} {q : PullState} (hne : q ≠ .startBlock) (hq : q.isRand = s.ps.isRand) :
    StaysInBlock s { s with pull := p, ps := q } := ⟨rfl, rfl, rfl, rfl, rfl, .inr ⟨hne, hq⟩⟩

theorem raise (h : StaysInBlock s u) (f : FaultCode) : StaysInBlock s (u.raise f) := { h with }

theorem output (h : StaysInBlock s u) (b : Byte) : StaysInBlock s (u.output b) where
  cur := by simp [h.cur]
  blk := by simp [h.blk]
  tab := by simp [h.tab]
  dec := by simp [h.dec]
  hdr := by simp [h.hdr]
  family := by simpa using h.family

end StaysInBlock

theorem execLiteral_staysInBlock {v : Byte} (h : execLiteral v s = .next t) : StaysInBlock s t := by
  unfold execLiteral at h
  split at h
  · cases h
  · cases h
    exact .output (.of_pull s.ps.toB_ne_startBlock s.ps.isRand_toB) v

theorem execRunCount_staysInBlock {c : Byte} (h : execRunCount c s = .next t) : StaysInBlock s t := by
  unfold execRunCount at h
  split at h
  · cases h
  · cases h
    exact .of_pull s.ps.toC_ne_startBlock s.ps.isRand_toC

theorem execRandMask_staysInBlock {r : Bool} (hps : s.ps ≠ .startBlock) (h : execRandMask r s = .next t) :
    StaysInBlock s t := by
  unfold execRandMask at h
  split at h
  · cases h
  · cases h
    exact .of_pull hps rfl

/-- The end of the block leaves the block, or raises in it (rule R271). -/
theorem endBlock_staysInBlock (hps : s.ps ≠ .startBlock) : StaysInBlock s (endBlock s) := by
  have hcrc {c : CrcRegs} : StaysInBlock s { s with crc := c } := ⟨rfl, rfl, rfl, rfl, rfl, .inr ⟨hps, rfl⟩⟩
  by_cases heq : s.crcValue = s.crc.storedBlockCRC
  · rw [endBlock_of_eq heq]
    exact ⟨rfl, rfl, rfl, rfl, rfl, .inl rfl⟩
  · rw [endBlock_of_ne heq]
    exact hcrc.raise _

/-- What is found due, carried out, stays in the block. -/
def Fetched.StaysInBlock (s : State) : Fetched → Prop
  | .instr i u => ∀ t, exec i u = .next t → Machine.StaysInBlock s t
  | .done t => Machine.StaysInBlock s t
  | .stop _ | .noByte => True

theorem fetchWalk_staysInBlock (hps : s.ps ≠ .startBlock) {mk : Byte → Instr}
    (hmk : ∀ v t, exec (mk v) s = .next t → StaysInBlock s t) : (fetchWalk mk s).StaysInBlock s := by
  unfold fetchWalk
  split
  · split
    · trivial
    · exact fun _ h => execRandMask_staysInBlock hps h
  · split
    · trivial
    · exact hmk _

theorem fetchA_staysInBlock (hps : s.ps ≠ .startBlock) : (fetchA s).StaysInBlock s := by
  unfold fetchA
  split
  · exact fetchWalk_staysInBlock hps fun _ _ h => execLiteral_staysInBlock h
  · exact endBlock_staysInBlock hps

theorem fetchB_staysInBlock (hps : s.ps ≠ .startBlock) : (fetchB s).StaysInBlock s := by
  have hA {p : PullRegs} : StaysInBlock s { s with pull := p, ps := s.ps.toA } :=
    .of_pull s.ps.toA_ne_startBlock s.ps.isRand_toA
  unfold fetchB
  split
  · exact hA
  · split
    · exact hA
    · split
      · exact .raise (.of_pull hps rfl) _
      · exact fetchWalk_staysInBlock hps fun _ _ h => execRunCount_staysInBlock h

theorem fetchC_staysInBlock (hps : s.ps ≠ .startBlock) : (fetchC s).StaysInBlock s := by
  unfold fetchC
  split
  · split
    · exact .output (.of_pull hps rfl) _
    · trivial
  · exact .of_pull s.ps.toA_ne_startBlock s.ps.isRand_toA

theorem fetchPull_staysInBlock (hps : s.ps ≠ .startBlock) : (fetchPull s).StaysInBlock s := by
  unfold fetchPull
  cases hq : s.ps with
  | startBlock => exact absurd hq hps
  | randA | noRandA => exact fetchA_staysInBlock hps
  | randB | noRandB => exact fetchB_staysInBlock hps
  | randC | noRandC => exact fetchC_staysInBlock hps

theorem step_staysInBlock (hp : s.phase = .pull) (hps : s.ps ≠ .startBlock) (h : step s = .next t) :
    StaysInBlock s t := by
  have hpull : (fetch s).StaysInBlock s := by
    simpa only [fetch, hp] using fetchPull_staysInBlock hps
  rcases step_next_cases h with ⟨i, u, hd, hx⟩ | hd
  · rw [hd] at hpull
    exact hpull t hx
  · rwa [hd] at hpull

end Sys2Proof.Machine

section BitReaderStatements

open Sys2Proof Sys2Proof.Machine

/-- Settles O16: the bits left are those from the position to the end of the source, and a read fails exactly when
they are too few. -/
theorem readBitsFailsAtEndOfInput : Obligations.ReadBitsFailsAtEndOfInput := by
  intro c n hw h0 h32
  refine ⟨?_, fun c' h => ?_⟩
  · rw [c.readBits_eod_iff h0 h32, hw.length_bits]
    omega
  · obtain ⟨hnil, hreads⟩ := BitCursor.readBits_eod h0 h32 h
    obtain ⟨hpos, hlive⟩ := (hreads.wf hw).1.exhausted hnil
    exact ⟨hreads.src, hreads.src ▸ hpos, hlive⟩

/-- Settles O17: both directions of the equivalence of one read and two. -/
theorem readBitsChunksAgree : Obligations.ReadBitsChunksAgree := fun _ _ _ ha hb hab =>
  ⟨fun x c1 y _ hx hy => (BitCursor.readBits_add_eq_ok_iff ha hb hab).2 ⟨x, c1, y, hx, hy, rfl⟩,
    fun _ _ h => (BitCursor.readBits_add_eq_ok_iff ha hb hab).1 h⟩

/-- Settles O58: what is due inside a block is a step of the walk, of the run detection or of the repeats, each of
which writes the registers of the pull machine alone, or the end of the block. -/
theorem outputPhaseTouchesNoStream : Obligations.OutputPhaseTouchesNoStream := by
  intro s t hp hps h
  obtain ⟨hcur, hblk, htab, hdec, hhdr, hfamily⟩ := step_staysInBlock hp hps h
  exact ⟨hcur, hblk, htab, hdec, hhdr, hfamily⟩

end BitReaderStatements
end

section
/-! PROOFS. The block header and the trailer (42_header_block_parser.md rules R181 to R185), and the end of
`BeginBlock()`, where EOB flushes the run, checks ORIG_PTR and sets the pull machine up (rules R236, R260 to R263). -/

namespace Sys2Proof.Machine

variable {s u v : State}

/-! ### The trailer (rule R183) -/

/-- In a READ the end of the stream is the response. -/
theorem State.respondEod_of_single (h : s.bulk = none) : s.respondEod = s.respond .eod := by
  rw [State.respondEod, h]

/-- A READ_BULK gives what it gathered before the end of the stream. -/
theorem State.respondEod_of_bulk {k : Bulk} (h : s.bulk = some k) : s.respondEod = s.respond (.data k.got) := by
  rw [State.respondEod, h]

theorem exec_combinedCrc_of_eq {c : Word} (h : c = s.crc.computedCombinedCRC) :
    exec (.combinedCrc c) s = .next ({ s with
      crc := { s.crc with storedCombinedCRC := c }, streamEnd := true } : State).respondEod :=
  congrArg Host.Outcome.next (if_pos h)

theorem exec_combinedCrc_of_ne {c : Word} (h : c ≠ s.crc.computedCombinedCRC) :
    exec (.combinedCrc c) s = .next (({ s with
      crc := { s.crc with storedCombinedCRC := c } } : State).raise .combinedCrcMismatch) :=
  congrArg Host.Outcome.next (if_neg h)

/-! ### The flush of the pending run, whether there is one or not (rule R234) -/

theorem append_zero {m : BlockBuffer} (hll8 : m.ll8.wf) (hcounts : m.unzftab.wf) (b : Byte) : m.append 0 b = m := by
  have hbytes : (m.append 0 b).ll8 = m.ll8 := Mem.ext_of_wf (Mem.wf_writeRun hll8 _ _ _) hll8 fun p => by
    rw [append_ll8, Mem.read_writeRun hll8, if_neg (by omega)]
  have htable : (m.append 0 b).unzftab = m.unzftab := Mem.ext_of_wf (Mem.wf_write hcounts _ _) hcounts fun p => by
    rw [append_unzftab, Mem.read_write hcounts]
    split
    · next hp => rw [hp, Nat.add_zero]
    · rfl
  have hlast : (m.append 0 b).last = m.last := Int.add_zero _
  show { m with last := (m.append 0 b).last, ll8 := (m.append 0 b).ll8, unzftab := (m.append 0 b).unzftab } = m
  rw [hlast, hbytes, htable]

theorem append_ll8_read {m : BlockBuffer} (h : m.ll8.wf) {l : Nat} (hl : m.last + 1 = (l : Int)) (n : Nat) (b : Byte)
    (p : Nat) : (m.append n b).ll8.read p = if l ≤ p ∧ p < l + n then b else m.ll8.read p := by
  rw [append_ll8, hl, Int.toNat_natCast, Mem.read_writeRun h]

theorem append_unzftab_read {m : BlockBuffer} (h : m.unzftab.wf) (n : Nat) (b : Byte) (v : Nat) :
    (m.append n b).unzftab.read v = m.unzftab.read v + if v = b.toNat then n else 0 := by
  rw [append_unzftab, Mem.read_write h]
  split
  · next hv => rw [hv]
  · rfl

/-- The state after `FlushRun()` with the byte `b` at the front of the list. -/
def State.flushed (b : Byte) (s : State) : State :=
  { s with
    blk := s.blk.append s.dec.runS b
    dec := { s.dec with runS := 0, runN := if s.dec.runS = 0 then s.dec.runN else 1 } }

theorem flushRun_eq_flushed {y : Byte} {ys : List Byte} (hm : s.MemoriesInv) (hy : s.dec.yy = y :: ys)
    (hroom : s.blk.last + 1 + s.dec.runS ≤ (s.capacity : Int)) (hcap : s.capacity ≤ maxCapacity) :
    flushRun s = .go (s.flushed (s.tab.seqToUnseq.read y.toNat)) := by
  by_cases h0 : s.dec.runS = 0
  · have hdec : ({ s.dec with runS := 0 } : DecodeRegs) = s.dec := by rw [← h0]
    rw [flushRun_of_none h0, State.flushed, h0, if_pos rfl, append_zero hm.ll8 hm.unzftab, hdec]
  · rw [flushRun_of_room h0 hy hroom hcap, State.flushed, if_neg h0]

theorem State.MemoriesInv.flushed (h : s.MemoriesInv) (b : Byte) : (s.flushed b).MemoriesInv :=
  { memories_append h s.dec.runS b with }

theorem State.FillingInv.flushed (h : s.FillingInv) (hm : s.MemoriesInv) (b : Byte)
    (hroom : s.blk.last + 1 + s.dec.runS ≤ (s.capacity : Int)) : (s.flushed b).FillingInv :=
  { filling_append h hm b hroom with }

/-! ### The set-up of the block that EOB ends (rules R236, R260 to R263) -/

theorem checkOrigPtr_of_lt (h : (s.hdr.origPtr : Int) < s.blk.last + 1) : checkOrigPtr s = .go s :=
  if_neg (not_le.2 h)

theorem checkOrigPtr_of_le (h : s.blk.last + 1 ≤ (s.hdr.origPtr : Int)) :
    checkOrigPtr s = .ended (s.raise .origPtrOutOfRange) :=
  if_pos h

theorem exec_eob_of_lt (hflush : flushRun s = .go u) (hptr : (u.hdr.origPtr : Int) < u.blk.last + 1)
    (hbuild : buildTT u.crcReset = .go v) : exec .eob s = .next (initPull v) := by
  have hcheck : checkOrigPtr u.crcReset = .go u.crcReset := checkOrigPtr_of_lt hptr
  simp only [exec, execEob, hflush, Act.andThen, hcheck, hbuild, Act.result]

theorem exec_eob_of_le (hflush : flushRun s = .go u) (hptr : u.blk.last + 1 ≤ (u.hdr.origPtr : Int)) :
    exec .eob s = .next (u.crcReset.raise .origPtrOutOfRange) := by
  have hcheck : checkOrigPtr u.crcReset = .ended (u.crcReset.raise .origPtrOutOfRange) := checkOrigPtr_of_le hptr
  simp only [exec, execEob, hflush, Act.andThen, hcheck, Act.result]

/-- A counting-sorted `tt` lists the indices of the block in the order of (byte value, index). -/
theorem links_sorted {ll8 : Mem Byte} {tt : Mem Nat} {n : Nat} (h : ∀ i < n, tt.read (place ll8 n i) = i) {j k : Nat}
    (hjk : j < k) (hk : k < n) :
    (ll8.read (tt.read j)).toNat < (ll8.read (tt.read k)).toNat ∨
      (ll8.read (tt.read j) = ll8.read (tt.read k) ∧ tt.read j < tt.read k) := by
  obtain ⟨a, ha, rfl⟩ := place_surj ll8 (hjk.trans hk)
  obtain ⟨b, hb, rfl⟩ := place_surj ll8 hk
  rw [h a ha, h b hb]
  rcases Nat.lt_trichotomy (ll8.read a).toNat (ll8.read b).toNat with hlt | heq | hgt
  · exact .inl hlt
  · refine .inr ⟨BitVec.eq_of_toNat_eq heq, ?_⟩
    by_contra hab
    rcases (not_lt.1 hab).eq_or_lt with rfl | hba
    · exact lt_irrefl _ hjk
    · exact lt_asymm hjk (place_lt_place ll8 hb (.inr ⟨heq.symm, hba⟩))
  · exact absurd hjk (lt_asymm (place_lt_place ll8 hb (.inl hgt)))

end Sys2Proof.Machine

section HeaderStatements

open Sys2Proof Sys2Proof.Machine

/-- Settles O49: the block after the flush is counted by `unzftab`, so a pointer inside it leads through the counting
sort to the pull machine. -/
theorem eobSetsThePullMachineUp : Obligations.EobSetsThePullMachineUp := by
  intro s m f hyy hm hfill hlast hroom hcap hf
  obtain ⟨y, ys, hy⟩ := List.exists_cons_of_length_eq_add_one hyy
  have hfit : s.blk.last + 1 + s.dec.runS ≤ (s.capacity : Int) := by omega
  have hlen : (s.flushed f).blk.last + 1 = ((m + s.dec.runS : Nat) : Int) := by
    simp only [State.flushed, append_last]
    omega
  have hflush : flushRun s = .go (s.flushed f) := by
    rw [hf y (by rw [hy]; rfl)]
    exact flushRun_eq_flushed hm hy hfit hcap
  have hbytes := append_ll8_read hm.ll8 hlast s.dec.runS f
  have hcounts := append_unzftab_read hm.unzftab s.dec.runS f
  by_cases hptr : s.hdr.origPtr < m + s.dec.runS
  · have hsum := (hfill.flushed hm f hfit).counts
    rw [hlen, Int.toNat_natCast] at hsum
    obtain ⟨cftab, tt, hbuild, -, -, -, -, hplace, -⟩ := buildTT_spec (s := (s.flushed f).crcReset)
      { hm.flushed f with } hlen (by omega) hsum
    have hinside : ((s.flushed f).hdr.origPtr : Int) < (s.flushed f).blk.last + 1 := hlen ▸ Int.ofNat_lt.2 hptr
    exact ⟨_, exec_eob_of_lt hflush hinside hbuild, rfl, hbytes, hcounts,
      fun _ => ⟨fun k hk => links_lt _ hplace hk, fun j k hjk hk => links_sorted hplace hjk hk, rfl⟩,
      fun hout => absurd hptr (not_lt.2 hout)⟩
  · have hbeyond : (s.flushed f).blk.last + 1 ≤ ((s.flushed f).hdr.origPtr : Int) :=
      hlen ▸ Int.ofNat_le.2 (not_lt.1 hptr)
    exact ⟨_, exec_eob_of_le hflush hbeyond, rfl, hbytes, hcounts, fun hin => absurd hin hptr,
      fun _ => ⟨rfl, rfl, rfl⟩⟩

/-- Settles O33: each is one update of the state. -/
theorem blockHeaderFieldsAreKept : Obligations.BlockHeaderFieldsAreKept := fun _ _ _ _ => ⟨rfl, rfl, rfl, rfl, rfl⟩

/-- Settles O34: equal words end the command by `respond EOD` of READ or READ_BULK, different ones by the fault. -/
theorem trailerEndsTheStream : Obligations.TrailerEndsTheStream := by
  intro s c
  refine ⟨fun heq hbulk => ?_, fun k heq hbulk => ?_, fun hne => ?_⟩
  · rw [exec_combinedCrc_of_eq heq, State.respondEod_of_single, State.respond, hbulk]
    exact hbulk
  · rw [exec_combinedCrc_of_eq heq, State.respondEod_of_bulk, State.respond]
    exact hbulk
  · rw [exec_combinedCrc_of_ne hne, State.raise, State.respond]

end HeaderStatements
end

section
/-! PROOFS. The table section (43_huffman_table_builder.md): the in-use bitmap and its maps (rules R200, R201), the
counts and the selectors (rules R202, R203), the code lengths (rule R204) and the tables built from them (rules R205,
R206). -/

namespace Sys2Proof

/-! ### The tables built (rules R205, R206) -/

section Built

variable {lens : List Nat} {t : HuffTable} {n l : Nat}

theorem lens_ne_nil (t : HuffTable) (h : 1 ≤ n) : t.lens n ≠ [] :=
  List.ne_nil_of_length_pos (by rwa [HuffTable.length_lens])

/-- The symbols no longer than `l` are those shorter than `l + 1`. -/
theorem length_filter_le_eq_shorter (lens : List Nat) (l : Nat) :
    (lens.filter fun k => decide (k ≤ l)).length = shorter lens (l + 1) := by
  simp only [shorter, List.countP_eq_length_filter, Nat.lt_succ_iff]

theorem greatestOf_mem (h : lens ≠ []) : greatestOf lens ∈ lens := by
  rcases foldl_max_mem lens 0 with hzero | hmem
  · have hleast := leastOf_mem h
    rwa [Nat.le_zero.1 ((le_greatestOf hleast).trans_eq hzero), ← hzero] at hleast
  · exact hmem

/-- A length that occurs is that of some symbol. -/
theorem exists_len_read_of_mem (h : l ∈ t.lens n) : ∃ i < n, t.len.read i = l := by
  obtain ⟨i, hi, hl⟩ := List.mem_map.1 h
  exact ⟨i, List.mem_range.1 hi, hl⟩

theorem len_read_mem_lens (t : HuffTable) {i : Nat} (h : i < n) : t.len.read i ∈ t.lens n :=
  List.mem_map.2 ⟨i, List.mem_range.2 h, rfl⟩

/-- The base of a length between the least and the greatest is its first code value less the shorter symbols. -/
theorem build_base_read_of_between (h : leastOf (t.lens n) ≤ l) (h' : l ≤ greatestOf (t.lens n)) :
    (t.build n).base.read l = firstCode (t.lens n) l - shorter (t.lens n) l := by
  obtain ⟨m, hm, hbefore⟩ := before_limitBaseOf (t.lens n)
  exact hbefore.base l h ((hm l h).2 h')

theorem start_base_read (l : Nat) : LimitBase.start.base.read l = 0 := rfl

/-- The loop of `BuildLimitBase` leaves the base of every length it does not pass. -/
theorem foldl_pass_base_read {ls : List Nat} (hl : l ∉ ls) {r : LimitBase} (hr : r.limit.wf ∧ r.base.wf) :
    (ls.foldl (fun r l => r.pass l (lens.count l)) r).base.read l = r.base.read l := by
  induction ls generalizing r with
  | nil => rfl
  | cons m ls ih =>
    obtain ⟨hne, hl⟩ := List.ne_and_not_mem_of_not_mem_cons hl
    rw [List.foldl_cons, ih hl (r.pass_wf m _ hr)]
    exact Mem.read_write_of_ne hr.2 _ hne

theorem build_base_read_of_outside (h : l < leastOf (t.lens n) ∨ greatestOf (t.lens n) < l) :
    (t.build n).base.read l = 0 :=
  (foldl_pass_base_read (fun hmem => by have := mem_lengthsFrom.1 hmem; omega) LimitBase.start_wf).trans
    (start_base_read l)

theorem build_limit_read_of_outside (hl : l < limitSize)
    (h : l < leastOf (t.lens n) ∨ greatestOf (t.lens n) < l) : (t.build n).limit.read l = -1 := by
  rw [build_limit_read, if_neg (by omega), start_limit_read hl]

/-- The rank of every symbol of the alphabet. -/
theorem exists_perm_read_eq (hw : t.perm.wf) {i : Nat} (hi : i < n) : ∃ j < n, (t.build n).perm.read j = i := by
  have hmem : i ∈ ranked (t.lens n) :=
    (perm_symbolsByLength_self _).mem_iff.2 (List.mem_range.2 (by rwa [HuffTable.length_lens]))
  obtain ⟨j, hj, hji⟩ := List.getElem_of_mem hmem
  exact ⟨j, by simpa [length_ranked] using hj, (build_perm_read_ranked hw hj).trans hji⟩

/-- Ranks are in the order of (length, symbol). -/
theorem perm_read_sorted (hw : t.perm.wf) {j k : Nat} (hjk : j < k) (hk : k < n) :
    t.len.read ((t.build n).perm.read j) < t.len.read ((t.build n).perm.read k) ∨
      (t.len.read ((t.build n).perm.read j) = t.len.read ((t.build n).perm.read k) ∧
        (t.build n).perm.read j < (t.build n).perm.read k) := by
  have hlen : (ranked (t.lens n)).length = n := by rw [length_ranked, HuffTable.length_lens]
  rw [← HuffTable.lens_getD t (HuffTable.build_perm_lt hw (hjk.trans hk)),
    ← HuffTable.lens_getD t (HuffTable.build_perm_lt hw hk),
    build_perm_read_ranked hw (by omega), build_perm_read_ranked hw (by omega)]
  exact List.pairwise_iff_getElem.1 (pairwise_symbolsByLength _ _ _) j k _ _ hjk

end Built

namespace Machine

variable {s u : State}

/-! ### The in-use bitmap and its rows (rule R200) -/

/-- The first group present from `g` on is the one `nextGroup` finds. -/
theorem nextGroup_eq_some {v : BitVec 16} {g g' : Nat} (hle : g ≤ g') (hlt : g' < 16) (hset : v.getMsbD g' = true)
    (hclear : ∀ k, g ≤ k → k < g' → v.getMsbD k = false) : nextGroup v g = some g' := by
  cases hnext : nextGroup v g with
  | none =>
    rw [nextGroup_none hnext g' hle hlt] at hset
    cases hset
  | some k =>
    obtain ⟨hgk, -, hkset, hkclear⟩ := nextGroup_some hnext
    rcases Nat.lt_trichotomy k g' with hlt | rfl | hgt
    · rw [hclear k hgk hlt] at hkset
      cases hkset
    · rfl
    · rw [hkclear g' hle hgt] at hset
      cases hset

theorem nextGroup_eq_none {v : BitVec 16} {g : Nat} (hclear : ∀ k, g ≤ k → k < 16 → v.getMsbD k = false) :
    nextGroup v g = none := by
  cases hnext : nextGroup v g with
  | none => rfl
  | some k =>
    obtain ⟨hgk, hlt, hset, -⟩ := nextGroup_some hnext
    rw [hclear k hgk hlt] at hset
    cases hset

theorem rowsFrom_of_some {g g' : Nat} (h : nextGroup u.tab.used16 g = some g') :
    rowsFrom g u = { u with tab := { u.tab with rowI := g' }, phase := .inUseRow } := by
  rw [rowsFrom, h]

theorem rowsFrom_of_none {g : Nat} (h : nextGroup u.tab.used16 g = none) : rowsFrom g u = makeMaps u := by
  rw [rowsFrom, h]

/-! ### The maps of the alphabet (rule R201) -/

theorem makeMaps_of_none (h : usedBytes u.tab.inUse = []) : makeMaps u = ({ u with
    tab := { u.tab with nInUse := 0 } } : State).raise .emptyAlphabet := by
  simp only [makeMaps, h, if_true]
  rfl

theorem makeMaps_of_some (h : usedBytes u.tab.inUse ≠ []) : makeMaps u = { u with
    tab := { u.tab with
      nInUse := (usedBytes u.tab.inUse).length
      seqToUnseq := u.tab.seqToUnseq.writeList 0 (usedBytes u.tab.inUse)
      unseqToSeq := writeRanks u.tab.unseqToSeq 0 (usedBytes u.tab.inUse) }
    phase := .nGroups } := by
  simp only [makeMaps, h, if_false]

/-- Both ends of `MakeMaps()` keep the count and the two maps. -/
theorem makeMaps_tab (u : State) : (makeMaps u).tab = { u.tab with
    nInUse := (usedBytes u.tab.inUse).length
    seqToUnseq := u.tab.seqToUnseq.writeList 0 (usedBytes u.tab.inUse)
    unseqToSeq := writeRanks u.tab.unseqToSeq 0 (usedBytes u.tab.inUse) } := by
  by_cases h : usedBytes u.tab.inUse = []
  · rw [makeMaps_of_none h, h]
    rfl
  · rw [makeMaps_of_some h]

theorem usedBytes_nil : usedBytes [] = [] :=
  List.eq_nil_iff_forall_not_mem.2 fun _ hb => Bool.noConfusion (mem_usedBytes.1 hb)

theorem length_usedBytes (inUse : Mem Bool) :
    (usedBytes inUse).length = ((List.range 256).filter inUse.read).length :=
  List.length_map ..

theorem rowsFrom_inUse (g : Nat) (u : State) : (rowsFrom g u).tab.inUse = u.tab.inUse := by
  cases h : nextGroup u.tab.used16 g with
  | none => rw [rowsFrom_of_none h, makeMaps_tab]
  | some g' => rw [rowsFrom_of_some h]

/-- The state with another bitmap, the next group not looked for yet. -/
def State.withInUse (m : Mem Bool) (s : State) : State := { s with tab := { s.tab with inUse := m } }

theorem exec_inUseRow (v : BitVec 16) (s : State) : exec (.inUseRow v) s =
    .next (rowsFrom (s.tab.rowI + 1) (s.withInUse (writeRow s.tab.rowI v s.tab.inUse))) := rfl

theorem rowsFrom_withInUse_inUse (g : Nat) (m : Mem Bool) : (rowsFrom g (s.withInUse m)).tab.inUse = m :=
  rowsFrom_inUse g (s.withInUse m)

theorem rowsFrom_withInUse_of_some (m : Mem Bool) {g g' : Nat} (h : nextGroup s.tab.used16 g = some g') :
    rowsFrom g (s.withInUse m) =
      { s with tab := { s.tab with inUse := m, rowI := g' }, phase := .inUseRow } :=
  rowsFrom_of_some (u := s.withInUse m) h

theorem rowsFrom_withInUse_of_none (m : Mem Bool) {g : Nat} (h : nextGroup s.tab.used16 g = none) :
    rowsFrom g (s.withInUse m) = makeMaps (s.withInUse m) :=
  rowsFrom_of_none (u := s.withInUse m) h

section Maps

variable {seq unseq : Mem Byte} {bs : List Byte} {r : Nat}

/-- The map from ranks to bytes holds the bytes listed. -/
theorem read_writeList_zero (h : seq.wf) (hr : r < bs.length) : (seq.writeList 0 bs).read r = bs[r] := by
  rw [Mem.read_writeList h, if_pos (Nat.zero_le r), Nat.sub_zero, List.getD_eq_getElem _ _ hr]

/-- The map from bytes to ranks holds the rank of each byte listed. -/
theorem toNat_read_writeRanks (h : unseq.wf) (hn : bs.Nodup) (hlen : bs.length ≤ byteValues) (hr : r < bs.length) :
    ((writeRanks unseq 0 bs).read bs[r].toNat).toNat = r := by
  rw [(writeRanks_read h 0 hn).1 r hr, Nat.zero_add, BitVec.toNat_ofNat]
  exact Nat.mod_eq_of_lt (hr.trans_le hlen)

theorem nodup_usedBytes (inUse : Mem Bool) : (usedBytes inUse).Nodup :=
  (pairwise_usedBytes inUse).imp fun hlt heq => absurd hlt (by rw [heq]; exact lt_irrefl _)

/-- A byte value in use is listed. -/
theorem exists_usedBytes_getElem {inUse : Mem Bool} {b : Nat} (hb : b < 256) (hu : inUse.read b = true) :
    ∃ r, ∃ hr : r < (usedBytes inUse).length, (usedBytes inUse)[r].toNat = b := by
  have hnat : (BitVec.ofNat 8 b).toNat = b := Nat.mod_eq_of_lt hb
  obtain ⟨r, hr, hget⟩ := List.getElem_of_mem (mem_usedBytes.2 (hnat.symm ▸ hu))
  exact ⟨r, hr, by rw [hget, hnat]⟩

end Maps

/-! ### The selectors (rule R203) -/

/-- The table registers after SELECTOR at position `j` of the list. -/
def TableRegs.selected (tab : TableRegs) (j : Nat) (h : j < tab.selPos.length) : TableRegs :=
  { tab with
    selJ := j, selTmp := tab.selPos[j], selPos := tab.selPos[j] :: tab.selPos.eraseIdx j
    selector := tab.selector.write tab.selI tab.selPos[j], selI := tab.selI + 1 }

/-- What follows a selector kept in the registers `tab`: the next selector, or the first table's code lengths. -/
def State.afterSelector (s : State) (tab : TableRegs) : State :=
  if tab.selI < tab.nSelectors then { s with tab := tab, phase := .selector }
  else { s with tab := { tab with lenT := 0 }, phase := .startLen }

theorem exec_selector {j : Nat} (hj : j < s.tab.nGroups) (hcap : s.tab.selI < config.selCap)
    (h : j < s.tab.selPos.length) : exec (.selector j) s = .next (s.afterSelector (s.tab.selected j h)) := by
  simp only [exec, execSelector]
  rw [if_neg (by omega), if_neg (by omega), moveToFront_eq h]
  rfl

/-- What follows a selector leaves the list and the selectors. -/
theorem afterSelector_list (s : State) (tab : TableRegs) :
    (s.afterSelector tab).tab.selPos = tab.selPos ∧ (s.afterSelector tab).tab.selTmp = tab.selTmp ∧
      (s.afterSelector tab).tab.selector = tab.selector := by
  unfold State.afterSelector
  split
  · exact ⟨rfl, rfl, rfl⟩
  · exact ⟨rfl, rfl, rfl⟩

/-! ### The code lengths (rule R204) -/

/-- LEN_STOP writes the length of one symbol of one table. -/
theorem keptLength_read (hw : s.tab.huff.wf) (hlen : (s.tab.huff.read s.tab.lenT).len.wf) (T I : Nat) :
    (s.keptLength.read T).len.read I =
      if T = s.tab.lenT ∧ I = s.tab.lenI then s.tab.curr else (s.tab.huff.read T).len.read I := by
  rw [State.keptLength, Mem.read_write hw]
  by_cases hT : T = s.tab.lenT
  · rw [if_pos hT, hT, Mem.read_write hlen]
    simp only [true_and]
  · rw [if_neg hT, if_neg (fun h => hT h.1)]

/-- The end of the table section builds the tables in use and leaves the others. -/
theorem finishTables_huff_read (hw : u.tab.huff.wf) (T : Nat) : (finishTables u).tab.huff.read T =
    if T < u.tab.nGroups then (u.tab.huff.read T).build u.alphaSize else u.tab.huff.read T :=
  ((buildTables_read List.nodup_range hw).2 T).trans (if_congr List.mem_range rfl rfl)

theorem finishTables_len (hw : u.tab.huff.wf) (T : Nat) :
    ((finishTables u).tab.huff.read T).len = (u.tab.huff.read T).len := by
  rw [finishTables_huff_read hw]
  split
  · exact HuffTable.build_len _ _
  · rfl

theorem afterLength_of_symbols_left (m : Mem HuffTable) (h : s.tab.lenI + 1 < s.alphaSize) : s.afterLength m =
    { s with tab := { s.tab with huff := m, lenI := s.tab.lenI + 1 }, phase := .lenDelta } :=
  if_pos h

theorem afterLength_of_tables_left (m : Mem HuffTable) (h : s.alphaSize ≤ s.tab.lenI + 1)
    (h' : s.tab.lenT + 1 < s.tab.nGroups) : s.afterLength m =
    { s with
      tab := { s.tab with huff := m, lenI := s.tab.lenI + 1, lenT := s.tab.lenT + 1 }, phase := .startLen } :=
  (if_neg (not_lt.2 h)).trans (if_pos h')

theorem afterLength_of_last (m : Mem HuffTable) (h : s.alphaSize ≤ s.tab.lenI + 1)
    (h' : s.tab.nGroups ≤ s.tab.lenT + 1) : s.afterLength m = finishTables
    { s with tab := { s.tab with huff := m, lenI := s.tab.lenI + 1, lenT := s.tab.lenT + 1 } } :=
  (if_neg (not_lt.2 h)).trans (if_neg (not_lt.2 h'))

/-- Whatever follows a length kept, the lengths stay. -/
theorem afterLength_len {m : Mem HuffTable} (hw : m.wf) (T : Nat) :
    ((s.afterLength m).tab.huff.read T).len = (m.read T).len := by
  unfold State.afterLength
  split
  · rfl
  · split
    · rfl
    · exact finishTables_len hw T

end Machine
end Sys2Proof

section TableStatements

open Sys2Proof Sys2Proof.Machine

/-- Settles O35: `nextGroup` finds the first group present, and with none present no byte value is listed. -/
theorem groupMapMakesFirstRowDue : Obligations.GroupMapMakesFirstRowDue := by
  intro s v
  refine ⟨fun g hg hset hclear => ?_, fun hzero => ?_⟩
  · exact congrArg _ (rowsFrom_of_some (nextGroup_eq_some (Nat.zero_le g) hg hset fun k _ => hclear k))
  · have hnext : nextGroup v 0 = none := nextGroup_eq_none fun k _ _ => by
      rw [hzero]
      exact BitVec.getMsbD_zero
    have hexec : exec (.inUse16 v) s = .next _ :=
      congrArg Host.Outcome.next ((rowsFrom_of_none hnext).trans (makeMaps_of_none usedBytes_nil))
    exact ⟨_, hexec, rfl, rfl, rfl, rfl⟩

/-- Settles O36: what follows a row leaves the bitmap, so it is as the row was written; what follows is decided by the
next group present. -/
theorem rowMarksItsGroup : Obligations.RowMarksItsGroup := by
  intro s v hw _
  have hread := writeRow_read hw s.tab.rowI v
  refine ⟨_, exec_inUseRow v s, ?_⟩
  generalize writeRow s.tab.rowI v s.tab.inUse = m at hread ⊢
  rw [rowsFrom_withInUse_inUse]
  refine ⟨fun j hj => ?_, fun b hb => ?_, fun g hlt hg hset hclear => ?_, fun hclear => ?_⟩
  · rw [hread, if_pos (by omega), Nat.add_sub_cancel_left]
  · rw [hread, if_neg (by omega)]
  · exact rowsFrom_withInUse_of_some m (nextGroup_eq_some hlt hg hset hclear)
  · exact rowsFrom_withInUse_of_none m (nextGroup_eq_none hclear)

/-- Settles O37: the one map is the list of the used bytes, the other holds the place of each in that list. -/
theorem mapsListTheUsedBytes : Obligations.MapsListTheUsedBytes := by
  rintro s _ hseq hunseq rfl
  have hrank := fun r => toNat_read_writeRanks (r := r) hunseq (nodup_usedBytes s.tab.inUse) (length_usedBytes_le _)
  simp only [makeMaps_tab]
  refine ⟨length_usedBytes _, fun r hr => ⟨?_, ?_, fun q hq => ?_⟩, fun b hb hu => ?_, fun hne => ?_, fun h0 => ?_⟩
  · rw [read_writeList_zero hseq hr]
    exact mem_usedBytes.1 (List.getElem_mem hr)
  · rw [read_writeList_zero hseq hr, hrank r hr]
  · rw [read_writeList_zero hseq hr, read_writeList_zero hseq (hq.trans hr)]
    exact List.pairwise_iff_getElem.1 (pairwise_usedBytes _) q r _ hr hq
  · obtain ⟨r, hr, rfl⟩ := exists_usedBytes_getElem hb hu
    rw [hrank r hr, read_writeList_zero hseq hr]
    exact ⟨hr, rfl⟩
  · exact makeMaps_of_some (List.ne_nil_of_length_pos (Nat.pos_of_ne_zero hne))
  · rw [makeMaps_of_none (List.eq_nil_of_length_eq_zero h0)]
    exact ⟨rfl, rfl, rfl⟩

/-- Settles O38: each count is kept, then compared with its bounds. -/
theorem countsAreKeptAndChecked : Obligations.CountsAreKeptAndChecked := by
  intro s g n
  have hmax : nGroupsMax = 6 := rfl
  refine ⟨fun hg => ?_, fun hg => ?_, fun hn => ?_, fun hn => ?_⟩
  · exact congrArg Host.Outcome.next (if_neg (by omega))
  · exact congrArg Host.Outcome.next (if_pos (by omega))
  · exact congrArg Host.Outcome.next (if_neg (by omega))
  · exact congrArg Host.Outcome.next (if_pos (by omega))

/-- Settles O39, by the positions of a list after a move to front. -/
theorem selectorMovesToFront : Obligations.SelectorMovesToFront := by
  intro s j hlen hgroups hj hcap hw
  have hlt : j < s.tab.selPos.length := by omega
  obtain ⟨hlist, htmp, hselector⟩ := afterSelector_list s (s.tab.selected j hlt)
  have hmoved := getElem?_moved hlt
  refine ⟨_, exec_selector hj hcap hlt, ?_⟩
  rw [hlist, htmp, hselector]
  refine ⟨(List.getElem?_eq_getElem hlt).symm, fun k h1 hk => ?_, fun k hk => ?_, List.getElem?_eq_getElem hlt,
    Mem.read_write hw s.tab.selI s.tab.selPos[j], fun hmore => if_pos hmore, fun hlast => if_neg (not_lt.2 hlast)⟩
  · exact (hmoved k).trans (by rw [if_neg (by omega), if_pos hk])
  · exact (hmoved k).trans (by rw [if_neg (by omega), if_neg (by omega)])

/-- Settles O41: the length is written once, building the tables leaves it, and each of the three continuations is one
update of the state. -/
theorem lengthIsKeptForItsSymbol : Obligations.LengthIsKeptForItsSymbol := by
  intro s hT hI hw hlen
  have hkept : s.keptLength.wf := Mem.wf_write hw _ _
  refine ⟨_, execLenStop_eq hT hI, fun T I => ?_, fun hmore => ?_, fun hlast hmore => ?_, fun hlast hend => ?_⟩
  · rw [afterLength_len hkept, keptLength_read hw hlen]
  · rw [afterLength_of_symbols_left _ hmore]
  · rw [afterLength_of_tables_left _ hlast hmore]
  · rw [afterLength_of_last _ hlast hend]
    refine ⟨fun T hT => ⟨s.keptLength.read T, ?_, ?_⟩, fun r hr => ?_, fun _ => rfl, rfl⟩
    · rw [finishTables_huff_read hkept, if_pos hT]
      rfl
    · rw [finishTables_len hkept]
    · simp [finishTables, initDecode, byteValues, hr]

/-- Settles O42: `perm` is the list of the symbols in the order of rule R205, a permutation of the alphabet. -/
theorem rankTableIsSorted : Obligations.RankTableIsSorted := by
  rintro t _ n hn hw rfl
  have hne := lens_ne_nil t hn
  exact ⟨fun i hi => ⟨leastOf_le (len_read_mem_lens t hi), le_greatestOf (len_read_mem_lens t hi)⟩,
    exists_len_read_of_mem (leastOf_mem hne), exists_len_read_of_mem (greatestOf_mem hne),
    fun j hj => HuffTable.build_perm_lt hw hj, fun i hi => exists_perm_read_eq hw hi,
    fun j k hjk hk => perm_read_sorted hw hjk hk⟩

/-- Settles O43: at every length passed `base` is the first code value less the number of shorter symbols, and the
first code value of a length is twice the value after the last of the length before. -/
theorem limitAndBaseOfTheLengths : Obligations.LimitAndBaseOfTheLengths := by
  rintro t _ n upTo hn - rfl hup
  have hupTo : ∀ l, upTo l = shorter (t.lens n) (l + 1) := fun l => (hup l).trans (length_filter_le_eq_shorter _ l)
  have hle := shorter_le_firstCode (t.lens n)
  have hmem := leastOf_mem (lens_ne_nil t hn)
  simp only [HuffTable.build_minLen, HuffTable.build_maxLen]
  refine ⟨fun l hl hout => ?_, ?_, fun l hmin hmax => ?_, fun l hmin hmax => ?_⟩
  · exact ⟨build_limit_read_of_outside hl hout, build_base_read_of_outside hout⟩
  · rw [build_base_read hmem, (first_of_le_leastOf le_rfl).2, Nat.zero_sub]
  · have hl := hle l
    rw [build_limit_read, if_pos ⟨hmin, hmax⟩, build_base_read_of_between hmin hmax, hupTo, shorter_succ]
    omega
  · have hl := hle l
    have hnext := hle (l + 1)
    rw [shorter_succ, firstCode] at hnext
    rw [build_base_read_of_between (by omega) hmax, build_base_read_of_between hmin hmax.le, hupTo, shorter_succ,
      firstCode]
    omega

end TableStatements
end

section
/-! PROOFS. The symbols of a block (44_mtf_rle2_decoder.md): the table that decodes one (rules R231, R232, R238), the
digits of a run (rule R233), and the bytes MTFV and EOB append, or the fault where they do not fit (rules R234 to
R237). -/

namespace Sys2Proof.Machine

variable {s u : State} {b : Byte}

/-! ### The symbol due (rules R231, R232, R238) -/

theorem ctx_of_symbol (hp : s.phase = .symbol) : s.ctx =
    some (.symbol (s.tab.huff.read (s.tab.selector.read (s.dec.symIdx / gSize))) s.tab.nInUse) := by
  rw [State.ctx, hp]

theorem step_of_symbol (hp : s.phase = .symbol) : step s = (fetchSymbol s).outcome := by
  rw [step, fetch, hp]

/-- A symbol whose code is decoded. -/
theorem outcome_fetchSymbol_of_ok {sym zn zvec : Nat} {c : BitCursor}
    (hg : s.dec.symIdx / gSize < s.tab.nSelectors) (hcap : s.tab.nSelectors ≤ config.selCap)
    (ht : s.tab.selector.read (s.dec.symIdx / gSize) < nGroupsMax)
    (hd : decodeCode (s.tab.huff.read (s.tab.selector.read (s.dec.symIdx / gSize))) s.alphaSize s.cur =
      .ok sym zn zvec c) :
    (fetchSymbol s).outcome = exec (symbolInstr s.tab.nInUse sym)
      { s with cur := c, dec := { s.dec with symIdx := s.dec.symIdx + 1, zn := zn, zvec := zvec } } := by
  rw [fetchSymbol]
  simp only
  rw [if_neg (by omega), if_neg (by omega), if_neg (by omega), hd]
  rfl

/-! ### The digits of a run (rules R233, R115) -/

theorem runValue_bounds (ds : List Bool) :
    2 ^ ds.length ≤ runValue ds + 1 ∧ runValue ds + 2 ≤ 2 ^ (ds.length + 1) := by
  induction ds with
  | nil => decide
  | cons d ds ih =>
    obtain ⟨hlow, hhigh⟩ := ih
    rw [runValue, List.length_cons, pow_succ 2 (ds.length + 1)]
    split <;> omega

theorem exec_runDigit (d : Bool) (s : State) : exec (if d then .runB else .runA) s = .next { s with
    dec := { s.dec with runS := s.dec.runS + s.dec.runN * (if d then 2 else 1), runN := s.dec.runN * 2 } } := by
  cases d
  · simp [exec, execRunA, Nat.mul_comm]
  · simp [exec, execRunB, Nat.mul_comm]

theorem execList_cons_of_next {i : Instr} (is : List Instr) (h : exec i s = .next u) :
    execList (i :: is) s = execList is u := by
  rw [execList, h]

/-- The digits read from any value of `runS` and any weight `runN` of the first. -/
theorem execList_runDigits (ds : List Bool) (s : State) :
    execList (ds.map fun d => if d then .runB else .runA) s = .next { s with
      dec := { s.dec with
        runS := s.dec.runS + s.dec.runN * runValue ds, runN := s.dec.runN * 2 ^ ds.length } } := by
  induction ds generalizing s with
  | nil => simp [execList, runValue]
  | cons d ds ih =>
    have hsum : s.dec.runS + s.dec.runN * (if d then 2 else 1) + s.dec.runN * 2 * runValue ds =
        s.dec.runS + s.dec.runN * runValue (d :: ds) := by
      rw [runValue]
      ring
    have hweight : s.dec.runN * 2 * 2 ^ ds.length = s.dec.runN * 2 ^ (d :: ds).length := by
      rw [List.length_cons]
      ring
    rw [List.map_cons, execList_cons_of_next _ (exec_runDigit d s), ih]
    simp only [hsum, hweight]

/-! ### `Emit` repeated (rules R234, R237) -/

theorem append_append {m : BlockBuffer} (hll8 : m.ll8.wf) (hcounts : m.unzftab.wf) (hlast : -1 ≤ m.last) (j n : Nat)
    (b : Byte) : (m.append j b).append n b = m.append (j + n) b := by
  obtain ⟨l, hl⟩ := Int.eq_ofNat_of_zero_le (show 0 ≤ m.last + 1 by omega)
  have hwf : (m.append j b).ll8.wf := Mem.wf_writeRun hll8 _ _ _
  have hwf' : (m.append j b).unzftab.wf := Mem.wf_write hcounts _ _
  have hend : (m.append j b).last = m.last + j := rfl
  have hnext : (m.append j b).last + 1 = ((l + j : Nat) : Int) := by omega
  have hbytes : ((m.append j b).append n b).ll8 = (m.append (j + n) b).ll8 :=
    Mem.ext_of_wf (Mem.wf_writeRun hwf _ _ _) (Mem.wf_writeRun hll8 _ _ _) fun p => by
      rw [append_ll8_read hwf hnext, append_ll8_read hll8 hl, append_ll8_read hll8 hl]
      grind
  have htable : ((m.append j b).append n b).unzftab = (m.append (j + n) b).unzftab :=
    Mem.ext_of_wf (Mem.wf_write hwf' _ _) (Mem.wf_write hcounts _ _) fun v => by
      rw [append_unzftab_read hwf', append_unzftab_read hcounts, append_unzftab_read hcounts]
      split <;> omega
  have hsize : ((m.append j b).append n b).last = (m.append (j + n) b).last := by
    rw [append_last, append_last, append_last]
    omega
  rw [BlockBuffer.mk.injEq]
  exact ⟨hsize, htable, rfl, hbytes, rfl⟩

theorem emitTimes_succ_of_room {n : Nat} (hroom : s.blk.last + 1 + 1 ≤ (s.capacity : Int))
    (hcap : s.capacity ≤ maxCapacity) :
    emitTimes (n + 1) b s = emitTimes n b { s with blk := s.blk.append 1 b } := by
  rw [emitTimes, emitRun_of_room hroom hcap, Act.andThen]

theorem emitTimes_of_room {n : Nat} (hll8 : s.blk.ll8.wf) (hcounts : s.blk.unzftab.wf) (hlast : -1 ≤ s.blk.last)
    (hcap : s.capacity ≤ maxCapacity) (hroom : s.blk.last + 1 + n ≤ (s.capacity : Int)) :
    emitTimes n b s = .go { s with blk := s.blk.append n b } := by
  induction n generalizing s with
  | zero => rw [emitTimes, append_zero hll8 hcounts]
  | succ n ih =>
    have hlast' : -1 ≤ s.blk.last + 1 := by omega
    have hroom' : s.blk.last + 1 + 1 + n ≤ (s.capacity : Int) := by omega
    have hrest := ih (s := { s with blk := s.blk.append 1 b }) (Mem.wf_writeRun hll8 _ _ _)
      (Mem.wf_write hcounts _ _) hlast' hcap hroom'
    rw [emitTimes_succ_of_room (by omega) hcap, hrest, append_append hll8 hcounts hlast, Nat.add_comm 1 n]

/-- The bytes that fit are appended before the fault. -/
theorem emitTimes_of_overrun {n : Nat} (hcap : s.capacity ≤ maxCapacity) (hlast : s.blk.last + 1 ≤ (s.capacity : Int))
    (hover : (s.capacity : Int) < s.blk.last + 1 + n) :
    ∃ m : BlockBuffer, emitTimes n b s = .ended (({ s with blk := m } : State).raise .blockOverrun) := by
  induction n generalizing s with
  | zero => omega
  | succ n ih =>
    by_cases hroom : s.blk.last + 1 + 1 ≤ (s.capacity : Int)
    · have hover' : (s.capacity : Int) < s.blk.last + 1 + 1 + n := by omega
      rw [emitTimes_succ_of_room hroom hcap]
      exact ih (s := { s with blk := s.blk.append 1 b }) hcap hroom hover'
    · rw [emitTimes, emitRun_of_overrun (by omega)]
      exact ⟨s.blk, rfl⟩

/-! ### MTFV (rules R234, R235, R237) -/

/-- The state after the entry at position `r` of the list has moved to its front. -/
def State.movedToFront (s : State) (r : Nat) (h : r < s.dec.yy.length) : State :=
  { s with dec := { s.dec with yy := s.dec.yy[r] :: s.dec.yy.eraseIdx r } }

/-- Once the run is flushed, the entry of rank `k - 1` is moved and its byte emitted. -/
theorem exec_mtfv_of_go {k : Nat} (hflush : flushRun s = .go u) (hk : k - 1 < u.dec.yy.length) :
    exec (.mtfv k) s =
      (emitRun 1 (u.tab.seqToUnseq.read u.dec.yy[k - 1].toNat) (u.movedToFront (k - 1) hk)).result := by
  rw [exec, execMtfv, hflush, Act.andThen, moveSymbol, moveToFront_eq hk]
  rfl

theorem exec_mtfv_of_ended {k : Nat} (hflush : flushRun s = .ended u) : exec (.mtfv k) s = .next u := by
  rw [exec, execMtfv, hflush, Act.andThen, Act.result]

theorem exec_eob_of_ended (hflush : flushRun s = .ended u) : exec .eob s = .next u := by
  simp only [exec, execEob, hflush, Act.andThen, Act.result]

@[simp] theorem State.flushed_blk (b : Byte) (s : State) : (s.flushed b).blk = s.blk.append s.dec.runS b := rfl

/-- `flushRun_eq_flushed` from the canonical form of the two memories written alone. -/
theorem flushRun_eq_flushed_of_wf {y : Byte} {ys : List Byte} (hll8 : s.blk.ll8.wf) (hcounts : s.blk.unzftab.wf)
    (hy : s.dec.yy = y :: ys) (hroom : s.blk.last + 1 + s.dec.runS ≤ (s.capacity : Int))
    (hcap : s.capacity ≤ maxCapacity) : flushRun s = .go (s.flushed (s.tab.seqToUnseq.read y.toNat)) := by
  rcases Nat.eq_zero_or_pos s.dec.runS with h0 | hpos
  · rw [flushRun_of_none h0]
    have hdec : ({ s.dec with runS := 0 } : DecodeRegs) = s.dec := by rw [← h0]
    rw [State.flushed, h0, append_zero hll8 hcounts, if_pos rfl, hdec]
  · rw [flushRun_of_room hpos.ne' hy hroom hcap, State.flushed, if_neg hpos.ne']

/-- The run and the byte fit: MTFV appends both. -/
theorem exec_mtfv_of_room {k : Nat} {f : Byte} (hflush : flushRun s = .go (s.flushed f)) (hk : k - 1 < s.dec.yy.length)
    (hroom : (s.flushed f).blk.last + 1 + 1 ≤ (s.capacity : Int)) (hcap : s.capacity ≤ maxCapacity) :
    exec (.mtfv k) s = .next { (s.flushed f).movedToFront (k - 1) hk with
      blk := (s.flushed f).blk.append 1 (s.tab.seqToUnseq.read s.dec.yy[k - 1].toNat) } := by
  rw [exec_mtfv_of_go hflush hk, emitRun_of_room (s := (s.flushed f).movedToFront (k - 1) hk) hroom hcap]
  rfl

/-- The run fits and the byte does not. -/
theorem exec_mtfv_of_overrun {k : Nat} (hflush : flushRun s = .go u) (hk : k - 1 < u.dec.yy.length)
    (hover : (u.capacity : Int) < u.blk.last + 1 + 1) :
    exec (.mtfv k) s = .next ((u.movedToFront (k - 1) hk).raise .blockOverrun) := by
  rw [exec_mtfv_of_go hflush hk, emitRun_of_overrun (s := u.movedToFront (k - 1) hk) hover]
  rfl

end Sys2Proof.Machine

section SymbolStatements

open Sys2Proof Sys2Proof.Machine

/-- Settles O20: the place of the grammar names the table that `SelectTable()` selects. -/
theorem stepRunsTheSymbol : Obligations.StepRunsTheSymbol := by
  rintro s g sym zn zvec c' hp rfl hg hcap ht hd
  refine ⟨_, rfl, ?_, ?_⟩
  · rw [ctx_of_symbol hp, Option.map_some, decode, gSize, hd, CodeRead.decoded]
  · exact (step_of_symbol hp).trans (outcome_fetchSymbol_of_ok hg hcap ht hd)

/-- Settles O45: by induction on the digits, read from any weight of the first. -/
theorem runDigitsAccumulate : Obligations.RunDigitsAccumulate := by
  refine ⟨fun s => ⟨rfl, rfl⟩, fun ds s hS hN => ?_⟩
  obtain ⟨hlow, hhigh⟩ := runValue_bounds ds
  refine ⟨?_, by omega, by omega⟩
  rw [execList_runDigits, hS, hN, Nat.zero_add, Nat.one_mul, Nat.one_mul]

/-- Settles O46: by induction on the number of bytes, each of which is appended or raises. -/
theorem runIsRepeatedEmit : Obligations.RunIsRepeatedEmit := by
  intro n b s hll8 hcounts hlast hfit hcap
  refine ⟨fun hroom => ?_, fun hover => ?_⟩
  · have hrun := emitRun_of_room (b := b) hroom hcap
    exact ⟨(emitTimes_of_room hll8 hcounts hlast hcap hroom).trans hrun.symm, hrun⟩
  · obtain ⟨m, hm⟩ := emitTimes_of_overrun (b := b) hcap hfit hover
    exact ⟨emitRun_of_overrun hover, _, hm, rfl, rfl, rfl⟩

/-- Settles O47: the run and the byte are appended one behind the other, and the flush leaves the list. -/
theorem mtfvAppendsItsByte : Obligations.MtfvAppendsItsByte := by
  intro s k m f b hk2 hk hyy hll8 hcounts hlast hroom hcap hf hb
  obtain ⟨y, ys, hy⟩ := List.exists_cons_of_length_eq_add_one hyy
  have hlt : k - 1 < s.dec.yy.length := by omega
  have hget := List.getElem?_eq_getElem hlt
  obtain rfl := hb _ hget
  have hflush : flushRun s = .go (s.flushed f) := by
    rw [hf y (by rw [hy]; rfl)]
    exact flushRun_eq_flushed_of_wf hll8 hcounts hy (by omega) hcap
  have hend : (s.flushed f).blk.last = s.blk.last + s.dec.runS := rfl
  have hbytes := append_ll8_read (m := (s.flushed f).blk) (Mem.wf_writeRun hll8 _ _ _) (l := m + s.dec.runS) (by omega)
  have hcount := append_unzftab_read (m := (s.flushed f).blk) (Mem.wf_write hcounts _ _)
  have hmoved := getElem?_moved hlt
  refine ⟨_, exec_mtfv_of_room hflush hlt (by omega) hcap, fun p => ?_, fun v => ?_, ?_, fun r h1 hr => ?_,
    fun r hr => ?_, rfl⟩
  · refine (hbytes 1 _ p).trans ?_
    rw [State.flushed_blk, append_ll8_read hll8 hlast]
    grind
  · exact (hcount 1 _ v).trans (by rw [State.flushed_blk, append_unzftab_read hcounts])
  · exact (hmoved 0).trans hget.symm
  · exact (hmoved r).trans (by rw [if_neg (by omega), if_pos hr])
  · exact (hmoved r).trans (by rw [if_neg (by omega), if_neg (by omega)])

/-- Settles O48: MTFV raises at the run or, where that fits or is empty, at its byte; EOB at the run. -/
theorem overrunRaisesBlockOverrun : Obligations.OverrunRaisesBlockOverrun := by
  intro s k hk2 hk hyy hcap
  obtain ⟨y, ys, hy⟩ := List.exists_cons_of_length_eq_add_one hyy
  have hlt : k - 1 < s.dec.yy.length := by omega
  refine ⟨fun hover => ?_, fun h0 hover => exec_eob_of_ended (flushRun_of_overrun h0 hy hover)⟩
  by_cases h0 : s.dec.runS = 0
  · exact ⟨_, exec_mtfv_of_overrun (flushRun_of_none h0) hlt (by omega), rfl, rfl, rfl, rfl⟩
  · by_cases hroom : s.blk.last + 1 + s.dec.runS ≤ (s.capacity : Int)
    · have hbyte : (s.capacity : Int) < s.blk.last + s.dec.runS + 1 + 1 := by omega
      exact ⟨_, exec_mtfv_of_overrun (flushRun_of_room h0 hy hroom hcap) hlt hbyte, rfl, rfl, rfl, rfl⟩
    · exact ⟨_, exec_mtfv_of_ended (flushRun_of_overrun h0 hy (by omega)), rfl, rfl, rfl, rfl⟩

end SymbolStatements
end

section
/-! PROOFS. The set-up of a block (45_inverse_bwt_output.md rules R261, R262): what `cftab` counts, and the order of
`tt`. Both are what the counting sort of `Laws/CountingSort.lean` gives. -/

namespace Sys2Proof.Machine

/-- `cftab[b + 1] = cftab[b] + unzftab[b]` (rule R261). -/
theorem cumulativeTable_read_succ (unzftab : Mem Nat) {b : Nat} (h : b < byteValues) :
    (cumulativeTable unzftab).read (b + 1) = (cumulativeTable unzftab).read b + unzftab.read b := by
  rw [cumulativeTable_read unzftab h, cumulativeTable_read unzftab h.le, List.range_succ, List.map_append,
    List.sum_append, List.map_singleton, List.sum_singleton]

end Sys2Proof.Machine

section SetUpStatements

open Sys2Proof Sys2Proof.Machine

/-- Settles O51: the counting sort puts every index of the block at its place. -/
theorem transformVectorIsSorted : Obligations.TransformVectorIsSorted := by
  intro s n hm hn hcap hcounts
  obtain ⟨cftab, tt, hbuild, -, -, hends, -, hplace, habove⟩ := buildTT_spec hm hn hcap hcounts
  refine ⟨_, hbuild, fun k hk => links_lt _ hplace hk, fun i hi => ⟨_, place_lt _ hi, hplace i hi⟩,
    fun j k hjk hk => links_sorted hplace hjk hk, habove, fun b hb => ?_, rfl⟩
  rw [cumulativeTable_below _ hb hcounts]
  exact hends b hb

/-- Settles O50: the running sums of the counts are the numbers of smaller bytes. -/
theorem cumulativeTableCountsSmaller : Obligations.CumulativeTableCountsSmaller := by
  intro unzftab
  refine ⟨cumulativeTable_read unzftab (Nat.zero_le _), fun b hb => cumulativeTable_read_succ unzftab hb,
    fun ll8 n hcounts => ⟨fun b hb => ?_, ?_⟩⟩
  · rw [cumulativeTable_below ll8 hb hcounts, below_eq_length]
  · exact (cumulativeTable_below ll8 le_rfl hcounts).trans (below_all ll8 n)

end SetUpStatements
end

section
/-! PROOFS. The steps of the pull machine inside a block (45_inverse_bwt_output.md rules R266 to R273), one equation for
each transition. -/

namespace Sys2Proof.Machine

variable {s : State}

/-! ### Which part of the pull machine is due (rule R264) -/

theorem step_of_A (hp : s.phase = .pull) (hps : s.ps = .randA ∨ s.ps = .noRandA) : step s = (fetchA s).outcome := by
  rcases hps with hps | hps <;> simp only [step, fetch, fetchPull, hp, hps]

theorem step_of_B (hp : s.phase = .pull) (hps : s.ps = .randB ∨ s.ps = .noRandB) : step s = (fetchB s).outcome := by
  rcases hps with hps | hps <;> simp only [step, fetch, fetchPull, hp, hps]

theorem step_of_C (hp : s.phase = .pull) (hps : s.ps = .randC ∨ s.ps = .noRandC) : step s = (fetchC s).outcome := by
  rcases hps with hps | hps <;> simp only [step, fetch, fetchPull, hp, hps]

/-! ### A byte of the walk (rules R266 to R269) -/

/-- While bytes are left, `XA` takes one as data. -/
theorem step_of_A_walk (hp : s.phase = .pull) (hps : s.ps = .randA ∨ s.ps = .noRandA)
    (hi : (s.pull.i2 : Int) ≤ s.blk.last) : step s = (fetchWalk .literal s).outcome := by
  rw [step_of_A hp hps, fetchA, if_pos hi]

/-- After four equal bytes `XB` takes one as a count. -/
theorem step_of_B_walk (hp : s.phase = .pull) (hps : s.ps = .randB ∨ s.ps = .noRandB)
    (heq : s.pull.ch2 = s.pull.chPrev) (hfour : runThreshold ≤ s.pull.count + 1) (hi : (s.pull.i2 : Int) ≤ s.blk.last) :
    step s = (fetchWalk .runCount s).outcome := by
  rw [step_of_B hp hps, fetchB, if_neg (not_not.2 heq), if_neg (by omega), if_neg (by omega)]

/-- The mask bit is due in the `Rand*` family until it is latched. -/
theorem maskDue_of_rand (hrand : s.ps.isRand = true) (hbit : s.pull.randBit = none) : s.maskDue = true := by
  rw [State.maskDue, hrand, hbit]
  rfl

theorem not_maskDue (h : s.ps.isRand = false ∨ s.pull.randBit ≠ none) : s.maskDue = false := by
  rw [State.maskDue, Bool.and_eq_false_iff]
  exact h.imp_right fun hbit => by simpa [Option.isSome_iff_ne_none] using hbit

variable {mk : Byte → Instr}

theorem outcome_fetchWalk_of_due (hdue : s.maskDue = true) (hmask : s.pull.rTPos < randSize) :
    (fetchWalk mk s).outcome = exec (.randMask (randBitOf s.pull.rNToGo s.pull.rTPos)) s := by
  rw [fetchWalk, if_pos hdue, if_neg (by omega)]
  rfl

theorem outcome_fetchWalk_of_not_due (hdue : s.maskDue = false) (ht : s.pull.tPos < maxCapacity) :
    (fetchWalk mk s).outcome = exec (mk s.walkByte) s := by
  rw [fetchWalk, if_neg (by simp [hdue]), if_neg (by omega)]
  rfl

/-- The state after a data byte has left the walk, before it is given (rule R266). -/
def State.tookByte (v : Byte) (s : State) : State :=
  { s.advanceWalk with
    pull := { s.advanceWalk.pull with chPrev := s.pull.ch2, ch2 := some v }, ps := s.ps.toB }

/-- The state after a count byte has left the walk (rule R269). -/
def State.tookCount (c : Byte) (s : State) : State :=
  { s.advanceWalk with
    pull := { s.advanceWalk.pull with count := s.pull.count + 1, z := c.toNat, j2 := 0 }, ps := s.ps.toC }

/-- The state after a call of `RandStep()` that answers `r` (rule R267). -/
def State.calledRandStep (r : Bool) (s : State) : State :=
  { s with pull := { s.pull with
      rNToGo := (randReload s.pull.rNToGo s.pull.rTPos).1 - 1
      rTPos := (randReload s.pull.rNToGo s.pull.rTPos).2, randBit := some r } }

theorem exec_literal_of_lt (ht : s.pull.tPos < maxCapacity) (v : Byte) :
    exec (.literal v) s = .next ((s.tookByte v).output v) :=
  if_neg (not_le.2 ht)

theorem exec_runCount_of_lt (ht : s.pull.tPos < maxCapacity) (c : Byte) :
    exec (.runCount c) s = .next (s.tookCount c) :=
  if_neg (not_le.2 ht)

theorem exec_randMask_of_lt (h : s.pull.rNToGo = 0 → s.pull.rTPos < randSize) (r : Bool) :
    exec (.randMask r) s = .next (s.calledRandStep r) :=
  if_neg fun hout => absurd (h hout.1) (not_lt.2 hout.2)

/-! ### `Output(b)` (rule R272), by what is read -/

theorem output_of_single (b : Byte) (h : s.bulk = none) : s.output b = (s.crcUpdate b).respond (.byte b) :=
  State.respondByte_of_single (s := s.crcUpdate b) b h

theorem output_of_more (b : Byte) {k : Bulk} (h : s.bulk = some k) (hk : k.got.length + 1 < k.wanted) :
    s.output b = { s.crcUpdate b with phase := .pull, bulk := some { k with got := k.got ++ [b] } } :=
  State.respondByte_of_more (s := s.crcUpdate b) b h hk

theorem output_of_last (b : Byte) {k : Bulk} (h : s.bulk = some k) (hk : ¬ k.got.length + 1 < k.wanted) :
    s.output b = (s.crcUpdate b).respond (.data (k.got ++ [b])) :=
  State.respondByte_of_last (s := s.crcUpdate b) b h hk

/-! ### Run detection and repeats (rules R269, R270) -/

/-- The next byte of the walk is due as data, the run being `n` bytes long. -/
def State.backToA (n : Nat) (s : State) : State := { s with pull := { s.pull with count := n }, ps := s.ps.toA }

section RunDetection

variable (hp : s.phase = .pull) (hps : s.ps = .randB ∨ s.ps = .noRandB)
include hp hps

/-- Another byte begins a run. -/
theorem step_of_B_ne (hne : s.pull.ch2 ≠ s.pull.chPrev) : step s = .next (s.backToA 1) := by
  rw [step_of_B hp hps, fetchB, if_pos hne]
  rfl

/-- The same byte makes the run longer. -/
theorem step_of_B_eq (heq : s.pull.ch2 = s.pull.chPrev) (hshort : s.pull.count + 1 < runThreshold) :
    step s = .next (s.backToA (s.pull.count + 1)) := by
  rw [step_of_B hp hps, fetchB, if_neg (not_not.2 heq), if_pos hshort]
  rfl

/-- The fourth equal byte is the last of the block. -/
theorem step_of_B_missing (heq : s.pull.ch2 = s.pull.chPrev) (hfour : runThreshold ≤ s.pull.count + 1)
    (hi : s.blk.last < (s.pull.i2 : Int)) : step s = .next (s.raise .runCountMissing) := by
  rw [step_of_B hp hps, fetchB, if_neg (not_not.2 heq), if_neg (not_lt.2 hfour), if_pos hi]
  rfl

end RunDetection

section Repeats

variable (hp : s.phase = .pull) (hps : s.ps = .randC ∨ s.ps = .noRandC)
include hp hps

theorem step_of_C_more {b : Byte} (hj : s.pull.j2 < s.pull.z) (hb : s.pull.ch2 = some b) :
    step s = .next (({ s with pull := { s.pull with j2 := s.pull.j2 + 1 } } : State).output b) := by
  rw [step_of_C hp hps, fetchC, if_pos hj, hb]
  rfl

theorem step_of_C_done (hj : s.pull.z ≤ s.pull.j2) : step s = .next (s.backToA 0) := by
  rw [step_of_C hp hps, fetchC, if_neg (not_lt.2 hj)]
  rfl

end Repeats

/-! ### The end of the block (rule R271) -/

theorem step_of_A_end (hp : s.phase = .pull) (hps : s.ps = .randA ∨ s.ps = .noRandA)
    (hi : s.blk.last < (s.pull.i2 : Int)) : step s = .next (endBlock s) := by
  rw [step_of_A hp hps, fetchA, if_neg (not_le.2 hi)]
  rfl

theorem rotl1_eq_rotateLeft (v : Word) : rotl1 v = v.rotateLeft 1 := rfl

end Sys2Proof.Machine

section PullStatements

open Sys2Proof Sys2Proof.Machine

/-- Settles O21: `XA` and `XB` fetch a byte of the walk, whose mask bit comes first where it is due. -/
theorem stepRunsTheWalkByte : Obligations.StepRunsTheWalkByte := by
  intro s hp hi ht hmask
  refine ⟨fun hready => ?_, fun hps hbit => ?_, fun heq hfour => ⟨fun hready => ?_, fun hps hbit => ?_⟩⟩
  · have hps : s.ps = .randA ∨ s.ps = .noRandA := hready.symm.imp_left And.left
    have hdue : s.maskDue = false := not_maskDue (hready.imp (fun h => by rw [h]; rfl) And.right)
    rw [step_of_A_walk hp hps hi, outcome_fetchWalk_of_not_due hdue ht]
  · have hdue : s.maskDue = true := maskDue_of_rand (by rw [hps]; rfl) hbit
    rw [step_of_A_walk hp (.inl hps) hi, outcome_fetchWalk_of_due hdue hmask]
  · have hps : s.ps = .randB ∨ s.ps = .noRandB := hready.symm.imp_left And.left
    have hdue : s.maskDue = false := not_maskDue (hready.imp (fun h => by rw [h]; rfl) And.right)
    rw [step_of_B_walk hp hps heq hfour hi, outcome_fetchWalk_of_not_due hdue ht]
  · have hdue : s.maskDue = true := maskDue_of_rand (by rw [hps]; rfl) hbit
    rw [step_of_B_walk hp (.inl hps) heq hfour hi, outcome_fetchWalk_of_due hdue hmask]

/-- Settles O52: the byte is output after the walk has moved on. -/
theorem literalGivesItsByte : Obligations.LiteralGivesItsByte := by
  rintro s _ v ht rfl
  rw [exec_literal_of_lt ht]
  refine ⟨fun hb => ?_, fun k hb hk => ?_, fun k hb hk => ?_⟩
  · rw [output_of_single v (s := s.tookByte v) hb, State.respond, ← hb]
    rfl
  · rw [output_of_more v (s := s.tookByte v) hb hk]
    rfl
  · rw [output_of_last v (s := s.tookByte v) hb (not_lt.2 hk)]
    rfl

/-- Settles O53: one update of the registers each, the table entry being loaded when the count-down is 0. -/
theorem countByteAndMaskBit : Obligations.CountByteAndMaskBit := by
  refine ⟨fun s c ht => exec_runCount_of_lt ht c, fun s r => ⟨fun hpos => ?_, fun hzero ht => ?_, fun hzero ht => ?_⟩⟩
  · have hload : randReload s.pull.rNToGo s.pull.rTPos = (s.pull.rNToGo, s.pull.rTPos) := if_neg hpos.ne'
    rw [exec_randMask_of_lt fun h => absurd h hpos.ne', State.calledRandStep, hload]
  · have hload : randReload s.pull.rNToGo s.pull.rTPos =
        (config.randTable.getD s.pull.rTPos 0, s.pull.rTPos + 1) := by
      rw [randReload, if_pos hzero, if_neg (by simp only [randSize]; omega)]
    rw [exec_randMask_of_lt fun _ => ht.trans (by decide), State.calledRandStep, hload]
  · have hload : randReload s.pull.rNToGo s.pull.rTPos = (config.randTable.getD 511 0, 0) := by
      rw [randReload, if_pos hzero, ht, if_pos (show 511 + 1 = randSize from rfl)]
    rw [exec_randMask_of_lt fun _ => by rw [ht]; decide, State.calledRandStep, hload]

/-- Settles O55: the branches of `XB` and `XC` that fetch no byte. -/
theorem runDetectionTransitions : Obligations.RunDetectionTransitions := fun _ hp =>
  ⟨fun hps => ⟨step_of_B_ne hp hps.symm, step_of_B_eq hp hps.symm, step_of_B_missing hp hps.symm⟩,
    fun hps => ⟨fun _ => step_of_C_more hp hps.symm, step_of_C_done hp hps.symm⟩⟩

/-- Settles O56: with no byte left `XA` ends the block. -/
theorem endOfBlockChecksItsCrc : Obligations.EndOfBlockChecksItsCrc := by
  intro s hp hps hi
  rw [step_of_A_end hp hps.symm hi]
  refine ⟨fun heq => ?_, fun hne => ?_⟩
  · rw [endBlock_of_eq heq, rotl1_eq_rotateLeft]
    rfl
  · rw [endBlock_of_ne hne]
    rfl

end PullStatements
end

section
/-! PROOFS. What a step gives the host (45_inverse_bwt_output.md rule R272): a byte comes of `Output(b)`, in `XA` and
`XC`, and every other part of a command gathers nothing and answers no byte. -/

namespace Sys2Proof.Machine

variable {s t u : State}

/-! ### No byte is given -/

/-- What the host has been given: the responses, and the list gathered for it. -/
def State.given (s : State) : List Response × Option Bulk := (s.responses, s.bulk)

/-- From `s` to `t` no byte is given: none is answered, none is gathered, and no list with one more is answered. -/
structure Withholds (s t : State) : Prop where
  byte : ∀ b, t.responses ≠ s.responses ++ [.byte b]
  gathered : ∀ k b, s.bulk = some k → t.bulk ≠ some { k with got := k.got ++ [b] }
  data : ∀ k b, s.bulk = some k → t.responses ≠ s.responses ++ [.data (k.got ++ [b])]

namespace Withholds

theorem of_given (h : t.given = s.given) : Withholds s t := by
  obtain ⟨hresp, hbulk⟩ : _ ∧ _ := by simpa [State.given] using h
  refine ⟨fun b => by simp [hresp], fun k b hk => ?_, fun k b _ => by simp [hresp]⟩
  rw [hbulk, hk]
  intro heq
  simpa using congrArg Bulk.got (Option.some.inj heq)

/-- The same from another state in which the host has been given the same. -/
theorem congr (h : Withholds u t) (hu : u.given = s.given) : Withholds s t := by
  obtain ⟨hresp, hbulk⟩ : _ ∧ _ := by simpa [State.given] using hu
  obtain ⟨hbyte, hgathered, hdata⟩ := h
  rw [hresp] at hbyte hdata
  rw [hbulk] at hgathered hdata
  exact ⟨hbyte, hgathered, hdata⟩

/-- A response that is neither a byte nor the list gathered with one more. -/
theorem respond {r : Response} (h : u.given = s.given) (hbyte : ∀ b, r ≠ .byte b)
    (hdata : ∀ k b, s.bulk = some k → r ≠ .data (k.got ++ [b])) : Withholds s (u.respond r) := by
  have hresp : u.responses = s.responses := congrArg Prod.fst h
  exact ⟨fun b => by simpa [hresp] using hbyte b, fun _ _ _ => nofun,
    fun k b hk => by simpa [hresp] using hdata k b hk⟩

theorem raise {f : FaultCode} (h : u.given = s.given) : Withholds s (u.raise f) :=
  respond (u := { u with fault := some f }) h nofun nofun

theorem respondEod (h : u.given = s.given) : Withholds s u.respondEod := by
  have hbulk : u.bulk = s.bulk := congrArg Prod.snd h
  unfold State.respondEod
  split
  · exact respond h nofun nofun
  · next k hk =>
    refine respond h nofun fun k' b hk' heq => ?_
    obtain rfl : k' = k := Option.some.inj (hk'.symm.trans (hbulk.symm.trans hk))
    simp at heq

/-- A READ_BULK begins with nothing gathered. -/
theorem begins {m : Nat} (hresp : t.responses = s.responses) (hbulk : t.bulk = some { wanted := m, got := [] }) :
    Withholds s t :=
  ⟨fun b => by simp [hresp], fun k b _ => by simp [hbulk], fun k b _ => by simp [hresp]⟩

end Withholds

/-- Of a meaning: where it answers a next state. -/
inductive Result.Withholds (s : State) : Result → Prop
  | next {t : State} (h : Machine.Withholds s t) : Withholds s (.next t)
  | fault {f : Fault} : Withholds s (.fault f)
  | refused {f : Refusal} : Withholds s (.refused f)

theorem Result.Withholds.of_next (h : Result.Withholds s (.next t)) : Machine.Withholds s t := by
  cases h with
  | next h => exact h

/-- What holds of both branches of a test. -/
theorem holds_ite {α : Type} {P : α → Prop} {p : Prop} [Decidable p] {a b : α} (h : P a) (h' : P b) :
    P (if p then a else b) := by
  split
  · exact h
  · exact h'

/-! ### The symbol layer (rules R233 to R237, R260 to R263) -/

section Symbols

variable (h : u.given = s.given)
include h

theorem emitRun_withholds (n : Nat) (b : Byte) :
    (emitRun n b u).Ends True (fun v => v.given = s.given) (Withholds s) :=
  holds_ite (.raise h) (holds_ite trivial h)

theorem flushRun_withholds : (flushRun u).Ends True (fun v => v.given = s.given) (Withholds s) := by
  refine holds_ite h ?_
  cases u.dec.yy with
  | nil => trivial
  | cons y ys => exact (emitRun_withholds h _ _).andThen fun _ hv => hv

theorem moveSymbol_withholds (k : Nat) : (moveSymbol k u).Ends True (fun v => v.given = s.given) (Withholds s) := by
  unfold moveSymbol
  cases moveToFront u.dec.yy (k - 1) with
  | none => trivial
  | some p => exact emitRun_withholds (u := { u with dec := { u.dec with yy := p.2 } }) h _ _

theorem checkOrigPtr_withholds : (checkOrigPtr u).Ends True (fun v => v.given = s.given) (Withholds s) :=
  holds_ite (.raise h) h

theorem buildTT_withholds : (buildTT u).Ends True (fun v => v.given = s.given) (Withholds s) := by
  refine holds_ite trivial ?_
  cases placeIndices u.blk.ll8 (u.blk.last + 1).toNat 0 (cumulativeTable u.blk.unzftab) u.blk.tt with
  | none => trivial
  | some p => exact h

/-! ### The table section (rules R200, R201) -/

theorem rowsFrom_withholds (g : Nat) : Withholds s (rowsFrom g u) := by
  unfold rowsFrom
  cases nextGroup u.tab.used16 g with
  | some g' => exact .of_given h
  | none => exact holds_ite (.raise h) (.of_given h)

end Symbols

theorem result_withholds {a : Act} (h : a.Ends True (fun v => v.given = s.given) (Withholds s)) :
    Result.Withholds s a.result := by
  cases a with
  | go v => exact .next (.of_given h)
  | ended v => exact .next h
  | stop x =>
    cases x with
    | index m => exact .fault
    | bitCount n => exact .refused

theorem execMtfv_withholds (k : Nat) (s : State) : Result.Withholds s (execMtfv k s) :=
  result_withholds ((flushRun_withholds rfl).andThen fun _ hu => moveSymbol_withholds hu k)

theorem execEob_withholds (s : State) : Result.Withholds s (execEob s) :=
  result_withholds ((((flushRun_withholds rfl).andThen fun u hu =>
    checkOrigPtr_withholds (u := u.crcReset) hu).andThen fun _ hu => buildTT_withholds hu).andThen fun _ hu => hu)

theorem execSelector_withholds (j : Nat) (s : State) : Result.Withholds s (execSelector j s) := by
  refine holds_ite (.next (.raise rfl)) (holds_ite .fault ?_)
  cases moveToFront s.tab.selPos j with
  | none => exact .fault
  | some p => exact .next (holds_ite (.of_given rfl) (.of_given rfl))

/-! ### Every instruction but the data byte -/

theorem enter_withholds {op : HostOp} {body : State → State} (hb : Withholds s (body s)) :
    Result.Withholds s (s.enter op body) := by
  rcases enter_cases op s body with ⟨f, -, he⟩ | ⟨-, f, he⟩ | ⟨he, -⟩ <;> rw [he]
  · exact .next (.respond rfl nofun nofun)
  · exact .next (.raise rfl)
  · exact .next hb

theorem execStart_withholds (a : Word) (s : State) : Result.Withholds s (execStart a s) := by
  refine enter_withholds ?_
  exact .of_given rfl

theorem execRead_withholds (a : Word) (s : State) : Result.Withholds s (execRead a s) := by
  refine enter_withholds ?_
  exact holds_ite (.respond rfl nofun nofun) (.of_given rfl)

/-- A READ_BULK that begins, or ends at once, has gathered nothing. -/
theorem execReadBulk_withholds (n : Word) (s : State) : Result.Withholds s (execReadBulk n s) := by
  refine enter_withholds ?_
  exact holds_ite (.respond rfl nofun fun k b _ => by simp) (.begins rfl rfl)

theorem execClose_withholds (a : Word) (s : State) : Result.Withholds s (execClose a s) := by
  refine enter_withholds ?_
  exact .respond (u := { s with srcClosed := true, closed := true }) rfl nofun nofun

theorem exec_withholds {i : Instr} (hi : ∀ v, i ≠ .literal v) (s : State) : Result.Withholds s (exec i s) := by
  cases i with
  | start a => exact execStart_withholds a s
  | read a => exact execRead_withholds a s
  | readBulk n => exact execReadBulk_withholds n s
  | write _ | seek _ | setLength _ | getLength _ => exact enter_withholds (.raise rfl)
  | close a => exact execClose_withholds a s
  | streamHdr _ => exact .next (.respond rfl nofun nofun)
  | blockMagic | endMagic | blockCrc _ | randomised _ | origPtr _ | startLen _ | lenInc | lenDec | runA | runB =>
    exact .next (.of_given rfl)
  | inUse16 _ | inUseRow _ =>
    refine .next (rowsFrom_withholds ?_ _)
    rfl
  | nGroups _ | nSelectors _ => exact .next (holds_ite (.raise rfl) (.of_given rfl))
  | selector j => exact execSelector_withholds j s
  | lenStop =>
    exact holds_ite .fault (.next (holds_ite (.of_given rfl) (holds_ite (.of_given rfl) (.of_given rfl))))
  | combinedCrc _ => exact .next (holds_ite (.respondEod rfl) (.raise rfl))
  | mtfv k => exact execMtfv_withholds k s
  | eob => exact execEob_withholds s
  | literal v => exact absurd rfl (hi v)
  | runCount _ | randMask _ => exact holds_ite .fault (.next (.of_given rfl))

/-! ### What a step gives -/

/-- A step gives no byte, or it is `Output(b)` in `XA` or `XC`, before which nothing was given and neither the
checksum nor the cursor has changed. -/
inductive Gives (s : State) : State → Prop
  | none {t : State} (h : Withholds s t) : Gives s t
  | byte {u : State} {b : Byte} (hgiven : u.given = s.given) (hcrc : u.crc = s.crc) (hcur : u.cur = s.cur)
    (hps : s.ps = .noRandA ∨ s.ps = .randA ∨ s.ps = .noRandC ∨ s.ps = .randC) : Gives s (u.output b)

/-- What is found due, carried out. -/
inductive Fetched.Gives (s : State) : Fetched → Prop
  | instr {i : Instr} {u : State} (h : ∀ t, exec i u = .next t → Machine.Gives s t) : Gives s (.instr i u)
  | done {t : State} (h : Machine.Gives s t) : Gives s (.done t)
  | stop {x : Stop} : Gives s (.stop x)
  | noByte : Gives s .noByte

/-- An instruction that is no data byte. -/
theorem Fetched.Gives.withheld {i : Instr} (hi : ∀ v, i ≠ .literal v) (hu : u.given = s.given) :
    (Fetched.instr i u).Gives s :=
  .instr fun t ht => .none ((ht ▸ exec_withholds hi u : Result.Withholds u (.next t)).of_next.congr hu)

theorem not_literal_of_allows {ctx : Ctx} {i : Instr} (h : ctx.Allows i) (v : Byte) : i ≠ .literal v := by
  rintro rfl
  cases ctx <;> simp [Ctx.Allows] at h

theorem symbolInstr_ne_literal (nInUse sym : Nat) (v : Byte) : symbolInstr nInUse sym ≠ .literal v := by
  unfold symbolInstr
  exact holds_ite (P := (· ≠ _)) nofun (holds_ite (P := (· ≠ _)) nofun (holds_ite (P := (· ≠ _)) nofun nofun))

theorem fetchCommand_gives (s : State) : (fetchCommand s).Gives s := by
  unfold fetchCommand
  cases s.cmds with
  | nil => exact .done (.none (.of_given rfl))
  | cons w ws =>
    refine .withheld (fun v hv => ?_) rfl
    have hcmd := encodeCommand_decodeCommand_isSome w
    rw [hv] at hcmd
    cases hcmd

theorem fetchField_gives {ctx : Ctx} (hsym : ∀ t n, ctx ≠ .symbol t n) : (fetchField ctx s).Gives s := by
  unfold fetchField
  rcases decode_answers ctx s.cur hsym with ⟨i, c, m, hi, hd, -⟩ | ⟨f, c, m, hd, -⟩ <;> rw [hd]
  · exact .withheld (not_literal_of_allows hi) rfl
  · exact .done (.none (.raise rfl))

theorem fetchSymbol_gives (s : State) : (fetchSymbol s).Gives s := by
  refine holds_ite (.done (.none (.raise rfl))) (holds_ite .stop (holds_ite .stop ?_))
  cases decodeCode (s.tab.huff.read (s.tab.selector.read (s.dec.symIdx / gSize))) s.alphaSize s.cur with
  | ok sym zn zvec c => exact .withheld (symbolInstr_ne_literal _ _) rfl
  | reject f c => exact .done (.none (.raise rfl))
  | stop x => exact .stop

theorem fetchWalk_gives {mk : Byte → Instr} (hmk : (Fetched.instr (mk s.walkByte) s).Gives s) :
    (fetchWalk mk s).Gives s :=
  holds_ite (holds_ite .stop (.withheld nofun rfl)) (holds_ite .stop hmk)

theorem fetchA_gives (hps : s.ps = .noRandA ∨ s.ps = .randA) : (fetchA s).Gives s := by
  refine holds_ite (fetchWalk_gives (.instr fun t ht => ?_)) (.done (.none (holds_ite (.of_given rfl) (.raise rfl))))
  by_cases hpos : s.pull.tPos < maxCapacity
  · cases (exec_literal_of_lt hpos _).symm.trans ht
    exact .byte rfl rfl rfl (hps.imp_right .inl)
  · have hfault : exec (.literal s.walkByte) s = .fault (.indexOutOfRange .tt) := if_pos (not_lt.1 hpos)
    cases hfault.symm.trans ht

theorem fetchB_gives (s : State) : (fetchB s).Gives s :=
  holds_ite (.done (.none (.of_given rfl))) (holds_ite (.done (.none (.of_given rfl)))
    (holds_ite (.done (.none (.raise rfl))) (fetchWalk_gives (.withheld nofun rfl))))

theorem fetchC_gives (hps : s.ps = .noRandC ∨ s.ps = .randC) : (fetchC s).Gives s := by
  refine holds_ite ?_ (.done (.none (.of_given rfl)))
  cases s.pull.ch2 with
  | none => exact .noByte
  | some b => exact .done (.byte rfl rfl rfl (.inr (.inr hps)))

theorem fetchPull_gives (s : State) : (fetchPull s).Gives s := by
  unfold fetchPull
  cases hps : s.ps with
  | startBlock => exact fetchField_gives nofun
  | noRandA => exact fetchA_gives (.inl hps)
  | randA => exact fetchA_gives (.inr hps)
  | randB | noRandB => exact fetchB_gives s
  | noRandC => exact fetchC_gives (.inl hps)
  | randC => exact fetchC_gives (.inr hps)

theorem fetch_gives (s : State) : (fetch s).Gives s := by
  unfold fetch
  cases s.phase with
  | idle => exact fetchCommand_gives s
  | pull => exact fetchPull_gives s
  | lenDelta => exact holds_ite (.done (.none (.raise rfl))) (fetchField_gives nofun)
  | symbol => exact fetchSymbol_gives s
  | _ => exact fetchField_gives nofun

theorem step_gives (h : step s = .next t) : Gives s t := by
  have hf := fetch_gives s
  rcases step_next_cases h with ⟨i, u, hd, hx⟩ | hd <;> rw [hd] at hf
  · cases hf with
    | instr hi => exact hi t hx
  · cases hf with
    | done ht => exact ht

/-- The byte an `Output` gives is the one the host has. -/
theorem eq_of_output {b v : Byte} (hu : u.given = s.given)
    (h : (u.output v).responses = s.responses ++ [.byte b] ∨
      ∃ k, s.bulk = some k ∧ ((u.output v).bulk = some { k with got := k.got ++ [b] } ∨
        (u.output v).responses = s.responses ++ [.data (k.got ++ [b])])) : v = b := by
  obtain ⟨hresp, hbulk⟩ : u.responses = s.responses ∧ u.bulk = s.bulk := by simpa [State.given] using hu
  rw [← hresp, ← hbulk] at h
  cases hb : u.bulk with
  | none => simpa [output_of_single v hb, hb] using h
  | some k =>
    by_cases hk : k.got.length + 1 < k.wanted
    · simpa [output_of_more v hb hk, hb] using h
    · simpa [output_of_last v hb hk, hb] using h

end Sys2Proof.Machine

section ByteStatements

open Sys2Proof Sys2Proof.Machine

/-- Settles O57: a byte the host has been given comes of `Output(b)`, which updates the checksum. -/
theorem everyByteGivenUpdatesTheChecksum : Obligations.EveryByteGivenUpdatesTheChecksum := by
  intro s t b hstep hgiven
  have h : t.responses = s.responses ++ [.byte b] ∨
      ∃ k, s.bulk = some k ∧ (t.bulk = some { k with got := k.got ++ [b] } ∨
        t.responses = s.responses ++ [.data (k.got ++ [b])]) :=
    hgiven.imp_right fun ⟨k, hk, _, hkb⟩ => ⟨k, hk, hkb⟩
  cases step_gives hstep with
  | none hw =>
    rcases h with hbyte | ⟨k, hk, hlist | hdata⟩
    · exact absurd hbyte (hw.byte b)
    · exact absurd hlist (hw.gathered k b hk)
    · exact absurd hdata (hw.data k b hk)
  | byte hu hcrc hcur hps =>
    cases eq_of_output hu h
    exact ⟨by rw [State.output_crc, hcrc], by rw [State.output_cur, hcur], hps⟩

end ByteStatements
end

section
/-! PROOFS. The output of a block (45_inverse_bwt_output.md rules R274, R275): what a READ_BULK gathers from the rest of
a block, from `XA` on, is the run-length expansion of the rest of its walk, by induction on the bytes left. -/

namespace Sys2Proof

/-! ### `expand`, one data byte at a time (rule R275) -/

section Expand

variable {v : Byte} {prev : Option Byte} {cnt : Nat}

/-- The length of the run a data byte is in. -/
def runLength (v : Byte) (prev : Option Byte) (cnt : Nat) : Nat := if some v = prev then cnt + 1 else 1

theorem expandRuns_of_short (h : runLength v prev cnt < runThreshold) (q : List Byte) :
    expandRuns (v :: q) prev cnt =
      (v :: (expandRuns q (some v) (runLength v prev cnt)).1, (expandRuns q (some v) (runLength v prev cnt)).2) := by
  rw [expandRuns.eq_def (v :: q)]
  exact if_pos h

theorem expandRuns_of_missing (h : runThreshold ≤ runLength v prev cnt) : expandRuns [v] prev cnt = ([v], true) := by
  rw [expandRuns.eq_def]
  exact if_neg (not_lt.2 h)

theorem expandRuns_of_count (h : runThreshold ≤ runLength v prev cnt) (c : Byte) (q : List Byte) :
    expandRuns (v :: c :: q) prev cnt =
      (v :: (List.replicate c.toNat v ++ (expandRuns q (some v) 0).1), (expandRuns q (some v) 0).2) := by
  rw [expandRuns.eq_def (v :: c :: q)]
  exact if_neg (not_lt.2 h)

end Expand

theorem one_le_length_expandRuns (v : Byte) (q : List Byte) (prev : Option Byte) (cnt : Nat) :
    1 ≤ (expandRuns (v :: q) prev cnt).1.length := by
  by_cases h : runLength v prev cnt < runThreshold
  · rw [expandRuns_of_short h]
    exact Nat.le_add_left _ _
  · cases q with
    | nil => rw [expandRuns_of_missing (not_lt.1 h)]; exact le_rfl
    | cons c q =>
      rw [expandRuns_of_count (not_lt.1 h)]
      exact Nat.le_add_left _ _

/-- Only equal bytes make a run of four. -/
theorem eq_of_runThreshold_le {v : Byte} {prev : Option Byte} {cnt : Nat} (h : runThreshold ≤ runLength v prev cnt) :
    some v = prev ∧ runThreshold ≤ cnt + 1 := by
  unfold runLength at h
  split at h
  · next heq => exact ⟨heq, h⟩
  · exact absurd h (by decide)

theorem unmask_false (b : Byte) : unmask false b = b := by simp [unmask]

namespace Machine

variable {s t u : State} {out out' : List Byte} {n : Nat}

theorem PullState.toA_of_A {p : PullState} (h : p = .randA ∨ p = .noRandA) : p.toA = p := by
  rcases h with rfl | rfl <;> rfl

theorem PullState.toA_toB (p : PullState) : p.toB.toA = p.toA := by cases p <;> rfl

theorem PullState.toA_toC (p : PullState) : p.toC.toA = p.toA := by cases p <;> rfl

/-! ### The rest of the walk (rule R274) -/

/-- The state when the mask bit of the next byte of the walk is known (rule R267): latched in a `Rand*` block. -/
def State.latched (s : State) : State :=
  { s with pull := { s.pull with
      rNToGo := if s.ps.isRand then (randReload s.pull.rNToGo s.pull.rTPos).1 - 1 else s.pull.rNToGo
      rTPos := if s.ps.isRand then (randReload s.pull.rNToGo s.pull.rTPos).2 else s.pull.rTPos
      randBit := if s.ps.isRand then some (randBitOf s.pull.rNToGo s.pull.rTPos) else s.pull.randBit } }

theorem latched_of_rand (h : s.ps.isRand = true) :
    s.latched = s.calledRandStep (randBitOf s.pull.rNToGo s.pull.rTPos) := by
  simp only [State.latched, State.calledRandStep, h, if_true]

theorem latched_of_noRand (h : s.ps.isRand = false) : s.latched = s := by
  simp [State.latched, h]

/-- The next byte of the walk, unmasked. -/
def State.nextByte (s : State) : Byte := s.latched.walkByte

theorem maskDue_latched (s : State) : s.latched.maskDue = false := by
  cases h : s.ps.isRand with
  | true => exact not_maskDue (.inr (by rw [latched_of_rand h]; exact nofun))
  | false => rw [latched_of_noRand h, not_maskDue (.inl h)]

/-- The registers the rest of the walk depends on. -/
def State.walkRegs (s : State) : Bool × BlockBuffer × Nat × Nat × Nat :=
  (s.ps.isRand, s.blk, s.pull.tPos, s.pull.rNToGo, s.pull.rTPos)

theorem content_congr (h : s.walkRegs = t.walkRegs) (n : Nat) : s.content n = t.content n := by
  simp only [State.walkRegs, Prod.mk.injEq] at h
  obtain ⟨hrand, hblk, htPos, htoGo, hrTPos⟩ := h
  rw [State.content, State.content, hrand, hblk, htPos, htoGo, hrTPos]

theorem content_zero (s : State) : s.content 0 = [] := by
  rw [State.content]
  split <;> rfl

/-- The next byte of the walk, and the rest behind it. -/
theorem content_succ (s : State) (n : Nat) :
    s.content (n + 1) = s.nextByte :: s.latched.advanceWalk.content n := by
  rw [State.nextByte]
  cases h : s.ps.isRand with
  | true =>
    rw [latched_of_rand h]
    simp [State.content, State.walkByte, State.maskBit, State.calledRandStep, walkBytes, maskBits, h]
  | false =>
    rw [latched_of_noRand h]
    simp [State.content, State.walkByte, State.maskBit, walkBytes, unmask_false, h]

/-! ### Gathering (rules R153, R272) -/

/-- `s` after the READ_BULK in progress has gathered `out`, and the checksum has taken it. -/
def State.gathered (out : List Byte) (s : State) : State :=
  { s with
    bulk := s.bulk.map fun k => { k with got := k.got ++ out }
    crc := { s.crc with crcAcc := out.foldl config.crcStep s.crc.crcAcc } }

theorem gathered_nil (s : State) : s.gathered [] = s := by simp [State.gathered]

theorem gathered_gathered (s : State) : (s.gathered out).gathered out' = s.gathered (out ++ out') := by
  simp [State.gathered, Function.comp_def]

/-- The READ_BULK in progress goes on after `n` more bytes. -/
def State.Wants (n : Nat) (s : State) : Prop := ∃ k, s.bulk = some k ∧ k.got.length + n < k.wanted

theorem State.Wants.mono {m : Nat} (h : s.Wants n) (hm : m ≤ n) : s.Wants m := by
  obtain ⟨k, hk, hlt⟩ := h
  exact ⟨k, hk, by omega⟩

theorem State.Wants.gathered (h : s.Wants (out.length + n)) : (s.gathered out).Wants n := by
  obtain ⟨k, hk, hlt⟩ := h
  refine ⟨{ k with got := k.got ++ out }, by simp [State.gathered, hk], ?_⟩
  simp only [List.length_append]
  omega

theorem output_of_wants (h : s.Wants 1) (hp : s.phase = .pull) (b : Byte) : s.output b = s.gathered [b] := by
  obtain ⟨k, hk, hlt⟩ := h
  rw [output_of_more b hk hlt, State.gathered, hk, ← hp]
  rfl

theorem run_keeps_inv {j : Nat} (h : s.Inv) (hr : run j s = .next t) : t.Inv := by
  induction j generalizing s with
  | zero => cases hr; exact h
  | succ j ih =>
    obtain ⟨u, hu, hrun⟩ := run_succ_inv hr
    obtain ⟨_, hstep, hinv⟩ := step_keeps h
    cases hu.symm.trans hstep
    exact ih hinv hrun

/-- Steps lead from `s` to `t`, on which `out` is gathered and but for that only the registers of the pull machine
change. -/
structure Gathers (s : State) (out : List Byte) (t : State) : Prop where
  reaches : ∃ j, run j s = .next t
  rest : ∃ p q, t = { s.gathered out with pull := p, ps := q }

namespace Gathers

theorem refl (s : State) : Gathers s [] s := ⟨⟨0, rfl⟩, s.pull, s.ps, by rw [gathered_nil]⟩

/-- One step that gives no byte. -/
theorem of_pull {p : PullRegs} {q : PullState} (h : step s = .next { s with pull := p, ps := q }) :
    Gathers s [] { s with pull := p, ps := q } :=
  ⟨⟨1, run_succ h⟩, p, q, by rw [gathered_nil]⟩

/-- One step that gives a byte. -/
theorem of_output {p : PullRegs} {q : PullState} {b : Byte} (hw : s.Wants 1) (hp : s.phase = .pull)
    (h : step s = .next (({ s with pull := p, ps := q } : State).output b)) :
    Gathers s [b] { s.gathered [b] with pull := p, ps := q } := by
  rw [output_of_wants (s := { s with pull := p, ps := q }) hw hp] at h
  exact ⟨⟨1, run_succ h⟩, p, q, rfl⟩

theorem trans (h : Gathers s out t) (h' : Gathers t out' u) : Gathers s (out ++ out') u := by
  obtain ⟨⟨i, hi⟩, p, q, rfl⟩ := h
  obtain ⟨⟨j, hj⟩, p', q', rfl⟩ := h'
  exact ⟨⟨i + j, (run_add hi).trans hj⟩, p', q', by rw [← gathered_gathered]; rfl⟩

theorem inv (h : Gathers s out t) (hs : s.Inv) : t.Inv := h.reaches.elim fun _ hj => run_keeps_inv hs hj

theorem phase (h : Gathers s out t) : t.phase = s.phase := by
  obtain ⟨-, p, q, rfl⟩ := h
  rfl

theorem blk (h : Gathers s out t) : t.blk = s.blk := by
  obtain ⟨-, p, q, rfl⟩ := h
  rfl

theorem wants (h : Gathers s out t) (hw : s.Wants (out.length + n)) : t.Wants n := by
  obtain ⟨-, p, q, rfl⟩ := h
  exact hw.gathered

end Gathers

/-! ### A byte of the walk is taken (rules R266 to R269) -/

/-- The mask bit of the next byte, where the block is randomised. -/
theorem gathers_latched {mk : Byte → Instr} (hbit : s.pull.randBit = none) (hmask : s.pull.rTPos < randSize)
    (hwalk : step s = (fetchWalk mk s).outcome) : Gathers s [] s.latched := by
  cases hrand : s.ps.isRand with
  | true =>
    have hstep : step s = .next (s.calledRandStep (randBitOf s.pull.rNToGo s.pull.rTPos)) := by
      rw [hwalk, outcome_fetchWalk_of_due (maskDue_of_rand hrand hbit) hmask, exec_randMask_of_lt fun _ => hmask]
    rw [latched_of_rand hrand]
    exact .of_pull hstep
  | false =>
    rw [latched_of_noRand hrand]
    exact .refl s

/-- The state after `XA` has given the next byte of the walk. -/
def State.gave (s : State) : State := (s.latched.tookByte s.nextByte).gathered [s.nextByte]

/-- The state after `XB` has kept the next byte of the walk as a count. -/
def State.counted (s : State) : State := s.latched.tookCount s.nextByte

section WalkByte

variable (h : s.Inv) (hp : s.phase = .pull) (hbit : s.pull.randBit = none) (hi : (s.pull.i2 : Int) ≤ s.blk.last)
include h hp hbit hi

/-- `XA` gives the next byte of the walk. -/
theorem gathers_gave (hps : s.ps = .randA ∨ s.ps = .noRandA) (hw : s.Wants 1) : Gathers s [s.nextByte] s.gave := by
  have hne : s.ps ≠ .startBlock := PullState.ne_of_or hps
  have hmask := gathers_latched hbit (h.pulling hne).mask (step_of_A_walk hp hps hi)
  have hstep : step s.latched = .next ((s.latched.tookByte s.nextByte).output s.nextByte) := by
    rw [step_of_A_walk (s := s.latched) hp hps hi, outcome_fetchWalk_of_not_due (maskDue_latched s) (h.tPos_lt hne)]
    exact exec_literal_of_lt (s := s.latched) (h.tPos_lt hne) _
  exact hmask.trans (.of_output hw hp hstep)

/-- `XB` keeps the next byte of the walk as the count of the repeats. -/
theorem gathers_counted (hps : s.ps = .randB ∨ s.ps = .noRandB) (heq : s.pull.ch2 = s.pull.chPrev)
    (hfour : runThreshold ≤ s.pull.count + 1) : Gathers s [] s.counted := by
  have hne : s.ps ≠ .startBlock := PullState.ne_of_or hps
  have hmask := gathers_latched hbit (h.pulling hne).mask (step_of_B_walk hp hps heq hfour hi)
  have hstep : step s.latched = .next s.counted := by
    rw [step_of_B_walk (s := s.latched) hp hps heq hfour hi,
      outcome_fetchWalk_of_not_due (maskDue_latched s) (h.tPos_lt hne)]
    exact exec_runCount_of_lt (s := s.latched) (h.tPos_lt hne) _
  exact hmask.trans (.of_pull hstep)

end WalkByte

/-! ### The repeats (rule R270) -/

/-- The state after the repeats `bs` have been given and the next byte of the walk is due as data. -/
def State.repeated (bs : List Byte) (s : State) : State :=
  ({ s.gathered bs with pull := { s.pull with j2 := s.pull.z } } : State).backToA 0

/-- The repeats that are left are given. -/
theorem gathers_repeated {b : Byte} {m : Nat} (hp : s.phase = .pull) (hps : s.ps = .randC ∨ s.ps = .noRandC)
    (hb : s.pull.ch2 = some b) (hm : s.pull.j2 + m = s.pull.z) (hw : s.Wants m) :
    Gathers s (List.replicate m b) (s.repeated (List.replicate m b)) := by
  induction m generalizing s with
  | zero =>
    have hend : s.backToA 0 = s.repeated [] := by
      rw [State.repeated, gathered_nil, ← hm]
      rfl
    rw [List.replicate_zero, ← hend]
    exact .of_pull (step_of_C_done hp hps (by omega))
  | succ m ih =>
    have hone := Gathers.of_output (hw.mono (by omega)) hp (step_of_C_more hp hps (by omega) hb)
    have hmore := ih (s := { s.gathered [b] with pull := { s.pull with j2 := s.pull.j2 + 1 } }) hp hps hb
      (by simp only; omega) (hone.wants (hw.mono (Nat.add_comm 1 m).le))
    rw [List.replicate_succ, ← List.singleton_append, State.repeated, ← gathered_gathered]
    exact hone.trans hmore

/-! ### What is left of the walk -/

theorem walkRegs_gave (s : State) : s.gave.walkRegs = s.latched.advanceWalk.walkRegs :=
  congrArg (·, _) s.ps.isRand_toB

theorem walkRegs_counted (s : State) : s.counted.walkRegs = s.latched.advanceWalk.walkRegs :=
  congrArg (·, _) s.ps.isRand_toC

theorem walkRegs_backToA (n : Nat) (s : State) : (s.backToA n).walkRegs = s.walkRegs :=
  congrArg (·, _) s.ps.isRand_toA

theorem walkRegs_repeated (bs : List Byte) (s : State) : (s.repeated bs).walkRegs = s.walkRegs :=
  walkRegs_backToA 0 _

theorem bytesLeft_gave (h : s.bytesLeft = n + 1) : s.gave.bytesLeft = n := by
  have hi : s.gave.pull.i2 = s.pull.i2 + 1 := rfl
  have hblk : s.gave.blk = s.blk := rfl
  rw [State.bytesLeft] at h ⊢
  rw [hi, hblk]
  omega

theorem bytesLeft_counted (h : s.bytesLeft = n + 1) : s.counted.bytesLeft = n := by
  have hi : s.counted.pull.i2 = s.pull.i2 + 1 := rfl
  have hblk : s.counted.blk = s.blk := rfl
  rw [State.bytesLeft] at h ⊢
  rw [hi, hblk]
  omega

theorem bytesLeft_backToA (n : Nat) (s : State) : (s.backToA n).bytesLeft = s.bytesLeft := rfl

theorem bytesLeft_repeated (bs : List Byte) (s : State) : (s.repeated bs).bytesLeft = s.bytesLeft := rfl

theorem i2_le_last (h : s.bytesLeft = n + 1) : (s.pull.i2 : Int) ≤ s.blk.last := by
  rw [State.bytesLeft] at h
  omega

/-- With no byte left the walk is at the end of the block. -/
theorem State.Inv.i2_of_none_left (h : s.Inv) (hps : s.ps ≠ .startBlock) (hleft : s.bytesLeft = 0) :
    (s.pull.i2 : Int) = s.blk.last + 1 := by
  have := (h.pulling hps).taken
  rw [State.bytesLeft] at hleft
  omega

/-! ### The rest of a block (rule R275) -/

/-- The next byte of the walk is due as data, and no mask bit is latched. -/
structure AtA (s : State) : Prop where
  inv : s.Inv
  phase : s.phase = .pull
  ps : s.ps = .randA ∨ s.ps = .noRandA
  bit : s.pull.randBit = none

/-- From `s` the bytes of `r` are gathered until the walk is at its end; then the block is at its end or, as `r` says, a
count byte is missing. -/
def Expands (s : State) (r : List Byte × Bool) : Prop :=
  ∃ t, Gathers s r.1 t ∧ (t.pull.i2 : Int) = s.blk.last + 1 ∧ (r.2 = false → t.ps = s.ps) ∧
    (r.2 = true → step t = .next (t.raise .runCountMissing))

theorem Expands.after {r : List Byte × Bool} (h : Expands t r) (hg : Gathers s out t) (hps : t.ps = s.ps) :
    Expands s (out ++ r.1, r.2) := by
  obtain ⟨u, hu, hi, hfull, hshort⟩ := h
  exact ⟨u, hg.trans hu, hg.blk ▸ hi, fun hr => (hfull hr).trans hps, hshort⟩


/-- Run detection on a run that is not long enough for repeats (rule R269). -/
theorem gathers_detected (hp : s.phase = .pull) (hps : s.ps = .randB ∨ s.ps = .noRandB) {v : Byte}
    (hv : s.pull.ch2 = some v) (h : runLength v s.pull.chPrev s.pull.count < runThreshold) :
    Gathers s [] (s.backToA (runLength v s.pull.chPrev s.pull.count)) := by
  unfold runLength at h ⊢
  split
  · next heq =>
    rw [if_pos heq] at h
    exact .of_pull (step_of_B_eq hp hps (hv.trans heq) h)
  · next hne => exact .of_pull (step_of_B_ne hp hps (hv ▸ hne))

/-- The length of the run the next byte of the walk is in. -/
def State.runHere (s : State) : Nat := runLength s.nextByte s.pull.ch2 s.pull.count

section Round

variable (h : AtA s) (hleft : s.bytesLeft = n + 1)
include h hleft

theorem AtA.gives (hw : s.Wants 1) : Gathers s [s.nextByte] s.gave :=
  gathers_gave h.inv h.phase h.bit (i2_le_last hleft) h.ps hw

/-- Up to three equal bytes: from `XA` through `XB` back to `XA`. -/
theorem AtA.gives_short (hlen : s.runHere < runThreshold) (hw : s.Wants 1) :
    Gathers s [s.nextByte] (s.gave.backToA s.runHere) :=
  (h.gives hleft hw).trans (gathers_detected (s := s.gave) h.phase s.ps.toB_cases rfl hlen)

/-- Four equal bytes and a count byte: from `XA` through `XB` and `XC` back to `XA`. -/
theorem AtA.gives_run {m : Nat} {bs : List Byte} (hleft' : s.gave.bytesLeft = m + 1)
    (hfour : runThreshold ≤ s.runHere) (hbs : bs = List.replicate s.gave.nextByte.toNat s.nextByte)
    (hw : s.Wants (1 + bs.length)) :
    Gathers s (s.nextByte :: bs) (s.gave.counted.repeated bs) := by
  obtain ⟨heq, hcount⟩ := eq_of_runThreshold_le hfour
  have hgave := h.gives hleft (hw.mono (Nat.le_add_right 1 _))
  have hcounted := hgave.trans
    (gathers_counted (hgave.inv h.inv) h.phase rfl (i2_le_last hleft') s.ps.toB_cases heq hcount)
  subst hbs
  rw [List.length_replicate] at hw
  exact hcounted.trans (gathers_repeated (hcounted.phase.trans h.phase) s.gave.ps.toC_cases rfl (Nat.zero_add _)
    (hcounted.wants hw))

/-- The fourth equal byte is the last of the block: a count byte is missing. -/
theorem AtA.expands_of_missing (hnone : s.gave.bytesLeft = 0) (hfour : runThreshold ≤ s.runHere) (hw : s.Wants 1) :
    Expands s ([s.nextByte], true) := by
  obtain ⟨heq, hcount⟩ := eq_of_runThreshold_le hfour
  have hgave := h.gives hleft hw
  have hend : (s.gave.pull.i2 : Int) = s.gave.blk.last + 1 :=
    (hgave.inv h.inv).i2_of_none_left s.ps.toB_ne_startBlock hnone
  exact ⟨s.gave, hgave, hend, nofun,
    fun _ => step_of_B_missing (hgave.phase.trans h.phase) s.ps.toB_cases heq hcount (by omega)⟩

end Round

theorem AtA.of_gathers (hg : Gathers s out t) (h : AtA s) (hps : t.ps = s.ps) (hbit : t.pull.randBit = none) : AtA t :=
  ⟨hg.inv h.inv, hg.phase.trans h.phase, hps ▸ h.ps, hbit⟩

/-- From `XA` on, by induction on the bytes of the walk that are left. -/
theorem AtA.expands {q : List Byte} {prev : Option Byte} {cnt : Nat} (h : AtA s) (hleft : s.bytesLeft = n)
    (hq : s.content n = q) (hprev : s.pull.ch2 = prev) (hcnt : s.pull.count = cnt)
    (hw : s.Wants (expandRuns q prev cnt).1.length) : Expands s (expandRuns q prev cnt) := by
  induction n using Nat.strong_induction_on generalizing s q prev cnt with
  | h n ih =>
  subst hq hprev hcnt
  cases n with
  | zero =>
    rw [content_zero]
    exact ⟨s, .refl s, h.inv.i2_of_none_left (PullState.ne_of_or h.ps) hleft, fun _ => rfl, nofun⟩
  | succ n =>
    have hnext : s.gave.bytesLeft = n := bytesLeft_gave hleft
    have hcontent : s.gave.content n = s.latched.advanceWalk.content n := content_congr (walkRegs_gave s) n
    rw [content_succ, ← hcontent] at hw ⊢
    have hone : s.Wants 1 := hw.mono (one_le_length_expandRuns _ _ _ _)
    by_cases hlen : s.runHere < runThreshold
    · rw [expandRuns_of_short hlen] at hw ⊢
      have hround := h.gives_short hleft hlen hone
      have hps : (s.gave.backToA s.runHere).ps = s.ps := s.ps.toA_toB.trans (PullState.toA_of_A h.ps)
      exact (ih n (Nat.lt_succ_self n) (.of_gathers hround h hps rfl) ((bytesLeft_backToA _ _).trans hnext)
        (content_congr (walkRegs_backToA _ _) n) rfl rfl (hround.wants (by rwa [Nat.add_comm]))).after hround hps
    · have hfour := not_lt.1 hlen
      cases n with
      | zero =>
        rw [content_zero, expandRuns_of_missing hfour]
        exact h.expands_of_missing hleft hnext hfour hone
      | succ m =>
        rw [content_succ, expandRuns_of_count hfour] at hw ⊢
        generalize hbs : List.replicate s.gave.nextByte.toNat s.nextByte = bs at hw ⊢
        have hround := h.gives_run hleft hnext hfour hbs.symm
          (hw.mono (by simp only [List.length_cons, List.length_append]; omega))
        have hps : (s.gave.counted.repeated bs).ps = s.ps :=
          (PullState.toA_toC _).trans (s.ps.toA_toB.trans (PullState.toA_of_A h.ps))
        have hregs := (walkRegs_repeated bs s.gave.counted).trans (walkRegs_counted s.gave)
        exact (ih m (by omega) (prev := some s.nextByte) (cnt := 0) (.of_gathers hround h hps rfl)
          ((bytesLeft_repeated bs _).trans (bytesLeft_counted hnext)) (content_congr hregs m) rfl rfl
          (hround.wants (hw.mono (by simp only [List.length_cons, List.length_append]; omega)))).after hround hps

end Machine

end Sys2Proof

section BlockStatements

open Sys2Proof Sys2Proof.Machine

/-- Settles O59: the READ_BULK is at `XA`, and its room is what the statement asks for. -/
theorem blockOutputIsItsExpansion : Obligations.BlockOutputIsItsExpansion := by
  intro s k out short hinv hp hps hbit hk hout hroom
  have h : AtA s := ⟨hinv, hp, hps.symm, hbit⟩
  have hexp := h.expands rfl rfl rfl rfl (hout ▸ ⟨k, hk, hroom⟩)
  change Expands s (expandRuns (s.content (s.blk.last + 1 - s.pull.i2).toNat) _ _) at hexp
  rw [← hout] at hexp
  obtain ⟨t, ⟨⟨j, hj⟩, p, q, rfl⟩, hi, hfull, hshort⟩ := hexp
  exact ⟨j, _, hj, by simp [State.gathered, hk], rfl, hp, rfl, hi, rfl, hfull, hshort⟩

end BlockStatements
end

section
/-! PROOFS. The checksum unit (46_checksum_unit.md rules R300, R301). A shift step is linear over exclusive-or, and eight
of them only shift a word whose top byte is clear: so the top byte alone selects what the generator contributes, which
is the table form. -/

namespace Sys2Proof

/-! ### Shift steps (rule R301) -/

theorem crcShift_of_set {c : Word} (h : c.getLsbD 31 = true) : crcShift c = (c <<< 1) ^^^ crcPoly := if_pos h

theorem crcShift_of_clear {c : Word} (h : c.getLsbD 31 = false) : crcShift c = c <<< 1 :=
  if_neg (Bool.eq_false_iff.1 h)

/-- Linearity: the generator enters for each operand whose bit 31 is set, and twice is not at all. -/
theorem crcShift_xor (a b : Word) : crcShift (a ^^^ b) = crcShift a ^^^ crcShift b := by
  have htop := BitVec.getLsbD_xor (i := 31) (x := a) (y := b)
  have hrest := BitVec.shiftLeft_xor_distrib a b 1
  cases ha : a.getLsbD 31 <;> cases hb : b.getLsbD 31 <;> rw [ha, hb] at htop
  · rw [crcShift_of_clear htop, crcShift_of_clear ha, crcShift_of_clear hb, hrest]
  · rw [crcShift_of_set htop, crcShift_of_clear ha, crcShift_of_set hb, hrest, BitVec.xor_assoc]
  · rw [crcShift_of_set htop, crcShift_of_set ha, crcShift_of_clear hb, hrest]
    ac_rfl
  · rw [crcShift_of_clear htop, crcShift_of_set ha, crcShift_of_set hb, hrest]
    grind

theorem crcShifts_xor (n : Nat) (a b : Word) : crcShifts n (a ^^^ b) = crcShifts n a ^^^ crcShifts n b := by
  induction n generalizing a b with
  | zero => rfl
  | succ n ih => rw [crcShifts, crcShift_xor, ih, crcShifts, crcShifts]

/-- The generator does not enter while the bits that reach bit 31 are clear. -/
theorem crcShifts_of_clear {n : Nat} {c : Word} (h : ∀ k < n, c.getLsbD (31 - k) = false) :
    crcShifts n c = c <<< n := by
  induction n generalizing c with
  | zero => simp [crcShifts]
  | succ n ih =>
    have hrest : ∀ k < n, (c <<< 1).getLsbD (31 - k) = false := fun k hk => by
      rw [BitVec.getLsbD_shiftLeft, Nat.sub_sub, h (k + 1) (Nat.succ_lt_succ hk), Bool.and_false]
    rw [crcShifts, crcShift_of_clear (h 0 n.succ_pos), ih hrest, ← BitVec.shiftLeft_add, Nat.add_comm]

/-! ### The table form (rule R301) -/

/-- The three low bytes of a word are shifted up unchanged: their top byte is clear. -/
theorem crcShifts_low_bytes (c : Word) : crcShifts 8 (c <<< 8 >>> 8) = c <<< 8 := by
  have hclear : ∀ k < 8, (c <<< 8 >>> 8).getLsbD (31 - k) = false := fun k hk => by
    rw [BitVec.getLsbD_ushiftRight, BitVec.getLsbD_of_ge _ _ (by omega)]
  have hshift : c <<< 8 >>> 8 <<< 8 = c <<< 8 := by ext i hi; grind
  rw [crcShifts_of_clear hclear, hshift]

/-- A byte that enters at the top meets the top byte of the word and leaves the three low ones alone. -/
theorem xor_top_byte (c v : Word) : c ^^^ (v <<< 24) = (c <<< 8 >>> 8) ^^^ ((c >>> 24 ^^^ v) <<< 24) := by
  ext i hi
  grind

theorem defaultCrcStep_table_form (c : Word) (b : Byte) :
    defaultCrcStep c b = (c <<< 8) ^^^ crcShifts 8 ((c >>> 24 ^^^ b.setWidth 32) <<< 24) := by
  rw [defaultCrcStep, xor_top_byte, crcShifts_xor, crcShifts_low_bytes]

end Sys2Proof

section ChecksumStatements

open Sys2Proof Sys2Proof.Machine

/-- Settles O60: the requests are their definitions, the table form is linearity, the check values are evaluated. -/
theorem checksumUnitOfTheSpec : Obligations.ChecksumUnitOfTheSpec := by
  refine ⟨fun _ _ _ => ⟨rfl, rfl, rfl⟩, defaultCrcStep_table_form, ?_⟩
  decide +kernel

end ChecksumStatements
end

section
/-! PROOFS. What raises before an element is read or a body runs (60_exceptions.md): the two range checks of the table
and symbol decoders (rules R333, R334), and the lifecycle checks on START, READ and READ_BULK (rules R150, R337). -/

namespace Sys2Proof.Machine

variable {s : State}

/-! ### The range checks before a read (rules R333, R334) -/

theorem step_of_lenDelta (hp : s.phase = .lenDelta) : step s = (fetchLenDelta s).outcome := by
  rw [step, fetch, hp]

/-- A continuation bit due at an illegal code length. -/
theorem outcome_fetchLenDelta_of_illegal (hl : s.tab.curr < 1 ∨ maxCodeLen < s.tab.curr) :
    (fetchLenDelta s).outcome = .next (s.raise .codeLengthOutOfRange) := by
  rw [fetchLenDelta, if_pos hl]; rfl

/-- A symbol due in a group that has no selector. -/
theorem outcome_fetchSymbol_of_overrun (hg : s.tab.nSelectors ≤ s.dec.symIdx / gSize) :
    (fetchSymbol s).outcome = .next (s.raise .selectorOverrun) := by
  rw [fetchSymbol]
  simp only
  rw [if_pos hg]
  rfl

/-! ### The lifecycle checks (rules R150, R337) -/

/-- START of a started stream and a read of one not started raise, whether the port is closed or open. -/
theorem enter_of_violation {op : HostOp} (hf : s.fault = none)
    (hop : (op = .start ∧ s.started = true) ∨ ((op = .read ∨ op = .readBulk) ∧ s.started = false))
    (body : State → State) : s.enter op body = .next (s.raise .hostProtocolViolation) := by
  have hcheck : entryCheck op s = .violation .hostProtocolViolation := by
    rcases hop with ⟨rfl, hs⟩ | ⟨rfl | rfl, hs⟩ <;>
      simp [entryCheck, hf, unsupported, hs]
  rw [State.enter, hcheck]

theorem exec_start_of_started (hf : s.fault = none) (hs : s.started = true) (arg : Word) :
    exec (.start arg) s = .next (s.raise .hostProtocolViolation) := by
  rw [exec, execStart, enter_of_violation hf (.inl ⟨rfl, hs⟩)]

theorem exec_read_of_not_started (hf : s.fault = none) (hs : s.started = false) (arg : Word) :
    exec (.read arg) s = .next (s.raise .hostProtocolViolation) := by
  rw [exec, execRead, enter_of_violation hf (.inr ⟨.inl rfl, hs⟩)]

theorem exec_readBulk_of_not_started (hf : s.fault = none) (hs : s.started = false) (n : Word) :
    exec (.readBulk n) s = .next (s.raise .hostProtocolViolation) := by
  rw [exec, execReadBulk, enter_of_violation hf (.inr ⟨.inr rfl, hs⟩)]

end Sys2Proof.Machine

section ExceptionStatements

open Sys2Proof Sys2Proof.Machine

/-- Settles O23: both range checks stand before the bit reader. -/
theorem raisedBeforeAnyBitIsRead : Obligations.RaisedBeforeAnyBitIsRead := by
  refine ⟨fun s hp hcurr => ?_, fun s hp hsym => ?_⟩
  · have hl : s.tab.curr < 1 ∨ maxCodeLen < s.tab.curr := hcurr.imp_left Nat.lt_one_iff.2
    rw [step_of_lenDelta hp, outcome_fetchLenDelta_of_illegal hl]
    rfl
  · have hg : s.tab.nSelectors ≤ s.dec.symIdx / gSize :=
      (Nat.le_div_iff_mul_le (by decide)).2 (Nat.mul_comm _ _ ▸ hsym)
    rw [step_of_symbol hp, outcome_fetchSymbol_of_overrun hg]
    rfl

/-- Settles O25: a closed port rejects whatever is not CLOSE, the lifecycle checks reject the rest. -/
theorem lifecycleViolationsRaise : Obligations.LifecycleViolationsRaise := by
  rintro s _ arg hf rfl
  exact ⟨fun hc _ _ hi hclose => exec_of_closed hf hc hi hclose, fun hs => exec_start_of_started hf hs arg,
    fun _ hs => ⟨exec_read_of_not_started hf hs arg, exec_readBulk_of_not_started hf hs arg⟩⟩

end ExceptionStatements
end
